-- ==== Sys2Proof/Word.lean ====
section
/-!
DEFINITION. The words of the machine: the widths of 00_scope.md R5, R7 and R11, and nothing else.
-/

namespace Sys2Proof

/-- A word: 32 bits (R7, R11). Registers, addresses and instructions are words. -/
abbrev Word := BitVec 32

/-- A halfword: 16 bits (R11). -/
abbrev Half := BitVec 16

/-- A byte: 8 bits (R41). -/
abbrev Byte := BitVec 8

/-- The number of a general register, a 5-bit field of an instruction (R30, R101). -/
abbrev Reg := BitVec 5

end Sys2Proof
end

