-- ==== Sys2Proof/Machine/Flags.lean ====
section
/-!
DEFINITION. The conditions an instruction computes. The machine has no flags (R36): an overflow is an exception
(R140(c)), a comparison writes a register, decides a branch or decides a trap.
-/

namespace Sys2Proof.Machine

/-- The exact value fits a signed 32-bit word: `-2^31 .. 2^31-1` (R7, R140(c)). -/
def fitsSigned (t : Int) : Bool := decide (-2147483648 ≤ t ∧ t ≤ 2147483647)

/-- The exact signed sum is outside `-2^31 .. 2^31-1` (R140(c)). -/
def addOverflows (a b : Word) : Bool := !(fitsSigned (a.toInt + b.toInt))

/-- The exact signed difference is outside `-2^31 .. 2^31-1` (R140(c)). -/
def subOverflows (a b : Word) : Bool := !(fitsSigned (a.toInt - b.toInt))

/-- `s32(a) < s32(b)` (R7, R158). -/
def ltSigned (a b : Word) : Bool := decide (a.toInt < b.toInt)

/-- `u32(a) < u32(b)` (R7, R161). -/
def ltUnsigned (a b : Word) : Bool := decide (a.toNat < b.toNat)

/-- `s32(a) >= 0` (R188). -/
def geZero (a : Word) : Bool := decide (0 ≤ a.toInt)

/-- `s32(a) > 0` (R190). -/
def gtZero (a : Word) : Bool := decide (0 < a.toInt)

/-- 1 when the condition holds, else 0 (R158). -/
def boolWord (c : Bool) : Word := if c then 1#32 else 0#32

end Sys2Proof.Machine
end

