-- ==== Sys2Proof/Config.lean ====
section
/-!
DEFINITION. What the spec leaves to an implementation: the parameters of 00_scope.md R5 as plain data,
the values the model takes for them at reset, and the free values (`draw(n)` of R9), which have no body.
-/

namespace Sys2Proof

/-- Byte order of data and of instruction fetch (`ENDIAN`, R61, R62). -/
inductive Endian where
  | big
  | little
deriving DecidableEq, Repr

/-- What MUL leaves in HI and LO (`MUL_HILO`, R153). -/
inductive MulHilo where
  | product
  | unpredictable
deriving DecidableEq, Repr

/-- A stretch of byte addresses that `MEMMAP` lists, with its marks (R5, R66). -/
structure Region where
  base  : Nat
  size  : Nat
  read  : Bool
  write : Bool
  exec  : Bool
deriving DecidableEq, Repr

/-- The parameters of R5 that a step reads. They are part of the state as plain data, so that a theorem about
every state is about every value of them; no step changes them. -/
structure Params where
  /-- `ENDIAN`, OPEN. -/
  endian     : Endian
  /-- `DELAY_SLOTS`, default true. -/
  delaySlots : Bool
  /-- `MEMMAP`, OPEN: a byte address has a mark when some region that holds it has the mark. -/
  memmap     : List Region
  /-- `HAS_CC`, OPEN. -/
  hasCc      : Bool
  /-- `HWRENA`, OPEN: bit `n` says whether hardware register `n` may be read. -/
  hwrena     : Word
  /-- `HWR`, OPEN: the value of hardware register `n`, or `none` where each read is a fresh draw. -/
  hwr        : Vector (Option Word) 32
  /-- `MUL_HILO`, default `product`. -/
  mulHilo    : MulHilo
  /-- `SC_DRAW`, default true. -/
  scDraw     : Bool
deriving DecidableEq, Repr

namespace Config

/-- The `n`-th free 32-bit value, `draw(32)` of R9: nothing fixes it (log 10). -/
opaque drawWord : Nat → BitVec 32

/-- The `n`-th free bit, `draw(1)` of R9: nothing fixes it (log 10). -/
opaque drawBit : Nat → Bool

/-- `RESET_PC`, OPEN in R5 and R45. PRESUMED: the family's reset vector (log 4, unsafe). -/
def resetPc : Word := 0xBFC00000#32

/-- The byte that an address nothing lists reads as. R45 leaves memory to `LAUNCH`.
DESIGN CHOICE: zero (log 9, unsafe). -/
def unlistedByte : Byte := 0#8

/-- The parameters at reset. `DELAY_SLOTS`, `MUL_HILO` and `SC_DRAW` are the spec's defaults (R5); the OPEN ones
are DESIGN CHOICE (logs 2, 3, 5, 6) or PRESUMED (`HWRENA`, log 6), all unsafe. -/
def resetParams : Params where
  endian     := .big
  delaySlots := true
  memmap     := [⟨0, 2 ^ 32, true, true, true⟩]
  hasCc      := true
  hwrena     := 0x0000000F#32
  hwr        := Vector.replicate 32 none
  mulHilo    := .product
  scDraw     := true

end Config

end Sys2Proof
end

