-- ==== Sys2Proof/Machine/Bytes.lean ====
section
/-!
DEFINITION. Byte order, decided once (20_memory.md R61): how bytes in the order of their addresses make a wider value,
and how a value falls apart into bytes in the order of their addresses.
-/

namespace Sys2Proof

/-- Two bytes at rising addresses as one halfword (R61). -/
def joinHalf (e : Endian) (b0 b1 : Byte) : Half :=
  match e with
  | .big    => b0 ++ b1
  | .little => b1 ++ b0

/-- Four bytes at rising addresses as one word (R61). -/
def joinWord (e : Endian) (b0 b1 b2 b3 : Byte) : Word :=
  match e with
  | .big    => b0 ++ b1 ++ b2 ++ b3
  | .little => b3 ++ b2 ++ b1 ++ b0

/-- The bytes of a halfword in the order of their addresses (R61). -/
def splitHalf (e : Endian) (v : Half) : List Byte :=
  match e with
  | .big    => [v.extractLsb' 8 8, v.extractLsb' 0 8]
  | .little => [v.extractLsb' 0 8, v.extractLsb' 8 8]

/-- The bytes of a word in the order of their addresses (R61). -/
def splitWord (e : Endian) (v : Word) : List Byte :=
  match e with
  | .big    => [v.extractLsb' 24 8, v.extractLsb' 16 8, v.extractLsb' 8 8, v.extractLsb' 0 8]
  | .little => [v.extractLsb' 0 8, v.extractLsb' 8 8, v.extractLsb' 16 8, v.extractLsb' 24 8]

end Sys2Proof
end

