-- ==== Sys2Proof/Syntax.lean ====
section
/-!
DEFINITION. The instructions: one constructor for each of the 98 rows of 30_encoding.md R112, in the order of the
source. The fields stand in the order of the assembler operands (R118, R122); every field is the bits of R101.
-/

namespace Sys2Proof

/-- The 98 entries of R112. Each constructor names the rule that gives its meaning. -/
inductive Instr where
  -- Arithmetic (40_arithmetic.md)
  /-- R141 -/
  | add (rd rs rt : Reg)
  /-- R142 -/
  | addi (rt rs : Reg) (imm : Half)
  /-- R143 -/
  | addiu (rt rs : Reg) (imm : Half)
  /-- R144 -/
  | addu (rd rs rt : Reg)
  /-- R145; `rt` is the field at bits 20:16, which must equal `rd` (R115) -/
  | clo (rd rs rt : Reg)
  /-- R146; `rt` is the field at bits 20:16, which must equal `rd` (R115) -/
  | clz (rd rs rt : Reg)
  /-- R147 -/
  | div (rs rt : Reg)
  /-- R148 -/
  | divu (rs rt : Reg)
  /-- R149 -/
  | madd (rs rt : Reg)
  /-- R150 -/
  | maddu (rs rt : Reg)
  /-- R151 -/
  | msub (rs rt : Reg)
  /-- R152 -/
  | msubu (rs rt : Reg)
  /-- R153 -/
  | mul (rd rs rt : Reg)
  /-- R154 -/
  | mult (rs rt : Reg)
  /-- R155 -/
  | multu (rs rt : Reg)
  /-- R156 -/
  | seb (rd rt : Reg)
  /-- R157 -/
  | seh (rd rt : Reg)
  /-- R158 -/
  | slt (rd rs rt : Reg)
  /-- R159 -/
  | slti (rt rs : Reg) (imm : Half)
  /-- R160 -/
  | sltiu (rt rs : Reg) (imm : Half)
  /-- R161 -/
  | sltu (rd rs rt : Reg)
  /-- R162 -/
  | sub (rd rs rt : Reg)
  /-- R163 -/
  | subu (rd rs rt : Reg)
  -- Branch and jump (41_branch_jump.md)
  /-- R185 -/
  | b (off : Half)
  /-- R186 -/
  | bal (off : Half)
  /-- R187 -/
  | beq (rs rt : Reg) (off : Half)
  /-- R188 -/
  | bgez (rs : Reg) (off : Half)
  /-- R189 -/
  | bgezal (rs : Reg) (off : Half)
  /-- R190 -/
  | bgtz (rs : Reg) (off : Half)
  /-- R191 -/
  | blez (rs : Reg) (off : Half)
  /-- R192 -/
  | bltz (rs : Reg) (off : Half)
  /-- R193 -/
  | bltzal (rs : Reg) (off : Half)
  /-- R194 -/
  | bne (rs rt : Reg) (off : Half)
  /-- R195 -/
  | j (index : BitVec 26)
  /-- R196 -/
  | jal (index : BitVec 26)
  /-- R197 -/
  | jalr (rd rs : Reg)
  /-- R198 -/
  | jalrHb (rd rs : Reg)
  /-- R199 -/
  | jr (rs : Reg)
  /-- R200 -/
  | jrHb (rs : Reg)
  -- Control (42_control.md)
  /-- R210 -/
  | ehb
  /-- R211 -/
  | nop
  /-- R212 -/
  | ssnop
  -- Load, store and memory control (43_load_store.md)
  /-- R221 -/
  | lb (rt : Reg) (off : Half) (base : Reg)
  /-- R222 -/
  | lbu (rt : Reg) (off : Half) (base : Reg)
  /-- R223 -/
  | lh (rt : Reg) (off : Half) (base : Reg)
  /-- R224 -/
  | lhu (rt : Reg) (off : Half) (base : Reg)
  /-- R225 -/
  | ll (rt : Reg) (off : Half) (base : Reg)
  /-- R226 -/
  | lw (rt : Reg) (off : Half) (base : Reg)
  /-- R227 -/
  | lwl (rt : Reg) (off : Half) (base : Reg)
  /-- R228 -/
  | lwr (rt : Reg) (off : Half) (base : Reg)
  /-- R229 -/
  | pref (hint : BitVec 5) (off : Half) (base : Reg)
  /-- R230 -/
  | sb (rt : Reg) (off : Half) (base : Reg)
  /-- R231 -/
  | sc (rt : Reg) (off : Half) (base : Reg)
  /-- R232 -/
  | sh (rt : Reg) (off : Half) (base : Reg)
  /-- R233 -/
  | sd (rt : Reg) (off : Half) (base : Reg)
  /-- R234 -/
  | sw (rt : Reg) (off : Half) (base : Reg)
  /-- R235 -/
  | swl (rt : Reg) (off : Half) (base : Reg)
  /-- R236 -/
  | swr (rt : Reg) (off : Half) (base : Reg)
  /-- R237 -/
  | sync (stype : BitVec 5)
  /-- R238 -/
  | synci (off : Half) (base : Reg)
  -- Logical (44_logical.md)
  /-- R260 -/
  | and (rd rs rt : Reg)
  /-- R261 -/
  | andi (rt rs : Reg) (imm : Half)
  /-- R262 -/
  | lui (rt : Reg) (imm : Half)
  /-- R263 -/
  | nor (rd rs rt : Reg)
  /-- R264 -/
  | or (rd rs rt : Reg)
  /-- R265 -/
  | ori (rt rs : Reg) (imm : Half)
  /-- R266 -/
  | xor (rd rs rt : Reg)
  /-- R267 -/
  | xori (rt rs : Reg) (imm : Half)
  -- Bit field (45_insert_extract.md)
  /-- R280; `msbd` is `size - 1`, `lsb` is `pos` (R121) -/
  | ext (rt rs : Reg) (msbd lsb : BitVec 5)
  /-- R281; `msb` is `pos + size - 1`, `lsb` is `pos` (R121) -/
  | ins (rt rs : Reg) (msb lsb : BitVec 5)
  /-- R282 -/
  | wsbh (rd rt : Reg)
  -- Move (46_move.md)
  /-- R290 -/
  | movn (rd rs rt : Reg)
  /-- R291 -/
  | movt (rd rs : Reg) (cc : BitVec 3)
  /-- R292 -/
  | movz (rd rs rt : Reg)
  /-- R293 -/
  | mthi (rs : Reg)
  /-- R294 -/
  | mtlo (rs : Reg)
  /-- R295; `hwr` is the number of a hardware register -/
  | rdhwr (rt : Reg) (hwr : BitVec 5)
  -- Shift (47_shift.md)
  /-- R300 -/
  | rotr (rd rt : Reg) (sa : BitVec 5)
  /-- R301 -/
  | rotrv (rd rt rs : Reg)
  /-- R302 -/
  | sll (rd rt : Reg) (sa : BitVec 5)
  /-- R303 -/
  | sllv (rd rt rs : Reg)
  /-- R304 -/
  | sra (rd rt : Reg) (sa : BitVec 5)
  /-- R305 -/
  | srav (rd rt rs : Reg)
  /-- R306 -/
  | srl (rd rt : Reg) (sa : BitVec 5)
  /-- R307 -/
  | srlv (rd rt rs : Reg)
  -- Trap (48_trap.md)
  /-- R321, the entry BREAK -/
  | breakpoint (code : BitVec 20)
  /-- R322 -/
  | syscall (code : BitVec 20)
  /-- R323 -/
  | teq (rs rt : Reg) (code : BitVec 10)
  /-- R324 -/
  | teqi (rs : Reg) (imm : Half)
  /-- R325 -/
  | tge (rs rt : Reg) (code : BitVec 10)
  /-- R326 -/
  | tgei (rs : Reg) (imm : Half)
  /-- R327 -/
  | tgeiu (rs : Reg) (imm : Half)
  /-- R328 -/
  | tgeu (rs rt : Reg) (code : BitVec 10)
  /-- R329 -/
  | tlt (rs rt : Reg) (code : BitVec 10)
  /-- R330 -/
  | tlti (rs : Reg) (imm : Half)
  /-- R331 -/
  | tltiu (rs : Reg) (imm : Half)
  /-- R332 -/
  | tltu (rs rt : Reg) (code : BitVec 10)
  /-- R333 -/
  | tne (rs rt : Reg) (code : BitVec 10)
deriving DecidableEq, Repr

end Sys2Proof
end

