-- ==== Sys2Proof/WellFormed.lean ====
section
/-!
DEFINITION. Two checks on an instruction. `Instr.wellFormed`: the instruction is what its own word is read as (R112,
R113: the five alias rows are read as themselves, so the core row with their field values is not well formed).
`Instr.constraintsHold`: the constraints of R115 and R279 that the bit pattern cannot express.
-/

namespace Sys2Proof

/-- R113: SLL with the fields of NOP, SSNOP or EHB is written as that row. -/
def isSllIdiom (rd rt : Reg) (sa : BitVec 5) : Bool :=
  rd == 0#5 && rt == 0#5 && (sa == 0#5 || sa == 1#5 || sa == 3#5)

/-- R112, R113: the instruction's own word is read as this instruction. The five alias rows (B, BAL, NOP, SSNOP, EHB)
take the words they share with BEQ, BGEZAL and SLL (R120). -/
def Instr.wellFormed : Instr → Bool
  | .beq rs rt _ => !(rs == 0#5 && rt == 0#5)
  | .bgezal rs _ => !(rs == 0#5)
  | .sll rd rt sa => !(isSllIdiom rd rt sa)
  | .add .. | .addi .. | .addiu .. | .addu .. | .clo .. | .clz .. | .div .. | .divu .. | .madd .. | .maddu ..
  | .msub .. | .msubu .. | .mul .. | .mult .. | .multu .. | .seb .. | .seh .. | .slt .. | .slti .. | .sltiu ..
  | .sltu .. | .sub .. | .subu .. => true
  | .b .. | .bal .. | .bgez .. | .bgtz .. | .blez .. | .bltz .. | .bltzal .. | .bne .. | .j .. | .jal .. | .jalr ..
  | .jalrHb .. | .jr .. | .jrHb .. | .ehb | .nop | .ssnop => true
  | .lb .. | .lbu .. | .lh .. | .lhu .. | .ll .. | .lw .. | .lwl .. | .lwr .. | .pref .. | .sb .. | .sc .. | .sh ..
  | .sd .. | .sw .. | .swl .. | .swr .. | .sync .. | .synci .. => true
  | .and .. | .andi .. | .lui .. | .nor .. | .or .. | .ori .. | .xor .. | .xori .. | .ext .. | .ins .. | .wsbh .. => true
  | .movn .. | .movt .. | .movz .. | .mthi .. | .mtlo .. | .rdhwr .. => true
  | .rotr .. | .rotrv .. | .sllv .. | .sra .. | .srav .. | .srl .. | .srlv .. => true
  | .breakpoint .. | .syscall .. | .teq .. | .teqi .. | .tge .. | .tgei .. | .tgeiu .. | .tgeu .. | .tlt .. | .tlti ..
  | .tltiu .. | .tltu .. | .tne .. => true

/-- R115: the constraints on fields that the pattern cannot express. An instruction that breaks one decodes, and its
execution faults (R366). -/
def Instr.constraintsHold : Instr → Bool
  | .clo rd _ rt => rt == rd
  | .clz rd _ rt => rt == rd
  | .ext _ _ msbd lsb => decide (lsb.toNat + msbd.toNat ≤ 31)
  | .ins _ _ msb lsb => decide (lsb.toNat ≤ msb.toNat)
  | .jalr rd rs => !(rd == rs)
  | .jalrHb rd rs => !(rd == rs)
  | .bgezal rs _ => !(rs == 31#5)
  | .bltzal rs _ => !(rs == 31#5)
  | .add .. | .addi .. | .addiu .. | .addu .. | .div .. | .divu .. | .madd .. | .maddu .. | .msub .. | .msubu ..
  | .mul .. | .mult .. | .multu .. | .seb .. | .seh .. | .slt .. | .slti .. | .sltiu .. | .sltu .. | .sub ..
  | .subu .. => true
  | .b .. | .bal .. | .beq .. | .bgez .. | .bgtz .. | .blez .. | .bltz .. | .bne .. | .j .. | .jal .. | .jr ..
  | .jrHb .. | .ehb | .nop | .ssnop => true
  | .lb .. | .lbu .. | .lh .. | .lhu .. | .ll .. | .lw .. | .lwl .. | .lwr .. | .pref .. | .sb .. | .sc .. | .sh ..
  | .sd .. | .sw .. | .swl .. | .swr .. | .sync .. | .synci .. => true
  | .and .. | .andi .. | .lui .. | .nor .. | .or .. | .ori .. | .xor .. | .xori .. | .wsbh .. => true
  | .movn .. | .movt .. | .movz .. | .mthi .. | .mtlo .. | .rdhwr .. => true
  | .rotr .. | .rotrv .. | .sll .. | .sllv .. | .sra .. | .srav .. | .srl .. | .srlv .. => true
  | .breakpoint .. | .syscall .. | .teq .. | .teqi .. | .tge .. | .tgei .. | .tgeiu .. | .tgeu .. | .tlt .. | .tlti ..
  | .tltiu .. | .tltu .. | .tne .. => true

end Sys2Proof
end

