-- ==== Sys2Proof/Decode.lean ====
section
/-!
DEFINITION. Instruction words (30_encoding.md): the fields of a word (R101), the decoder (R108 to R117), total on every
word and on any list of bytes and rejecting by name, and the encoder written from the patterns of R112.
-/

namespace Sys2Proof

/-! ## Fields (R101) -/

/-- Bits 31:26, the major opcode. -/
def opcodeOf (w : Word) : BitVec 6 := w.extractLsb' 26 6

/-- Bits 25:21, `rs` or `base`. -/
def rsOf (w : Word) : BitVec 5 := w.extractLsb' 21 5

/-- Bits 20:16, `rt`, the REGIMM selector, or the `hint` of PREF. -/
def rtOf (w : Word) : BitVec 5 := w.extractLsb' 16 5

/-- Bits 15:11, `rd`, `msbd` or `msb`, or a hardware register number. -/
def rdOf (w : Word) : BitVec 5 := w.extractLsb' 11 5

/-- Bits 10:6, `sa`, `lsb`, `stype`, the `hint` of JR and JALR, or the BSHFL selector. -/
def saOf (w : Word) : BitVec 5 := w.extractLsb' 6 5

/-- Bits 5:0, the function. -/
def functOf (w : Word) : BitVec 6 := w.extractLsb' 0 6

/-- Bits 15:0, `immediate` or `offset`. -/
def immOf (w : Word) : Half := w.extractLsb' 0 16

/-- Bits 25:0, `instr_index`. -/
def indexOf (w : Word) : BitVec 26 := w.extractLsb' 0 26

/-- Bits 25:6, the `code` of BREAK and SYSCALL. -/
def codeOf (w : Word) : BitVec 20 := w.extractLsb' 6 20

/-- Bits 15:6, the `code` of the traps on registers. -/
def trapCodeOf (w : Word) : BitVec 10 := w.extractLsb' 6 10

/-- Bits 20:18, the `cc` of MOVT. -/
def ccOf (w : Word) : BitVec 3 := w.extractLsb' 18 3

/-- Bits 17:16, the fixed 0 and `tf` of MOVT. -/
def tfOf (w : Word) : BitVec 2 := w.extractLsb' 16 2

/-! ## Decoder -/

/-- Why a word is no instruction of the table. All but `truncated` are the unlisted words of R116. -/
inductive Rejection where
  /-- fewer than four bytes were given (R100) -/
  | truncated
  /-- no row has this major opcode (R108) -/
  | unlistedOpcode
  /-- no row has this function under SPECIAL (R109) -/
  | unlistedSpecial
  /-- no row has this selector under REGIMM (R111) -/
  | unlistedRegimm
  /-- no row has this function under SPECIAL2 (R110) -/
  | unlistedSpecial2
  /-- no row has this function under SPECIAL3 (R110) -/
  | unlistedSpecial3
  /-- no row has this selector under BSHFL (R110) -/
  | unlistedBshfl
  /-- a field drawn as fixed holds another value (R114, R117) -/
  | fixedFieldDiffers
deriving DecidableEq, Repr

/-- The instruction when its fixed fields are as drawn, else a rejection (R114). -/
def keepIf (fixed : Bool) (i : Instr) : Except Rejection Instr :=
  if fixed then .ok i else .error .fixedFieldDiffers

/-- Funct 000000: SLL and its idioms NOP, SSNOP and EHB (R112, R120). -/
def decodeSll (w : Word) : Except Rejection Instr :=
  if w = 0x00000000#32 then .ok .nop
  else if w = 0x00000040#32 then .ok .ssnop
  else if w = 0x000000C0#32 then .ok .ehb
  else keepIf (rsOf w == 0b00000#5) (.sll (rdOf w) (rtOf w) (saOf w))

/-- Funct 000010: SRL and ROTR share it, and bits 25:21 tell them apart (R106, R113). -/
def decodeSrl (w : Word) : Except Rejection Instr :=
  if rsOf w = 0b00000#5 then .ok (.srl (rdOf w) (rtOf w) (saOf w))
  else keepIf (rsOf w == 0b00001#5) (.rotr (rdOf w) (rtOf w) (saOf w))

/-- Funct 000110: SRLV and ROTRV share it, and bits 10:6 tell them apart (R106, R113). -/
def decodeSrlv (w : Word) : Except Rejection Instr :=
  if saOf w = 0b00000#5 then .ok (.srlv (rdOf w) (rtOf w) (rsOf w))
  else keepIf (saOf w == 0b00001#5) (.rotrv (rdOf w) (rtOf w) (rsOf w))

/-- Funct 001000: JR and JR.HB, by the hint at bits 10:6 (R117). -/
def decodeJr (w : Word) : Except Rejection Instr :=
  if saOf w = 0b00000#5 then keepIf (rtOf w == 0b00000#5 && rdOf w == 0b00000#5) (.jr (rsOf w))
  else keepIf (saOf w == 0b10000#5 && rtOf w == 0b00000#5 && rdOf w == 0b00000#5) (.jrHb (rsOf w))

/-- Funct 001001: JALR and JALR.HB, by the hint at bits 10:6 (R117). -/
def decodeJalr (w : Word) : Except Rejection Instr :=
  if saOf w = 0b00000#5 then keepIf (rtOf w == 0b00000#5) (.jalr (rdOf w) (rsOf w))
  else keepIf (saOf w == 0b10000#5 && rtOf w == 0b00000#5) (.jalrHb (rdOf w) (rsOf w))

/-- SPECIAL, by the function (R109). -/
def decodeSpecial (w : Word) : Except Rejection Instr :=
  let rs := rsOf w
  let rt := rtOf w
  let rd := rdOf w
  let sa := saOf w
  let fn := functOf w
  if fn = 0b000000#6 then decodeSll w
  else if fn = 0b000001#6 then keepIf (tfOf w == 0b01#2 && sa == 0b00000#5) (.movt rd rs (ccOf w))
  else if fn = 0b000010#6 then decodeSrl w
  else if fn = 0b000011#6 then keepIf (rs == 0b00000#5) (.sra rd rt sa)
  else if fn = 0b000100#6 then keepIf (sa == 0b00000#5) (.sllv rd rt rs)
  else if fn = 0b000110#6 then decodeSrlv w
  else if fn = 0b000111#6 then keepIf (sa == 0b00000#5) (.srav rd rt rs)
  else if fn = 0b001000#6 then decodeJr w
  else if fn = 0b001001#6 then decodeJalr w
  else if fn = 0b001010#6 then keepIf (sa == 0b00000#5) (.movz rd rs rt)
  else if fn = 0b001011#6 then keepIf (sa == 0b00000#5) (.movn rd rs rt)
  else if fn = 0b001100#6 then .ok (.syscall (codeOf w))
  else if fn = 0b001101#6 then .ok (.breakpoint (codeOf w))
  else if fn = 0b001111#6 then keepIf (rs == 0b00000#5 && rt == 0b00000#5 && rd == 0b00000#5) (.sync sa)
  else if fn = 0b010001#6 then keepIf (rt == 0b00000#5 && rd == 0b00000#5 && sa == 0b00000#5) (.mthi rs)
  else if fn = 0b010011#6 then keepIf (rt == 0b00000#5 && rd == 0b00000#5 && sa == 0b00000#5) (.mtlo rs)
  else if fn = 0b011000#6 then keepIf (rd == 0b00000#5 && sa == 0b00000#5) (.mult rs rt)
  else if fn = 0b011001#6 then keepIf (rd == 0b00000#5 && sa == 0b00000#5) (.multu rs rt)
  else if fn = 0b011010#6 then keepIf (rd == 0b00000#5 && sa == 0b00000#5) (.div rs rt)
  else if fn = 0b011011#6 then keepIf (rd == 0b00000#5 && sa == 0b00000#5) (.divu rs rt)
  else if fn = 0b100000#6 then keepIf (sa == 0b00000#5) (.add rd rs rt)
  else if fn = 0b100001#6 then keepIf (sa == 0b00000#5) (.addu rd rs rt)
  else if fn = 0b100010#6 then keepIf (sa == 0b00000#5) (.sub rd rs rt)
  else if fn = 0b100011#6 then keepIf (sa == 0b00000#5) (.subu rd rs rt)
  else if fn = 0b100100#6 then keepIf (sa == 0b00000#5) (.and rd rs rt)
  else if fn = 0b100101#6 then keepIf (sa == 0b00000#5) (.or rd rs rt)
  else if fn = 0b100110#6 then keepIf (sa == 0b00000#5) (.xor rd rs rt)
  else if fn = 0b100111#6 then keepIf (sa == 0b00000#5) (.nor rd rs rt)
  else if fn = 0b101010#6 then keepIf (sa == 0b00000#5) (.slt rd rs rt)
  else if fn = 0b101011#6 then keepIf (sa == 0b00000#5) (.sltu rd rs rt)
  else if fn = 0b110000#6 then .ok (.tge rs rt (trapCodeOf w))
  else if fn = 0b110001#6 then .ok (.tgeu rs rt (trapCodeOf w))
  else if fn = 0b110010#6 then .ok (.tlt rs rt (trapCodeOf w))
  else if fn = 0b110011#6 then .ok (.tltu rs rt (trapCodeOf w))
  else if fn = 0b110100#6 then .ok (.teq rs rt (trapCodeOf w))
  else if fn = 0b110110#6 then .ok (.tne rs rt (trapCodeOf w))
  else .error .unlistedSpecial

/-- REGIMM, by bits 20:16; BAL is BGEZAL with `rs` 0 (R111, R120). -/
def decodeRegimm (w : Word) : Except Rejection Instr :=
  let rs := rsOf w
  let imm := immOf w
  let sel := rtOf w
  if sel = 0b00000#5 then .ok (.bltz rs imm)
  else if sel = 0b00001#5 then .ok (.bgez rs imm)
  else if sel = 0b01000#5 then .ok (.tgei rs imm)
  else if sel = 0b01001#5 then .ok (.tgeiu rs imm)
  else if sel = 0b01010#5 then .ok (.tlti rs imm)
  else if sel = 0b01011#5 then .ok (.tltiu rs imm)
  else if sel = 0b01100#5 then .ok (.teqi rs imm)
  else if sel = 0b10000#5 then .ok (.bltzal rs imm)
  else if sel = 0b10001#5 then (if rs = 0b00000#5 then .ok (.bal imm) else .ok (.bgezal rs imm))
  else if sel = 0b11111#5 then .ok (.synci imm rs)
  else .error .unlistedRegimm

/-- SPECIAL2, by the function (R110). -/
def decodeSpecial2 (w : Word) : Except Rejection Instr :=
  let rs := rsOf w
  let rt := rtOf w
  let rd := rdOf w
  let sa := saOf w
  let fn := functOf w
  if fn = 0b000000#6 then keepIf (rd == 0b00000#5 && sa == 0b00000#5) (.madd rs rt)
  else if fn = 0b000001#6 then keepIf (rd == 0b00000#5 && sa == 0b00000#5) (.maddu rs rt)
  else if fn = 0b000010#6 then keepIf (sa == 0b00000#5) (.mul rd rs rt)
  else if fn = 0b000100#6 then keepIf (rd == 0b00000#5 && sa == 0b00000#5) (.msub rs rt)
  else if fn = 0b000101#6 then keepIf (rd == 0b00000#5 && sa == 0b00000#5) (.msubu rs rt)
  else if fn = 0b100000#6 then keepIf (sa == 0b00000#5) (.clz rd rs rt)
  else if fn = 0b100001#6 then keepIf (sa == 0b00000#5) (.clo rd rs rt)
  else .error .unlistedSpecial2

/-- BSHFL under SPECIAL3, by bits 10:6 (R110). -/
def decodeBshfl (w : Word) : Except Rejection Instr :=
  let rs := rsOf w
  let rt := rtOf w
  let rd := rdOf w
  let sel := saOf w
  if sel = 0b00010#5 then keepIf (rs == 0b00000#5) (.wsbh rd rt)
  else if sel = 0b10000#5 then keepIf (rs == 0b00000#5) (.seb rd rt)
  else if sel = 0b11000#5 then keepIf (rs == 0b00000#5) (.seh rd rt)
  else .error .unlistedBshfl

/-- SPECIAL3, by the function (R110). -/
def decodeSpecial3 (w : Word) : Except Rejection Instr :=
  let rs := rsOf w
  let rt := rtOf w
  let rd := rdOf w
  let sa := saOf w
  let fn := functOf w
  if fn = 0b000000#6 then .ok (.ext rt rs rd sa)
  else if fn = 0b000100#6 then .ok (.ins rt rs rd sa)
  else if fn = 0b100000#6 then decodeBshfl w
  else if fn = 0b111011#6 then keepIf (rs == 0b00000#5 && sa == 0b00000#5) (.rdhwr rt rd)
  else .error .unlistedSpecial3

/-- The instruction a word is, by R108 to R117, or the name of the reason why it is none. The aliases B, BAL, NOP,
SSNOP and EHB are tested before the rows that hold their words (R112). -/
def decode (w : Word) : Except Rejection Instr :=
  let rs := rsOf w
  let rt := rtOf w
  let imm := immOf w
  let op := opcodeOf w
  if op = 0b000000#6 then decodeSpecial w
  else if op = 0b000001#6 then decodeRegimm w
  else if op = 0b000010#6 then .ok (.j (indexOf w))
  else if op = 0b000011#6 then .ok (.jal (indexOf w))
  else if op = 0b000100#6 then (if rs = 0b00000#5 ∧ rt = 0b00000#5 then .ok (.b imm) else .ok (.beq rs rt imm))
  else if op = 0b000101#6 then .ok (.bne rs rt imm)
  else if op = 0b000110#6 then keepIf (rt == 0b00000#5) (.blez rs imm)
  else if op = 0b000111#6 then keepIf (rt == 0b00000#5) (.bgtz rs imm)
  else if op = 0b001000#6 then .ok (.addi rt rs imm)
  else if op = 0b001001#6 then .ok (.addiu rt rs imm)
  else if op = 0b001010#6 then .ok (.slti rt rs imm)
  else if op = 0b001011#6 then .ok (.sltiu rt rs imm)
  else if op = 0b001100#6 then .ok (.andi rt rs imm)
  else if op = 0b001101#6 then .ok (.ori rt rs imm)
  else if op = 0b001110#6 then .ok (.xori rt rs imm)
  else if op = 0b001111#6 then keepIf (rs == 0b00000#5) (.lui rt imm)
  else if op = 0b011100#6 then decodeSpecial2 w
  else if op = 0b011111#6 then decodeSpecial3 w
  else if op = 0b100000#6 then .ok (.lb rt imm rs)
  else if op = 0b100001#6 then .ok (.lh rt imm rs)
  else if op = 0b100010#6 then .ok (.lwl rt imm rs)
  else if op = 0b100011#6 then .ok (.lw rt imm rs)
  else if op = 0b100100#6 then .ok (.lbu rt imm rs)
  else if op = 0b100101#6 then .ok (.lhu rt imm rs)
  else if op = 0b100110#6 then .ok (.lwr rt imm rs)
  else if op = 0b101000#6 then .ok (.sb rt imm rs)
  else if op = 0b101001#6 then .ok (.sh rt imm rs)
  else if op = 0b101010#6 then .ok (.swl rt imm rs)
  else if op = 0b101011#6 then .ok (.sw rt imm rs)
  else if op = 0b101110#6 then .ok (.swr rt imm rs)
  else if op = 0b110000#6 then .ok (.ll rt imm rs)
  else if op = 0b110011#6 then .ok (.pref rt imm rs)
  else if op = 0b111000#6 then .ok (.sc rt imm rs)
  else if op = 0b111111#6 then .ok (.sd rt imm rs)
  else .error .unlistedOpcode

/-- The instruction that starts a list of bytes in the order of their addresses, with the bytes that follow it
(R62, R100). -/
def decodeBytes (e : Endian) : List Byte → Except Rejection (Instr × List Byte)
  | b0 :: b1 :: b2 :: b3 :: rest => (decode (joinWord e b0 b1 b2 b3)).map (·, rest)
  | _ => .error .truncated

/-! ## Encoder -/

/-- `opcode rs rt rd sa funct` (R102). -/
def encodeR (op : BitVec 6) (rs rt rd sa : BitVec 5) (fn : BitVec 6) : Word :=
  op ++ rs ++ rt ++ rd ++ sa ++ fn

/-- `opcode rs rt immediate` (R103, R105). -/
def encodeI (op : BitVec 6) (rs rt : BitVec 5) (imm : Half) : Word :=
  op ++ rs ++ rt ++ imm

/-- `opcode instr_index` (R104). -/
def encodeJ (op : BitVec 6) (index : BitVec 26) : Word :=
  op ++ index

/-- `SPECIAL code funct` (R106, BREAK and SYSCALL). -/
def encodeCode (code : BitVec 20) (fn : BitVec 6) : Word :=
  0b000000#6 ++ code ++ fn

/-- `SPECIAL rs rt code funct` (R106, the traps on registers). -/
def encodeTrap (rs rt : BitVec 5) (code : BitVec 10) (fn : BitVec 6) : Word :=
  0b000000#6 ++ rs ++ rt ++ code ++ fn

/-- `SPECIAL rs cc 0 tf rd 0 funct` (R106, MOVT). -/
def encodeCc (rs : BitVec 5) (cc : BitVec 3) (rd : BitVec 5) : Word :=
  0b000000#6 ++ rs ++ cc ++ 0b0#1 ++ 0b1#1 ++ rd ++ 0b00000#5 ++ 0b000001#6

/-- The word of an instruction, from the patterns of R112. -/
def encode : Instr → Word
  | .add rd rs rt => encodeR 0b000000#6 rs rt rd 0b00000#5 0b100000#6
  | .addi rt rs imm => encodeI 0b001000#6 rs rt imm
  | .addiu rt rs imm => encodeI 0b001001#6 rs rt imm
  | .addu rd rs rt => encodeR 0b000000#6 rs rt rd 0b00000#5 0b100001#6
  | .clo rd rs rt => encodeR 0b011100#6 rs rt rd 0b00000#5 0b100001#6
  | .clz rd rs rt => encodeR 0b011100#6 rs rt rd 0b00000#5 0b100000#6
  | .div rs rt => encodeR 0b000000#6 rs rt 0b00000#5 0b00000#5 0b011010#6
  | .divu rs rt => encodeR 0b000000#6 rs rt 0b00000#5 0b00000#5 0b011011#6
  | .madd rs rt => encodeR 0b011100#6 rs rt 0b00000#5 0b00000#5 0b000000#6
  | .maddu rs rt => encodeR 0b011100#6 rs rt 0b00000#5 0b00000#5 0b000001#6
  | .msub rs rt => encodeR 0b011100#6 rs rt 0b00000#5 0b00000#5 0b000100#6
  | .msubu rs rt => encodeR 0b011100#6 rs rt 0b00000#5 0b00000#5 0b000101#6
  | .mul rd rs rt => encodeR 0b011100#6 rs rt rd 0b00000#5 0b000010#6
  | .mult rs rt => encodeR 0b000000#6 rs rt 0b00000#5 0b00000#5 0b011000#6
  | .multu rs rt => encodeR 0b000000#6 rs rt 0b00000#5 0b00000#5 0b011001#6
  | .seb rd rt => encodeR 0b011111#6 0b00000#5 rt rd 0b10000#5 0b100000#6
  | .seh rd rt => encodeR 0b011111#6 0b00000#5 rt rd 0b11000#5 0b100000#6
  | .slt rd rs rt => encodeR 0b000000#6 rs rt rd 0b00000#5 0b101010#6
  | .slti rt rs imm => encodeI 0b001010#6 rs rt imm
  | .sltiu rt rs imm => encodeI 0b001011#6 rs rt imm
  | .sltu rd rs rt => encodeR 0b000000#6 rs rt rd 0b00000#5 0b101011#6
  | .sub rd rs rt => encodeR 0b000000#6 rs rt rd 0b00000#5 0b100010#6
  | .subu rd rs rt => encodeR 0b000000#6 rs rt rd 0b00000#5 0b100011#6
  | .b off => encodeI 0b000100#6 0b00000#5 0b00000#5 off
  | .bal off => encodeI 0b000001#6 0b00000#5 0b10001#5 off
  | .beq rs rt off => encodeI 0b000100#6 rs rt off
  | .bgez rs off => encodeI 0b000001#6 rs 0b00001#5 off
  | .bgezal rs off => encodeI 0b000001#6 rs 0b10001#5 off
  | .bgtz rs off => encodeI 0b000111#6 rs 0b00000#5 off
  | .blez rs off => encodeI 0b000110#6 rs 0b00000#5 off
  | .bltz rs off => encodeI 0b000001#6 rs 0b00000#5 off
  | .bltzal rs off => encodeI 0b000001#6 rs 0b10000#5 off
  | .bne rs rt off => encodeI 0b000101#6 rs rt off
  | .j index => encodeJ 0b000010#6 index
  | .jal index => encodeJ 0b000011#6 index
  | .jalr rd rs => encodeR 0b000000#6 rs 0b00000#5 rd 0b00000#5 0b001001#6
  | .jalrHb rd rs => encodeR 0b000000#6 rs 0b00000#5 rd 0b10000#5 0b001001#6
  | .jr rs => encodeR 0b000000#6 rs 0b00000#5 0b00000#5 0b00000#5 0b001000#6
  | .jrHb rs => encodeR 0b000000#6 rs 0b00000#5 0b00000#5 0b10000#5 0b001000#6
  | .ehb => encodeR 0b000000#6 0b00000#5 0b00000#5 0b00000#5 0b00011#5 0b000000#6
  | .nop => encodeR 0b000000#6 0b00000#5 0b00000#5 0b00000#5 0b00000#5 0b000000#6
  | .ssnop => encodeR 0b000000#6 0b00000#5 0b00000#5 0b00000#5 0b00001#5 0b000000#6
  | .lb rt off base => encodeI 0b100000#6 base rt off
  | .lbu rt off base => encodeI 0b100100#6 base rt off
  | .lh rt off base => encodeI 0b100001#6 base rt off
  | .lhu rt off base => encodeI 0b100101#6 base rt off
  | .ll rt off base => encodeI 0b110000#6 base rt off
  | .lw rt off base => encodeI 0b100011#6 base rt off
  | .lwl rt off base => encodeI 0b100010#6 base rt off
  | .lwr rt off base => encodeI 0b100110#6 base rt off
  | .pref hint off base => encodeI 0b110011#6 base hint off
  | .sb rt off base => encodeI 0b101000#6 base rt off
  | .sc rt off base => encodeI 0b111000#6 base rt off
  | .sh rt off base => encodeI 0b101001#6 base rt off
  | .sd rt off base => encodeI 0b111111#6 base rt off
  | .sw rt off base => encodeI 0b101011#6 base rt off
  | .swl rt off base => encodeI 0b101010#6 base rt off
  | .swr rt off base => encodeI 0b101110#6 base rt off
  | .sync stype => encodeR 0b000000#6 0b00000#5 0b00000#5 0b00000#5 stype 0b001111#6
  | .synci off base => encodeI 0b000001#6 base 0b11111#5 off
  | .and rd rs rt => encodeR 0b000000#6 rs rt rd 0b00000#5 0b100100#6
  | .andi rt rs imm => encodeI 0b001100#6 rs rt imm
  | .lui rt imm => encodeI 0b001111#6 0b00000#5 rt imm
  | .nor rd rs rt => encodeR 0b000000#6 rs rt rd 0b00000#5 0b100111#6
  | .or rd rs rt => encodeR 0b000000#6 rs rt rd 0b00000#5 0b100101#6
  | .ori rt rs imm => encodeI 0b001101#6 rs rt imm
  | .xor rd rs rt => encodeR 0b000000#6 rs rt rd 0b00000#5 0b100110#6
  | .xori rt rs imm => encodeI 0b001110#6 rs rt imm
  | .ext rt rs msbd lsb => encodeR 0b011111#6 rs rt msbd lsb 0b000000#6
  | .ins rt rs msb lsb => encodeR 0b011111#6 rs rt msb lsb 0b000100#6
  | .wsbh rd rt => encodeR 0b011111#6 0b00000#5 rt rd 0b00010#5 0b100000#6
  | .movn rd rs rt => encodeR 0b000000#6 rs rt rd 0b00000#5 0b001011#6
  | .movt rd rs cc => encodeCc rs cc rd
  | .movz rd rs rt => encodeR 0b000000#6 rs rt rd 0b00000#5 0b001010#6
  | .mthi rs => encodeR 0b000000#6 rs 0b00000#5 0b00000#5 0b00000#5 0b010001#6
  | .mtlo rs => encodeR 0b000000#6 rs 0b00000#5 0b00000#5 0b00000#5 0b010011#6
  | .rdhwr rt hwr => encodeR 0b011111#6 0b00000#5 rt hwr 0b00000#5 0b111011#6
  | .rotr rd rt sa => encodeR 0b000000#6 0b00001#5 rt rd sa 0b000010#6
  | .rotrv rd rt rs => encodeR 0b000000#6 rs rt rd 0b00001#5 0b000110#6
  | .sll rd rt sa => encodeR 0b000000#6 0b00000#5 rt rd sa 0b000000#6
  | .sllv rd rt rs => encodeR 0b000000#6 rs rt rd 0b00000#5 0b000100#6
  | .sra rd rt sa => encodeR 0b000000#6 0b00000#5 rt rd sa 0b000011#6
  | .srav rd rt rs => encodeR 0b000000#6 rs rt rd 0b00000#5 0b000111#6
  | .srl rd rt sa => encodeR 0b000000#6 0b00000#5 rt rd sa 0b000010#6
  | .srlv rd rt rs => encodeR 0b000000#6 rs rt rd 0b00000#5 0b000110#6
  | .breakpoint code => encodeCode code 0b001101#6
  | .syscall code => encodeCode code 0b001100#6
  | .teq rs rt code => encodeTrap rs rt code 0b110100#6
  | .teqi rs imm => encodeI 0b000001#6 rs 0b01100#5 imm
  | .tge rs rt code => encodeTrap rs rt code 0b110000#6
  | .tgei rs imm => encodeI 0b000001#6 rs 0b01000#5 imm
  | .tgeiu rs imm => encodeI 0b000001#6 rs 0b01001#5 imm
  | .tgeu rs rt code => encodeTrap rs rt code 0b110001#6
  | .tlt rs rt code => encodeTrap rs rt code 0b110010#6
  | .tlti rs imm => encodeI 0b000001#6 rs 0b01010#5 imm
  | .tltiu rs imm => encodeI 0b000001#6 rs 0b01011#5 imm
  | .tltu rs rt code => encodeTrap rs rt code 0b110011#6
  | .tne rs rt code => encodeTrap rs rt code 0b110110#6

/-! ## The host's question -/

/-- The word a table word stands for: the low `nbits` bits, every bit above them 0. -/
def tableWord (nbits w : Nat) : Word := BitVec.ofNat 32 (w % 2 ^ nbits)

/-- The instruction the decoder reads from the bytes of a table word, stored as the hardware stores them at reset
(`ENDIAN` of the reset parameters). -/
def decodeTableWord (nbits w : Nat) : Option Instr :=
  match decodeBytes Config.resetParams.endian (splitWord Config.resetParams.endian (tableWord nbits w)) with
  | .ok (i, _) => some i
  | .error _   => none

end Sys2Proof
end

