-- ==== Sys2Proof/Machine/State.lean ====
section
/-!
DEFINITION. The state of the machine as plain data (10_state.md), the record of an exception (60_exceptions.md R354,
R356), the reasons a step has no next state (R366), and the state after reset (R45).
-/

namespace Sys2Proof.Machine

/-- Memory: the bytes that differ from `Config.unlistedByte`, by rising address (R41, R60, log 9). -/
abbrev Memory := List Host.Cell

/-- The canonical form of memory: addresses of the 2^32-byte space, strictly rising, and no entry equal to what an
unlisted address reads as. -/
def Memory.wf : Memory → Bool
  | [] => true
  | (a, b) :: m => decide (a < 2 ^ 32) && b != Config.unlistedByte && m.all (fun c => decide (a < c.1)) && Memory.wf m

/-- The exceptions, by name (R354). `AddressError` has one name for each of its three kinds (R352). -/
inductive Cause where
  | addressErrorFetch
  | addressErrorLoad
  | addressErrorStore
  | systemCall
  | breakpoint
  | reservedInstruction
  | integerOverflow
  | trap
deriving DecidableEq, Repr

/-- Which of the four situations of R353 raised `ReservedInstruction`. -/
inductive Why where
  | unlisted
  | sd
  | noCc
  | hwrDisabled
deriving DecidableEq, Repr

/-- The outcome `Trapped` of R356, but for its `state`, which is the state that holds this record. -/
structure Trapped where
  cause    : Cause
  /-- for `ReservedInstruction` only -/
  why      : Option Why
  epc      : Word
  bd       : Bool
  /-- for `AddressError` only: the misaligned address -/
  badvaddr : Option Word
deriving DecidableEq, Repr

/-- Why a step stops with no claim about the hardware (R366: *fault* and *stuck*). -/
inductive Fault where
  /-- Raised by every branch and jump in a delay slot (R181, UNPREDICTABLE). Safe: the run proves nothing. -/
  | branchInDelaySlot
  /-- Raised by JALR and JALR.HB with `rd = rs`, and by BGEZAL and BLTZAL with `rs = 31` (R189, R193, R197, R198,
  UNPREDICTABLE). Safe. -/
  | linkRegisterIsSource
  /-- Raised by CLO and CLZ with `rt /= rd` (R145, R146, UNPREDICTABLE). Safe. -/
  | countRegistersDiffer
  /-- Raised by EXT with `lsb + msbd > 31` and INS with `lsb > msb` (R280, R281, UNPREDICTABLE). Safe. -/
  | bitFieldOutOfRange
  /-- Raised by SC with a reservation for another address (R231, UNPREDICTABLE). Safe. -/
  | scAddressMismatch
  /-- Raised by the fetch of a word that a store has written (R75). Safe. -/
  | staleFetch (addr : Word)
  /-- Stuck: `MEMMAP` does not admit the fetch at `addr` (R42, R66). Safe. -/
  | fetchNotAdmitted (addr : Word)
  /-- Stuck: `MEMMAP` does not admit the load whose lowest byte is `addr` (R66). Safe. -/
  | loadNotAdmitted (addr : Word)
  /-- Stuck: `MEMMAP` does not admit the store whose lowest byte is `addr` (R66). Safe. -/
  | storeNotAdmitted (addr : Word)
  /-- Stuck: the byte of a SYNCI is not in `MEMMAP` (R238). Safe. -/
  | synciNotAdmitted (addr : Word)
  /-- Raised by a step from a state whose run has ended in `Trapped` (R42, R356). Safe. -/
  | runEnded
deriving DecidableEq, Repr

/-- The refusals: an instruction to which the spec gives no meaning. Each carries the outcome `Trapped` that R353
gives it, with its `why`; the run proves nothing (R366). -/
inductive Refusal where
  /-- Raised by `exec` for an instruction with no meaning in the model. Safe. -/
  | notModelled (mnemonic : String)
  /-- Raised by the fetch of a word no row of R112 matches (R116, R353(a)); `reason` says which field gave it away.
  Safe. -/
  | unlistedWord (reason : Rejection) (record : Trapped)
  /-- Raised by SD, a 64-bit store (R233, R353(b)). Safe. -/
  | storeDoubleword (record : Trapped)
  /-- Raised by MOVT where the condition codes do not exist (R291, R353(c)). Safe. -/
  | noConditionCodes (record : Trapped)
deriving DecidableEq, Repr

/-- The state. Fields other than `params` and `draws` are the spec's (10_state.md); `params` holds the parameters of
R5, which no step changes (log 1); `draws` is the model's own count of the free values taken (log 10). -/
structure State where
  /-- x[0..31] (R30); register 0 is read and written through `readReg` and `writeReg` only (R31). -/
  regs    : Vector Word 32
  /-- HI (R33) -/
  hi      : Word
  /-- LO (R33) -/
  lo      : Word
  /-- pc: the address of the instruction to execute (R34) -/
  pc      : Word
  /-- npc: the address of the instruction after it; used when `DELAY_SLOTS` (R34, R35) -/
  npc     : Word
  /-- ds: the instruction at pc is in a delay slot; used when `DELAY_SLOTS` (R34, R35) -/
  ds      : Bool
  /-- CC[0..7]: bit `n` is CC[n] (R37) -/
  cc      : BitVec 8
  /-- LLbit (R38) -/
  llbit   : Bool
  /-- LLaddr (R38) -/
  lladdr  : Word
  /-- stale: the addresses of the aligned words a store has written, rising (R39, log 17) -/
  stale   : List Nat
  /-- memory (R41) -/
  mem     : Memory
  /-- the terminal outcome, once an exception has produced one (R42, R356, log 11) -/
  outcome : Option Trapped
  /-- the parameters (R5, log 1) -/
  params  : Params
  /-- how many free values have been taken (log 10) -/
  draws   : Nat
deriving DecidableEq, Repr

/-- What a meaning answers. -/
abbrev Result := Host.Outcome State Fault Refusal

/-- The state after reset (R45, R391). Fixed by the spec: x[0], npc, ds, LLbit, stale. DESIGN CHOICE: the other
registers and CC zero (logs 5, 7, 8), memory (log 9), `draws` (log 10), the parameters (logs 2, 3, 5, 6).
PRESUMED: the reset pc (log 4). -/
def State.reset : State where
  regs    := Vector.replicate 32 0#32
  hi      := 0#32
  lo      := 0#32
  pc      := Config.resetPc
  npc     := Config.resetPc + 4#32
  ds      := false
  cc      := 0#8
  llbit   := false
  lladdr  := 0#32
  stale   := []
  mem     := []
  outcome := none
  params  := Config.resetParams
  draws   := 0

end Sys2Proof.Machine
end

