-- ==== Sys2Proof/Machine/Ops.lean ====
section
/-!
DEFINITION. The named operations every meaning is made of: registers (R31), memory bytes and their canonical form
(R60, R61), the stale set (R39), admission (R66), the program counter (R35, R180), free values (R9), and taking an
exception (R356).
-/

namespace Sys2Proof.Machine

/-! ## General registers (R30, R31) -/

/-- `x[r]`: register 0 reads as zero (R31). -/
def readReg (s : State) (r : Reg) : Word :=
  if r = 0#5 then 0#32 else s.regs[r.toNat]'r.isLt

/-- `x[r] <- v`: a write of register 0 is discarded (R31). -/
def writeReg (s : State) (r : Reg) (v : Word) : State :=
  if r = 0#5 then s else { s with regs := s.regs.set r.toNat v r.isLt }

/-! ## HI and LO (R33) -/

/-- `HI || LO` (R33). -/
def readAcc (s : State) : BitVec 64 := s.hi ++ s.lo

/-- `HI <- v[63:32]; LO <- v[31:0]` (R149). -/
def writeAcc (s : State) (v : BitVec 64) : State :=
  { s with hi := v.extractLsb' 32 32, lo := v.extractLsb' 0 32 }

/-! ## Condition codes (R37) -/

/-- `CC[n]` (R37). -/
def readCc (s : State) (n : BitVec 3) : Bool := s.cc.getLsbD n.toNat

/-! ## Memory bytes (R41, R60) -/

/-- The byte a memory holds at an address. -/
def readByte (a : Nat) : Memory → Byte
  | [] => Config.unlistedByte
  | (a', b') :: m => if a = a' then b' else readByte a m

/-- A memory with one byte written, in canonical form: a byte equal to what an unlisted address reads as is not
listed. -/
def writeByte (a : Nat) (b : Byte) : Memory → Memory
  | [] => if b = Config.unlistedByte then [] else [(a, b)]
  | (a', b') :: m =>
    if a < a' then (if b = Config.unlistedByte then (a', b') :: m else (a, b) :: (a', b') :: m)
    else if a = a' then (if b = Config.unlistedByte then m else (a, b) :: m)
    else (a', b') :: writeByte a b m

/-- `MemByte(a)` (R9, R61). -/
def memByte (s : State) (a : Word) : Byte := readByte a.toNat s.mem

/-- `MemRead(a, 2)` without its checks (R61). -/
def memHalf (s : State) (a : Word) : Half :=
  joinHalf s.params.endian (memByte s a) (memByte s (a + 1#32))

/-- `MemRead(a, 4)` without its checks (R61). -/
def memWord (s : State) (a : Word) : Word :=
  joinWord s.params.endian (memByte s a) (memByte s (a + 1#32)) (memByte s (a + 2#32)) (memByte s (a + 3#32))

/-- The address of the aligned word that holds a byte: `a & ~3` (R42, R227). -/
def wordAddr (a : Word) : Word := a &&& 0xFFFFFFFC#32

/-- The offset of a byte in its aligned word: `a[1:0]` (R227). -/
def byteInWord (a : Word) : Nat := a.toNat % 4

/-- A rising list of addresses with one more in it (R39). -/
def insertAddr (n : Nat) : List Nat → List Nat
  | [] => [n]
  | m :: l => if n < m then n :: m :: l else if n = m then m :: l else m :: insertAddr n l

/-- A rising list of addresses without one of them. -/
def removeAddr (n : Nat) : List Nat → List Nat
  | [] => []
  | m :: l => if n = m then removeAddr n l else m :: removeAddr n l

/-- `MemByte(a) <- b`, with the aligned word that holds `a` made stale (R39, R75, R220). -/
def storeByte (s : State) (a : Word) (b : Byte) : State :=
  { s with mem := writeByte a.toNat b s.mem, stale := insertAddr (wordAddr a).toNat s.stale }

/-- `MemWrite` without its checks: bytes stored at rising addresses from `a` (R61). -/
def storeBytes (s : State) (a : Word) : List Byte → State
  | [] => s
  | b :: bs => storeBytes (storeByte s a b) (a + 1#32) bs

/-- Bytes placed in memory from outside the machine: no store, so nothing becomes stale (R390, log 15). -/
def placeBytes (s : State) (a : Word) : List Byte → State
  | [] => s
  | b :: bs => placeBytes { s with mem := writeByte a.toNat b s.mem } (a + 1#32) bs

/-! ## Admission (R66) -/

/-- The marks of `MEMMAP` (R66). -/
inductive Access where
  | read
  | write
  | exec
deriving DecidableEq, Repr

/-- The region lists this byte address. -/
def regionHolds (r : Region) (a : Nat) : Bool := decide (r.base ≤ a) && decide (a < r.base + r.size)

/-- The region has this mark. -/
def regionMarked (r : Region) : Access → Bool
  | .read  => r.read
  | .write => r.write
  | .exec  => r.exec

/-- `MEMMAP` lists the byte with the mark (R66). The address is used as it was computed: the model's claims are for runs in
which `MEMMAP` maps every address the program uses one-to-one (R70, log 24). -/
def admits (s : State) (k : Access) (a : Word) : Bool :=
  s.params.memmap.any (fun r => regionHolds r a.toNat && regionMarked r k)

/-- `MEMMAP` lists the byte, with any mark (R66, R238). DESIGN CHOICE: a region with none of the three marks lists its bytes
too, which the spec leaves open (log 23, unsafe). -/
def present (s : State) (a : Word) : Bool :=
  s.params.memmap.any (fun r => regionHolds r a.toNat)

/-- Every one of `n` bytes from `a` is in `MEMMAP` with the mark (R66). -/
def admitsAll (s : State) (k : Access) (a : Word) : Nat → Bool
  | 0 => true
  | n + 1 => admits s k a && admitsAll s k (a + 1#32) n

/-! ## Program counter (R35, R180, R184) -/

/-- The advance of an instruction that transfers no control (R35). -/
def advance (s : State) : State :=
  if s.params.delaySlots then { s with pc := s.npc, npc := s.npc + 4#32, ds := false }
  else { s with pc := s.pc + 4#32 }

/-- The advance of a branch or jump, taken to `target` or not (R35, R180). -/
def transfer (s : State) (taken : Bool) (target : Word) : State :=
  if s.params.delaySlots then { s with pc := s.npc, npc := if taken then target else s.npc + 4#32, ds := true }
  else { s with pc := if taken then target else s.pc + 4#32 }

/-- The link value of the instruction at pc (R184). -/
def linkValue (s : State) : Word :=
  if s.params.delaySlots then s.pc + 8#32 else s.pc + 4#32

/-- The instruction at pc stands in a delay slot (R34, R181). -/
def inDelaySlot (s : State) : Bool := s.params.delaySlots && s.ds

/-! ## Free values (`draw(n)` of R9, log 10) -/

/-- `draw(32)`: a value nothing fixes, and the state that has taken it. -/
def drawWord (s : State) : Word × State :=
  (Config.drawWord s.draws, { s with draws := s.draws + 1 })

/-- `draw(1)`: a bit nothing fixes, and the state that has taken it. -/
def drawBit (s : State) : Bool × State :=
  (Config.drawBit s.draws, { s with draws := s.draws + 1 })

/-- `LO <- draw(32); HI <- draw(32)` (R147, R148, R153). -/
def drawAcc (s : State) : State :=
  let (l, s1) := drawWord s
  let (h, s2) := drawWord s1
  { s2 with lo := l, hi := h }

/-! ## Taking an exception (R356), and the host's continuation (R358) -/

/-- The record of `Trapped`: `epc` and `bd` name the branch before the instruction when it stands in a delay slot
(R356). -/
def trapRecord (s : State) (cause : Cause) (why : Option Why) (badvaddr : Option Word) : Trapped where
  cause    := cause
  why      := why
  epc      := if inDelaySlot s then s.pc - 4#32 else s.pc
  bd       := inDelaySlot s
  badvaddr := badvaddr

/-- `raise`: the outcome `Trapped` is produced and nothing else changes, pc included (R356, R357). No step goes on
from the state that holds it. -/
def takeException (s : State) (cause : Cause) (why : Option Why) (badvaddr : Option Word) : Result :=
  .next { s with outcome := some (trapRecord s cause why badvaddr) }

/-- `raise AddressError(kind, badvaddr)` (R352). -/
def raiseAddressError (s : State) (cause : Cause) (badvaddr : Word) : Result :=
  takeException s cause none (some badvaddr)

/-- The return from an exception: the spec has no such instruction; a host outside the machine that has serviced the
outcome goes on at `epc + 4` when `bd = 0`, and must settle the other case itself (R358). DESIGN CHOICE: LLbit, LLaddr and the
stale set stay as they are, where R358 names pc, npc and ds only and R391 starts a run with LLbit 0 and nothing stale (log 20,
unsafe). No step uses this. -/
def State.hostResume (s : State) : Option State :=
  match s.outcome with
  | none   => none
  | some t =>
    if t.bd then none
    else some { s with pc := t.epc + 4#32, npc := t.epc + 8#32, ds := false, outcome := none }

/-! ## Shapes of a meaning -/

/-- The instruction completes in `s`, and pc advances (R35). -/
def complete (s : State) : Result := .next (advance s)

/-- `x[r] <- v`, and the instruction completes (R31, R35). -/
def completeReg (s : State) (r : Reg) (v : Word) : Result := complete (writeReg s r v)

/-- A branch or jump: it faults in a delay slot, before its own rule is looked at (R42 step 6, R181). -/
def controlTransfer (s : State) (k : Result) : Result :=
  if inDelaySlot s then .fault .branchInDelaySlot else k

/-- A load of `n` bytes at `ea`: alignment, then admission, then the access (R64, R66, R220). -/
def checkedLoad (s : State) (ea : Word) (n : Nat) (k : Result) : Result :=
  if ea.toNat % n ≠ 0 then raiseAddressError s .addressErrorLoad ea
  else if admitsAll s .read ea n then k
  else .fault (.loadNotAdmitted ea)

/-- A store of `n` bytes at `ea`: alignment, then admission, then the access (R64, R66, R220). -/
def checkedStore (s : State) (ea : Word) (n : Nat) (k : Result) : Result :=
  if ea.toNat % n ≠ 0 then raiseAddressError s .addressErrorStore ea
  else if admitsAll s .write ea n then k
  else .fault (.storeNotAdmitted ea)

end Sys2Proof.Machine
end

