-- ==== Sys2Proof/Machine/Operands.lean ====
section
/-!
DEFINITION. Every operand form of 30_encoding.md R107: the immediates, the branch and jump targets (R182, R183), the
effective address (R220), the shift amounts (R299) and the bit-field masks (R280, R281).
-/

namespace Sys2Proof.Machine

/-- `sext_32(immediate)`: the arithmetic and trap immediates and the address offset (R107). -/
def sextImm (imm : Half) : Word := imm.signExtend 32

/-- `zext_32(immediate)`: the logical immediates (R107). -/
def zextImm (imm : Half) : Word := imm.setWidth 32

/-- `immediate || 0^16`: the upper immediate (R107). -/
def upperImm (imm : Half) : Word := imm ++ 0#16

/-- `sext_32(offset || 00)`: the branch offset, 18 bits signed (R107). -/
def branchOffset (off : Half) : Word := (off ++ 0b00#2).signExtend 32

/-- The target of a branch: `((pc + 4) + sext_32(offset || 00)) mod 2^32` (R182). -/
def branchTarget (s : State) (off : Half) : Word := (s.pc + 4#32) + branchOffset off

/-- The target of J and JAL: `(pc + 4)[31:28] || instr_index || 00` (R183). -/
def jumpTarget (s : State) (index : BitVec 26) : Word := (s.pc + 4#32).extractLsb' 28 4 ++ index ++ 0b00#2

/-- `EA = (x[base] + sext_32(offset)) mod 2^32` (R220), used untranslated (R70, log 24). -/
def effectiveAddr (s : State) (off : Half) (base : Reg) : Word := readReg s base + sextImm off

/-- The shift amount of the variable forms, `x[rs][4:0]` (R299). -/
def variableAmount (s : State) (rs : Reg) : BitVec 5 := (readReg s rs).extractLsb' 0 5

/-- `2^n - 1` as a word: the mask of the low `n` bits (R280, R281). -/
def lowMask (n : Nat) : Word := BitVec.ofNat 32 (2 ^ n - 1)

end Sys2Proof.Machine
end

