-- ==== Sys2Proof/Machine/Arith.lean ====
section
/-!
DEFINITION. The arithmetic instructions (40_arithmetic.md R141 to R163), one definition each, over the operations they
share.
-/

namespace Sys2Proof.Machine

/-- `x[d] <- v`, or IntegerOverflow with nothing written (R140(c), (e)). -/
def addTrapping (s : State) (d : Reg) (a b : Word) : Result :=
  if addOverflows a b then takeException s .integerOverflow none none else completeReg s d (a + b)

/-- `x[d] <- v`, or IntegerOverflow with nothing written (R140(c), (e)). -/
def subTrapping (s : State) (d : Reg) (a b : Word) : Result :=
  if subOverflows a b then takeException s .integerOverflow none none else completeReg s d (a - b)

/-- How many of the top bits of the low `n` bits are `b`, counted from bit `n - 1` down to the first that is not
(R145, R146). -/
def leadingRun (b : Bool) (v : Word) : Nat → Nat
  | 0 => 0
  | n + 1 => if v.getLsbD n = b then leadingRun b v n + 1 else 0

/-- CLO and CLZ: the field at bits 20:16 must equal `rd`, else the word is UNPREDICTABLE and faults (R145, R146). -/
def countLeading (s : State) (b : Bool) (rd rs rt : Reg) : Result :=
  if rt ≠ rd then .fault .countRegistersDiffer
  else completeReg s rd (BitVec.ofNat 32 (leadingRun b (readReg s rs) 32))

/-- The exact signed product, mod 2^64 (R149, R154). -/
def signedProduct (a b : Word) : BitVec 64 := BitVec.ofInt 64 (a.toInt * b.toInt)

/-- The exact unsigned product (R150, R155). -/
def unsignedProduct (a b : Word) : BitVec 64 := BitVec.ofNat 64 (a.toNat * b.toNat)

/-- ADD (R141). -/
def execAdd (rd rs rt : Reg) (s : State) : Result :=
  addTrapping s rd (readReg s rs) (readReg s rt)

/-- ADDI (R142). -/
def execAddi (rt rs : Reg) (imm : Half) (s : State) : Result :=
  addTrapping s rt (readReg s rs) (sextImm imm)

/-- ADDIU (R143). -/
def execAddiu (rt rs : Reg) (imm : Half) (s : State) : Result :=
  completeReg s rt (readReg s rs + sextImm imm)

/-- ADDU (R144). -/
def execAddu (rd rs rt : Reg) (s : State) : Result :=
  completeReg s rd (readReg s rs + readReg s rt)

/-- CLO (R145). -/
def execClo (rd rs rt : Reg) (s : State) : Result :=
  countLeading s true rd rs rt

/-- CLZ (R146). -/
def execClz (rd rs rt : Reg) (s : State) : Result :=
  countLeading s false rd rs rt

/-- DIV: quotient toward zero to LO, remainder with the sign of the dividend to HI; a zero divisor leaves both free
(R147, R165). -/
def execDiv (rs rt : Reg) (s : State) : Result :=
  let a := readReg s rs
  let b := readReg s rt
  if b = 0#32 then complete (drawAcc s)
  else complete { s with lo := BitVec.ofInt 32 (a.toInt.tdiv b.toInt), hi := BitVec.ofInt 32 (a.toInt.tmod b.toInt) }

/-- DIVU (R148). -/
def execDivu (rs rt : Reg) (s : State) : Result :=
  let a := readReg s rs
  let b := readReg s rt
  if b = 0#32 then complete (drawAcc s)
  else complete { s with lo := BitVec.ofNat 32 (a.toNat / b.toNat), hi := BitVec.ofNat 32 (a.toNat % b.toNat) }

/-- MADD (R149). -/
def execMadd (rs rt : Reg) (s : State) : Result :=
  complete (writeAcc s (readAcc s + signedProduct (readReg s rs) (readReg s rt)))

/-- MADDU (R150). -/
def execMaddu (rs rt : Reg) (s : State) : Result :=
  complete (writeAcc s (readAcc s + unsignedProduct (readReg s rs) (readReg s rt)))

/-- MSUB (R151). -/
def execMsub (rs rt : Reg) (s : State) : Result :=
  complete (writeAcc s (readAcc s - signedProduct (readReg s rs) (readReg s rt)))

/-- MSUBU (R152). -/
def execMsubu (rs rt : Reg) (s : State) : Result :=
  complete (writeAcc s (readAcc s - unsignedProduct (readReg s rs) (readReg s rt)))

/-- MUL: the low word of the signed product to `rd`; HI and LO by `MUL_HILO` (R153). -/
def execMul (rd rs rt : Reg) (s : State) : Result :=
  let p := signedProduct (readReg s rs) (readReg s rt)
  let s1 := match s.params.mulHilo with
    | .product       => writeAcc s p
    | .unpredictable => drawAcc s
  completeReg s1 rd (p.extractLsb' 0 32)

/-- MULT (R154). -/
def execMult (rs rt : Reg) (s : State) : Result :=
  complete (writeAcc s (signedProduct (readReg s rs) (readReg s rt)))

/-- MULTU (R155). -/
def execMultu (rs rt : Reg) (s : State) : Result :=
  complete (writeAcc s (unsignedProduct (readReg s rs) (readReg s rt)))

/-- SEB (R156). -/
def execSeb (rd rt : Reg) (s : State) : Result :=
  completeReg s rd (((readReg s rt).extractLsb' 0 8).signExtend 32)

/-- SEH (R157). -/
def execSeh (rd rt : Reg) (s : State) : Result :=
  completeReg s rd (((readReg s rt).extractLsb' 0 16).signExtend 32)

/-- SLT (R158). -/
def execSlt (rd rs rt : Reg) (s : State) : Result :=
  completeReg s rd (boolWord (ltSigned (readReg s rs) (readReg s rt)))

/-- SLTI (R159). -/
def execSlti (rt rs : Reg) (imm : Half) (s : State) : Result :=
  completeReg s rt (boolWord (ltSigned (readReg s rs) (sextImm imm)))

/-- SLTIU: the immediate is sign-extended, then compared as unsigned (R160). -/
def execSltiu (rt rs : Reg) (imm : Half) (s : State) : Result :=
  completeReg s rt (boolWord (ltUnsigned (readReg s rs) (sextImm imm)))

/-- SLTU (R161). -/
def execSltu (rd rs rt : Reg) (s : State) : Result :=
  completeReg s rd (boolWord (ltUnsigned (readReg s rs) (readReg s rt)))

/-- SUB (R162). -/
def execSub (rd rs rt : Reg) (s : State) : Result :=
  subTrapping s rd (readReg s rs) (readReg s rt)

/-- SUBU: it never traps (R163, C2). -/
def execSubu (rd rs rt : Reg) (s : State) : Result :=
  completeReg s rd (readReg s rs - readReg s rt)

end Sys2Proof.Machine
end

