-- ==== Sys2Proof/Machine/BitField.lean ====
section
/-!
DEFINITION. Bit-field extract, insert and byte swap (45_insert_extract.md R280 to R282), one definition each.
-/

namespace Sys2Proof.Machine

/-- EXT: `size = msbd + 1` bits from `pos = lsb`, right-justified; a field past bit 31 is UNPREDICTABLE and faults
(R280). -/
def execExt (rt rs : Reg) (msbd lsb : BitVec 5) (s : State) : Result :=
  if lsb.toNat + (msbd.toNat + 1) > 32 then .fault .bitFieldOutOfRange
  else completeReg s rt ((readReg s rs >>> lsb.toNat) &&& lowMask (msbd.toNat + 1))

/-- INS: the low `size = msb - lsb + 1` bits of `rs` put into `rt` from `pos = lsb`; `lsb > msb` is UNPREDICTABLE and
faults (R281). -/
def execIns (rt rs : Reg) (msb lsb : BitVec 5) (s : State) : Result :=
  if lsb.toNat > msb.toNat then .fault .bitFieldOutOfRange
  else
    let m := lowMask (msb.toNat - lsb.toNat + 1) <<< lsb.toNat
    completeReg s rt ((readReg s rt &&& ~~~m) ||| ((readReg s rs <<< lsb.toNat) &&& m))

/-- WSBH (R282). -/
def execWsbh (rd rt : Reg) (s : State) : Result :=
  let v := readReg s rt
  completeReg s rd (v.extractLsb' 16 8 ++ v.extractLsb' 24 8 ++ v.extractLsb' 0 8 ++ v.extractLsb' 8 8)

end Sys2Proof.Machine
end

