-- ==== Sys2Proof/Machine/Branch.lean ====
section
/-!
DEFINITION. The branches and jumps (41_branch_jump.md R185 to R200), one definition each. Each faults in a delay slot
(R181), reads its condition and target before the link is written (R189, R197), and transfers control by R180.
-/

namespace Sys2Proof.Machine

/-- A branch on a condition to the target of R182. -/
def branchIf (s : State) (c : Bool) (off : Half) : Result :=
  controlTransfer s (.next (transfer s c (branchTarget s off)))

/-- A branch that writes the link to register 31 whether or not it is taken (R184, R189). -/
def branchLinkIf (s : State) (c : Bool) (off : Half) : Result :=
  controlTransfer s (.next (transfer (writeReg s 31#5 (linkValue s)) c (branchTarget s off)))

/-- A branch on `rs` that links; `rs = 31`, the register it writes, is UNPREDICTABLE and faults (R189, R193). -/
def branchLinkOn (s : State) (rs : Reg) (c : Bool) (off : Half) : Result :=
  controlTransfer s (if rs = 31#5 then .fault .linkRegisterIsSource else branchLinkIf s c off)

/-- A jump to a target (R180). -/
def jumpTo (s : State) (target : Word) : Result :=
  controlTransfer s (.next (transfer s true target))

/-- A jump to `x[rs]` with the link in `rd`; `rd = rs` is UNPREDICTABLE and faults (R197). -/
def jumpLinkReg (s : State) (rd rs : Reg) : Result :=
  controlTransfer s
    (if rd = rs then .fault .linkRegisterIsSource
     else .next (transfer (writeReg s rd (linkValue s)) true (readReg s rs)))

/-- B: always taken (R185). -/
def execB (off : Half) (s : State) : Result := branchIf s true off

/-- BAL: always taken, links (R186). -/
def execBal (off : Half) (s : State) : Result := branchLinkIf s true off

/-- BEQ (R187). -/
def execBeq (rs rt : Reg) (off : Half) (s : State) : Result :=
  branchIf s (readReg s rs == readReg s rt) off

/-- BGEZ (R188). -/
def execBgez (rs : Reg) (off : Half) (s : State) : Result :=
  branchIf s (geZero (readReg s rs)) off

/-- BGEZAL (R189). -/
def execBgezal (rs : Reg) (off : Half) (s : State) : Result :=
  branchLinkOn s rs (geZero (readReg s rs)) off

/-- BGTZ (R190). -/
def execBgtz (rs : Reg) (off : Half) (s : State) : Result :=
  branchIf s (gtZero (readReg s rs)) off

/-- BLEZ (R191). -/
def execBlez (rs : Reg) (off : Half) (s : State) : Result :=
  branchIf s (!(gtZero (readReg s rs))) off

/-- BLTZ (R192). -/
def execBltz (rs : Reg) (off : Half) (s : State) : Result :=
  branchIf s (!(geZero (readReg s rs))) off

/-- BLTZAL (R193). -/
def execBltzal (rs : Reg) (off : Half) (s : State) : Result :=
  branchLinkOn s rs (!(geZero (readReg s rs))) off

/-- BNE (R194). -/
def execBne (rs rt : Reg) (off : Half) (s : State) : Result :=
  branchIf s (readReg s rs != readReg s rt) off

/-- J (R195). -/
def execJ (index : BitVec 26) (s : State) : Result := jumpTo s (jumpTarget s index)

/-- JAL (R196). -/
def execJal (index : BitVec 26) (s : State) : Result :=
  controlTransfer s (.next (transfer (writeReg s 31#5 (linkValue s)) true (jumpTarget s index)))

/-- JALR (R197). -/
def execJalr (rd rs : Reg) (s : State) : Result := jumpLinkReg s rd rs

/-- JALR.HB: no hazard can be pending, so it is JALR (R198, R396). -/
def execJalrHb (rd rs : Reg) (s : State) : Result := jumpLinkReg s rd rs

/-- JR (R199). -/
def execJr (rs : Reg) (s : State) : Result := jumpTo s (readReg s rs)

/-- JR.HB: no hazard can be pending, so it is JR (R200, R396). -/
def execJrHb (rs : Reg) (s : State) : Result := jumpTo s (readReg s rs)

end Sys2Proof.Machine
end

