-- ==== Sys2Proof/Machine/Control.lean ====
section
/-!
DEFINITION. The control instructions (42_control.md R210 to R212): each only advances pc.
-/

namespace Sys2Proof.Machine

/-- EHB: no hazard can be pending (R210, R396). -/
def execEhb (s : State) : Result := complete s

/-- NOP (R211). -/
def execNop (s : State) : Result := complete s

/-- SSNOP: issue order is timing, which the machine has none of (R212, R399). -/
def execSsnop (s : State) : Result := complete s

end Sys2Proof.Machine
end

