-- ==== Sys2Proof/Machine/LoadStore.lean ====
section
/-!
DEFINITION. The loads, stores and memory control instructions (43_load_store.md R221 to R238), one definition each.
-/

namespace Sys2Proof.Machine

/-- LWL's result: the bytes of the aligned word `w` from offset `k` on go to the most significant end of the old value
`v` (R227). -/
def mergeLeft (e : Endian) (k : Nat) (w v : Word) : Word :=
  match e with
  | .big    => (w <<< (8 * k)) ||| (v &&& lowMask (8 * k))
  | .little => (w <<< (8 * (3 - k))) ||| (v &&& lowMask (8 * (3 - k)))

/-- LWR's result: the bytes of the aligned word `w` go to the least significant end of the old value `v` (R228). -/
def mergeRight (e : Endian) (k : Nat) (w v : Word) : Word :=
  match e with
  | .big    => (v &&& ~~~(lowMask (8 * (k + 1)))) ||| (w >>> (8 * (3 - k)))
  | .little => (v &&& ~~~(lowMask (8 * (4 - k)))) ||| (w >>> (8 * k))

/-- The first address SWL stores to: EA upward, or the aligned word's first byte up to EA (R235). -/
def storeLeftAddr (e : Endian) (ea : Word) : Word :=
  match e with
  | .big    => ea
  | .little => wordAddr ea

/-- The bytes SWL stores, in the order of their addresses (R235). -/
def storeLeftBytes (e : Endian) (k : Nat) (v : Word) : List Byte :=
  match e with
  | .big    => (splitWord .big v).take (4 - k)
  | .little => (splitWord .little v).drop (3 - k)

/-- The first address SWR stores to (R236). -/
def storeRightAddr (e : Endian) (ea : Word) : Word :=
  match e with
  | .big    => wordAddr ea
  | .little => ea

/-- The bytes SWR stores, in the order of their addresses (R236). -/
def storeRightBytes (e : Endian) (k : Nat) (v : Word) : List Byte :=
  match e with
  | .big    => (splitWord .big v).drop (3 - k)
  | .little => (splitWord .little v).take (4 - k)

/-- LB (R221). -/
def execLb (rt : Reg) (off : Half) (base : Reg) (s : State) : Result :=
  let ea := effectiveAddr s off base
  checkedLoad s ea 1 (completeReg s rt ((memByte s ea).signExtend 32))

/-- LBU (R222). -/
def execLbu (rt : Reg) (off : Half) (base : Reg) (s : State) : Result :=
  let ea := effectiveAddr s off base
  checkedLoad s ea 1 (completeReg s rt ((memByte s ea).setWidth 32))

/-- LH (R223). -/
def execLh (rt : Reg) (off : Half) (base : Reg) (s : State) : Result :=
  let ea := effectiveAddr s off base
  checkedLoad s ea 2 (completeReg s rt ((memHalf s ea).signExtend 32))

/-- LHU (R224). -/
def execLhu (rt : Reg) (off : Half) (base : Reg) (s : State) : Result :=
  let ea := effectiveAddr s off base
  checkedLoad s ea 2 (completeReg s rt ((memHalf s ea).setWidth 32))

/-- LL: a word load that sets the reservation (R225). -/
def execLl (rt : Reg) (off : Half) (base : Reg) (s : State) : Result :=
  let ea := effectiveAddr s off base
  checkedLoad s ea 4 (completeReg { s with llbit := true, lladdr := ea } rt (memWord s ea))

/-- LW (R226). -/
def execLw (rt : Reg) (off : Half) (base : Reg) (s : State) : Result :=
  let ea := effectiveAddr s off base
  checkedLoad s ea 4 (completeReg s rt (memWord s ea))

/-- LWL: any EA; the whole aligned word must be readable (R227). -/
def execLwl (rt : Reg) (off : Half) (base : Reg) (s : State) : Result :=
  let ea := effectiveAddr s off base
  let a := wordAddr ea
  checkedLoad s a 4
    (completeReg s rt (mergeLeft s.params.endian (byteInWord ea) (memWord s a) (readReg s rt)))

/-- LWR: any EA; the whole aligned word must be readable (R228). -/
def execLwr (rt : Reg) (off : Half) (base : Reg) (s : State) : Result :=
  let ea := effectiveAddr s off base
  let a := wordAddr ea
  checkedLoad s a 4
    (completeReg s rt (mergeRight s.params.endian (byteInWord ea) (memWord s a) (readReg s rt)))

/-- PREF: no effect for any hint and any address, and no check (R229). -/
def execPref (_hint : BitVec 5) (_off : Half) (_base : Reg) (s : State) : Result := complete s

/-- SB (R230). -/
def execSb (rt : Reg) (off : Half) (base : Reg) (s : State) : Result :=
  let ea := effectiveAddr s off base
  checkedStore s ea 1 (complete (storeByte s ea ((readReg s rt).extractLsb' 0 8)))

/-- The store of SC when it succeeds, the indication in `rt` and the reservation gone (R231). -/
def finishSc (s : State) (rt : Reg) (ea : Word) (old : Word) (ok : Bool) : Result :=
  let s1 := if ok then storeBytes s ea (splitWord s.params.endian old) else s
  completeReg { s1 with llbit := false } rt (boolWord ok)

/-- SC: alignment, then the address of the reservation, then admission, then the store (R231, R355). With `LLbit` set
and `SC_DRAW` its success is free. -/
def execSc (rt : Reg) (off : Half) (base : Reg) (s : State) : Result :=
  let ea := effectiveAddr s off base
  let old := readReg s rt
  if ea.toNat % 4 ≠ 0 then raiseAddressError s .addressErrorStore ea
  else if s.llbit = true ∧ ea ≠ s.lladdr then .fault .scAddressMismatch
  else if admitsAll s .write ea 4 then
    if s.llbit && s.params.scDraw then
      let (ok, s1) := drawBit s
      finishSc s1 rt ea old ok
    else finishSc s rt ea old s.llbit
  else .fault (.storeNotAdmitted ea)

/-- SH (R232). -/
def execSh (rt : Reg) (off : Half) (base : Reg) (s : State) : Result :=
  let ea := effectiveAddr s off base
  checkedStore s ea 2
    (complete (storeBytes s ea (splitHalf s.params.endian ((readReg s rt).extractLsb' 0 16))))

/-- SD: a 64-bit store, refused with the record R353(b) gives it; no byte is written (R233). -/
def execSd (_rt : Reg) (_off : Half) (_base : Reg) (s : State) : Result :=
  .refused (.storeDoubleword (trapRecord s .reservedInstruction (some .sd) none))

/-- SW (R234). -/
def execSw (rt : Reg) (off : Half) (base : Reg) (s : State) : Result :=
  let ea := effectiveAddr s off base
  checkedStore s ea 4 (complete (storeBytes s ea (splitWord s.params.endian (readReg s rt))))

/-- SWL: any EA; the whole aligned word must be writable (R235). -/
def execSwl (rt : Reg) (off : Half) (base : Reg) (s : State) : Result :=
  let ea := effectiveAddr s off base
  checkedStore s (wordAddr ea) 4
    (complete (storeBytes s (storeLeftAddr s.params.endian ea)
      (storeLeftBytes s.params.endian (byteInWord ea) (readReg s rt))))

/-- SWR: any EA (R236). DESIGN CHOICE: the whole aligned word must be writable, as R235 says for SWL; R236 names no bytes
that must be admitted, and its byte form touches 1 to 4 of them (log 22, safe). -/
def execSwr (rt : Reg) (off : Half) (base : Reg) (s : State) : Result :=
  let ea := effectiveAddr s off base
  checkedStore s (wordAddr ea) 4
    (complete (storeBytes s (storeRightAddr s.params.endian ea)
      (storeRightBytes s.params.endian (byteInWord ea) (readReg s rt))))

/-- SYNC: with one agent in program order nothing is left to order, for any stype (R237). -/
def execSync (_stype : BitVec 5) (s : State) : Result := complete s

/-- SYNCI: the byte must be in `MEMMAP` with any mark, for which `present` asks a region that lists it (log 23); nothing
changes, stale words included (R238). -/
def execSynci (off : Half) (base : Reg) (s : State) : Result :=
  let ea := effectiveAddr s off base
  if present s ea then complete s else .fault (.synciNotAdmitted ea)

end Sys2Proof.Machine
end

