-- ==== Sys2Proof/Machine/Logic.lean ====
section
/-!
DEFINITION. The logical instructions (44_logical.md R260 to R267), one definition each.
-/

namespace Sys2Proof.Machine

/-- AND (R260). -/
def execAnd (rd rs rt : Reg) (s : State) : Result :=
  completeReg s rd (readReg s rs &&& readReg s rt)

/-- ANDI (R261). -/
def execAndi (rt rs : Reg) (imm : Half) (s : State) : Result :=
  completeReg s rt (readReg s rs &&& zextImm imm)

/-- LUI (R262). -/
def execLui (rt : Reg) (imm : Half) (s : State) : Result :=
  completeReg s rt (upperImm imm)

/-- NOR (R263). -/
def execNor (rd rs rt : Reg) (s : State) : Result :=
  completeReg s rd (~~~(readReg s rs ||| readReg s rt))

/-- OR (R264). -/
def execOr (rd rs rt : Reg) (s : State) : Result :=
  completeReg s rd (readReg s rs ||| readReg s rt)

/-- ORI (R265). -/
def execOri (rt rs : Reg) (imm : Half) (s : State) : Result :=
  completeReg s rt (readReg s rs ||| zextImm imm)

/-- XOR (R266). -/
def execXor (rd rs rt : Reg) (s : State) : Result :=
  completeReg s rd (readReg s rs ^^^ readReg s rt)

/-- XORI (R267). -/
def execXori (rt rs : Reg) (imm : Half) (s : State) : Result :=
  completeReg s rt (readReg s rs ^^^ zextImm imm)

end Sys2Proof.Machine
end

