-- ==== Sys2Proof/Machine/Move.lean ====
section
/-!
DEFINITION. The moves (46_move.md R290 to R295), one definition each.
-/

namespace Sys2Proof.Machine

/-- `x[rd] <- x[rs]` when the condition holds, else `x[rd]` is unchanged (R289). -/
def moveIf (s : State) (c : Bool) (rd rs : Reg) : Result :=
  if c then completeReg s rd (readReg s rs) else complete s

/-- MOVN (R290). -/
def execMovn (rd rs rt : Reg) (s : State) : Result := moveIf s (readReg s rt != 0#32) rd rs

/-- MOVT: refused with the record R353(c) gives it where the condition codes do not exist (R291). -/
def execMovt (rd rs : Reg) (cc : BitVec 3) (s : State) : Result :=
  if s.params.hasCc then moveIf s (readCc s cc) rd rs
  else .refused (.noConditionCodes (trapRecord s .reservedInstruction (some .noCc) none))

/-- MOVZ (R292). -/
def execMovz (rd rs rt : Reg) (s : State) : Result := moveIf s (readReg s rt == 0#32) rd rs

/-- MTHI (R293). -/
def execMthi (rs : Reg) (s : State) : Result := complete { s with hi := readReg s rs }

/-- MTLO (R294). -/
def execMtlo (rs : Reg) (s : State) : Result := complete { s with lo := readReg s rs }

/-- `HWR(n)`: the fixed value, or a fresh draw (R295, R365). -/
def readHwr (s : State) (n : BitVec 5) : Word × State :=
  match s.params.hwr[n.toNat]'n.isLt with
  | some v => (v, s)
  | none   => drawWord s

/-- RDHWR: a register that `HWRENA` does not enable raises ReservedInstruction, a genuine trap (R295, R353(d)). -/
def execRdhwr (rt : Reg) (hwr : BitVec 5) (s : State) : Result :=
  if s.params.hwrena.getLsbD hwr.toNat then
    let (v, s1) := readHwr s hwr
    completeReg s1 rt v
  else takeException s .reservedInstruction (some .hwrDisabled) none

end Sys2Proof.Machine
end

