-- ==== Sys2Proof/Machine/Shift.lean ====
section
/-!
DEFINITION. The shifts and rotates (47_shift.md R300 to R307), one definition each, over the four operations of R308.
-/

namespace Sys2Proof.Machine

/-- `(v << n) mod 2^32` (R302). -/
def shiftLeft (v : Word) (n : BitVec 5) : Word := v <<< n.toNat

/-- `v >> n`, zeros in (R306). -/
def shiftRight (v : Word) (n : BitVec 5) : Word := v >>> n.toNat

/-- `v >> n`, copies of bit 31 in (R304). -/
def shiftRightArith (v : Word) (n : BitVec 5) : Word := v.sshiftRight n.toNat

/-- `(v >> n) or (v << (32 - n))`: the bits that leave at bit 0 enter at bit 31 (R300). -/
def rotateRight (v : Word) (n : BitVec 5) : Word := (v >>> n.toNat) ||| (v <<< (32 - n.toNat))

/-- ROTR (R300). -/
def execRotr (rd rt : Reg) (sa : BitVec 5) (s : State) : Result :=
  completeReg s rd (rotateRight (readReg s rt) sa)

/-- ROTRV (R301). -/
def execRotrv (rd rt rs : Reg) (s : State) : Result :=
  completeReg s rd (rotateRight (readReg s rt) (variableAmount s rs))

/-- SLL (R302). -/
def execSll (rd rt : Reg) (sa : BitVec 5) (s : State) : Result :=
  completeReg s rd (shiftLeft (readReg s rt) sa)

/-- SLLV (R303). -/
def execSllv (rd rt rs : Reg) (s : State) : Result :=
  completeReg s rd (shiftLeft (readReg s rt) (variableAmount s rs))

/-- SRA (R304). -/
def execSra (rd rt : Reg) (sa : BitVec 5) (s : State) : Result :=
  completeReg s rd (shiftRightArith (readReg s rt) sa)

/-- SRAV (R305). -/
def execSrav (rd rt rs : Reg) (s : State) : Result :=
  completeReg s rd (shiftRightArith (readReg s rt) (variableAmount s rs))

/-- SRL (R306). -/
def execSrl (rd rt : Reg) (sa : BitVec 5) (s : State) : Result :=
  completeReg s rd (shiftRight (readReg s rt) sa)

/-- SRLV (R307). -/
def execSrlv (rd rt rs : Reg) (s : State) : Result :=
  completeReg s rd (shiftRight (readReg s rt) (variableAmount s rs))

end Sys2Proof.Machine
end

