-- ==== Sys2Proof/Machine/Trap.lean ====
section
/-!
DEFINITION. The trap instructions (48_trap.md R321 to R333), one definition each.
-/

namespace Sys2Proof.Machine

/-- Raise Trap when the condition holds, else only advance (R320(e), R350(d)). -/
def trapIf (s : State) (c : Bool) : Result :=
  if c then takeException s .trap none none else complete s

/-- BREAK (R321). -/
def execBreakpoint (_code : BitVec 20) (s : State) : Result := takeException s .breakpoint none none

/-- SYSCALL (R322). -/
def execSyscall (_code : BitVec 20) (s : State) : Result := takeException s .systemCall none none

/-- TEQ (R323). -/
def execTeq (rs rt : Reg) (_code : BitVec 10) (s : State) : Result := trapIf s (readReg s rs == readReg s rt)

/-- TEQI (R324). -/
def execTeqi (rs : Reg) (imm : Half) (s : State) : Result := trapIf s (readReg s rs == sextImm imm)

/-- TGE (R325). -/
def execTge (rs rt : Reg) (_code : BitVec 10) (s : State) : Result :=
  trapIf s (!(ltSigned (readReg s rs) (readReg s rt)))

/-- TGEI (R326). -/
def execTgei (rs : Reg) (imm : Half) (s : State) : Result := trapIf s (!(ltSigned (readReg s rs) (sextImm imm)))

/-- TGEIU: the immediate is sign-extended, then compared as unsigned (R327). -/
def execTgeiu (rs : Reg) (imm : Half) (s : State) : Result := trapIf s (!(ltUnsigned (readReg s rs) (sextImm imm)))

/-- TGEU (R328). -/
def execTgeu (rs rt : Reg) (_code : BitVec 10) (s : State) : Result :=
  trapIf s (!(ltUnsigned (readReg s rs) (readReg s rt)))

/-- TLT (R329). -/
def execTlt (rs rt : Reg) (_code : BitVec 10) (s : State) : Result :=
  trapIf s (ltSigned (readReg s rs) (readReg s rt))

/-- TLTI (R330). -/
def execTlti (rs : Reg) (imm : Half) (s : State) : Result := trapIf s (ltSigned (readReg s rs) (sextImm imm))

/-- TLTIU: the immediate is sign-extended, then compared as unsigned (R331). -/
def execTltiu (rs : Reg) (imm : Half) (s : State) : Result := trapIf s (ltUnsigned (readReg s rs) (sextImm imm))

/-- TLTU (R332). -/
def execTltu (rs rt : Reg) (_code : BitVec 10) (s : State) : Result :=
  trapIf s (ltUnsigned (readReg s rs) (readReg s rt))

/-- TNE (R333). -/
def execTne (rs rt : Reg) (_code : BitVec 10) (s : State) : Result := trapIf s (readReg s rs != readReg s rt)

end Sys2Proof.Machine
end

