-- ==== Sys2Proof/Machine/Dispatch.lean ====
section
/-!
DEFINITION. One arm for each instruction, in the order of 30_encoding.md R112.
-/

namespace Sys2Proof.Machine

def exec (i : Instr) (s : State) : Host.Outcome State Fault Refusal :=
  match i with
  | .add rd rs rt => Sys2Proof.Machine.execAdd rd rs rt s
  | .addi rt rs imm => Sys2Proof.Machine.execAddi rt rs imm s
  | .addiu rt rs imm => Sys2Proof.Machine.execAddiu rt rs imm s
  | .addu rd rs rt => Sys2Proof.Machine.execAddu rd rs rt s
  | .clo rd rs rt => Sys2Proof.Machine.execClo rd rs rt s
  | .clz rd rs rt => Sys2Proof.Machine.execClz rd rs rt s
  | .div rs rt => Sys2Proof.Machine.execDiv rs rt s
  | .divu rs rt => Sys2Proof.Machine.execDivu rs rt s
  | .madd rs rt => Sys2Proof.Machine.execMadd rs rt s
  | .maddu rs rt => Sys2Proof.Machine.execMaddu rs rt s
  | .msub rs rt => Sys2Proof.Machine.execMsub rs rt s
  | .msubu rs rt => Sys2Proof.Machine.execMsubu rs rt s
  | .mul rd rs rt => Sys2Proof.Machine.execMul rd rs rt s
  | .mult rs rt => Sys2Proof.Machine.execMult rs rt s
  | .multu rs rt => Sys2Proof.Machine.execMultu rs rt s
  | .seb rd rt => Sys2Proof.Machine.execSeb rd rt s
  | .seh rd rt => Sys2Proof.Machine.execSeh rd rt s
  | .slt rd rs rt => Sys2Proof.Machine.execSlt rd rs rt s
  | .slti rt rs imm => Sys2Proof.Machine.execSlti rt rs imm s
  | .sltiu rt rs imm => Sys2Proof.Machine.execSltiu rt rs imm s
  | .sltu rd rs rt => Sys2Proof.Machine.execSltu rd rs rt s
  | .sub rd rs rt => Sys2Proof.Machine.execSub rd rs rt s
  | .subu rd rs rt => Sys2Proof.Machine.execSubu rd rs rt s
  | .b off => Sys2Proof.Machine.execB off s
  | .bal off => Sys2Proof.Machine.execBal off s
  | .beq rs rt off => Sys2Proof.Machine.execBeq rs rt off s
  | .bgez rs off => Sys2Proof.Machine.execBgez rs off s
  | .bgezal rs off => Sys2Proof.Machine.execBgezal rs off s
  | .bgtz rs off => Sys2Proof.Machine.execBgtz rs off s
  | .blez rs off => Sys2Proof.Machine.execBlez rs off s
  | .bltz rs off => Sys2Proof.Machine.execBltz rs off s
  | .bltzal rs off => Sys2Proof.Machine.execBltzal rs off s
  | .bne rs rt off => Sys2Proof.Machine.execBne rs rt off s
  | .j index => Sys2Proof.Machine.execJ index s
  | .jal index => Sys2Proof.Machine.execJal index s
  | .jalr rd rs => Sys2Proof.Machine.execJalr rd rs s
  | .jalrHb rd rs => Sys2Proof.Machine.execJalrHb rd rs s
  | .jr rs => Sys2Proof.Machine.execJr rs s
  | .jrHb rs => Sys2Proof.Machine.execJrHb rs s
  | .ehb => Sys2Proof.Machine.execEhb s
  | .nop => Sys2Proof.Machine.execNop s
  | .ssnop => Sys2Proof.Machine.execSsnop s
  | .lb rt off base => Sys2Proof.Machine.execLb rt off base s
  | .lbu rt off base => Sys2Proof.Machine.execLbu rt off base s
  | .lh rt off base => Sys2Proof.Machine.execLh rt off base s
  | .lhu rt off base => Sys2Proof.Machine.execLhu rt off base s
  | .ll rt off base => Sys2Proof.Machine.execLl rt off base s
  | .lw rt off base => Sys2Proof.Machine.execLw rt off base s
  | .lwl rt off base => Sys2Proof.Machine.execLwl rt off base s
  | .lwr rt off base => Sys2Proof.Machine.execLwr rt off base s
  | .pref hint off base => Sys2Proof.Machine.execPref hint off base s
  | .sb rt off base => Sys2Proof.Machine.execSb rt off base s
  | .sc rt off base => Sys2Proof.Machine.execSc rt off base s
  | .sh rt off base => Sys2Proof.Machine.execSh rt off base s
  | .sd rt off base => Sys2Proof.Machine.execSd rt off base s
  | .sw rt off base => Sys2Proof.Machine.execSw rt off base s
  | .swl rt off base => Sys2Proof.Machine.execSwl rt off base s
  | .swr rt off base => Sys2Proof.Machine.execSwr rt off base s
  | .sync stype => Sys2Proof.Machine.execSync stype s
  | .synci off base => Sys2Proof.Machine.execSynci off base s
  | .and rd rs rt => Sys2Proof.Machine.execAnd rd rs rt s
  | .andi rt rs imm => Sys2Proof.Machine.execAndi rt rs imm s
  | .lui rt imm => Sys2Proof.Machine.execLui rt imm s
  | .nor rd rs rt => Sys2Proof.Machine.execNor rd rs rt s
  | .or rd rs rt => Sys2Proof.Machine.execOr rd rs rt s
  | .ori rt rs imm => Sys2Proof.Machine.execOri rt rs imm s
  | .xor rd rs rt => Sys2Proof.Machine.execXor rd rs rt s
  | .xori rt rs imm => Sys2Proof.Machine.execXori rt rs imm s
  | .ext rt rs msbd lsb => Sys2Proof.Machine.execExt rt rs msbd lsb s
  | .ins rt rs msb lsb => Sys2Proof.Machine.execIns rt rs msb lsb s
  | .wsbh rd rt => Sys2Proof.Machine.execWsbh rd rt s
  | .movn rd rs rt => Sys2Proof.Machine.execMovn rd rs rt s
  | .movt rd rs cc => Sys2Proof.Machine.execMovt rd rs cc s
  | .movz rd rs rt => Sys2Proof.Machine.execMovz rd rs rt s
  | .mthi rs => Sys2Proof.Machine.execMthi rs s
  | .mtlo rs => Sys2Proof.Machine.execMtlo rs s
  | .rdhwr rt hwr => Sys2Proof.Machine.execRdhwr rt hwr s
  | .rotr rd rt sa => Sys2Proof.Machine.execRotr rd rt sa s
  | .rotrv rd rt rs => Sys2Proof.Machine.execRotrv rd rt rs s
  | .sll rd rt sa => Sys2Proof.Machine.execSll rd rt sa s
  | .sllv rd rt rs => Sys2Proof.Machine.execSllv rd rt rs s
  | .sra rd rt sa => Sys2Proof.Machine.execSra rd rt sa s
  | .srav rd rt rs => Sys2Proof.Machine.execSrav rd rt rs s
  | .srl rd rt sa => Sys2Proof.Machine.execSrl rd rt sa s
  | .srlv rd rt rs => Sys2Proof.Machine.execSrlv rd rt rs s
  | .breakpoint code => Sys2Proof.Machine.execBreakpoint code s
  | .syscall code => Sys2Proof.Machine.execSyscall code s
  | .teq rs rt code => Sys2Proof.Machine.execTeq rs rt code s
  | .teqi rs imm => Sys2Proof.Machine.execTeqi rs imm s
  | .tge rs rt code => Sys2Proof.Machine.execTge rs rt code s
  | .tgei rs imm => Sys2Proof.Machine.execTgei rs imm s
  | .tgeiu rs imm => Sys2Proof.Machine.execTgeiu rs imm s
  | .tgeu rs rt code => Sys2Proof.Machine.execTgeu rs rt code s
  | .tlt rs rt code => Sys2Proof.Machine.execTlt rs rt code s
  | .tlti rs imm => Sys2Proof.Machine.execTlti rs imm s
  | .tltiu rs imm => Sys2Proof.Machine.execTltiu rs imm s
  | .tltu rs rt code => Sys2Proof.Machine.execTltu rs rt code s
  | .tne rs rt code => Sys2Proof.Machine.execTne rs rt code s

end Sys2Proof.Machine
end

