-- ==== Sys2Proof/Machine/Fetch.lean ====
section
/-!
DEFINITION. The fetch (10_state.md R42 steps 1 to 4), and the placing of an instruction word from outside (log 15).
-/

namespace Sys2Proof.Machine

/-- What a fetch answers: a word, or why there is none (R42). -/
inductive Fetched where
  /-- the word at pc (step 4) -/
  | word (w : Word)
  /-- pc is no multiple of 4 (step 1) -/
  | misaligned
  /-- a byte of the word is not executable (step 2) -/
  | notAdmitted
  /-- a store has written the word (step 3) -/
  | stale
deriving DecidableEq, Repr

/-- The fetch of the word at pc, with its checks in the order of R42. -/
def fetch (s : State) : Fetched :=
  if s.pc.toNat % 4 ≠ 0 then .misaligned
  else if !(admitsAll s .exec s.pc 4) then .notAdmitted
  else if s.stale.contains (wordAddr s.pc).toNat then .stale
  else .word (memWord s s.pc)

/-- The refusal of a word that no row of R112 matches, with the record of R353(a). -/
def refuseUnlisted (s : State) (reason : Rejection) : Result :=
  .refused (.unlistedWord reason (trapRecord s .reservedInstruction (some .unlisted) none))

/-- The word in memory at pc, placed there from outside: it is no store, so the word is not stale (R390, log 15). -/
def placeWordAtPc (s : State) (w : Word) : State :=
  let s1 := placeBytes s s.pc (splitWord s.params.endian w)
  { s1 with stale := removeAddr (wordAddr s.pc).toNat s1.stale }

end Sys2Proof.Machine
end

