-- ==== Sys2Proof/Machine/Step.lean ====
section
/-!
DEFINITION. The step (10_state.md R42).
-/

namespace Sys2Proof.Machine

/-- One step: no step leaves a state whose run has ended (R42, R356); else fetch, decode and run, in the order of
R42. Steps 6, 8 and 9 are the meanings' own. -/
def step (s : State) : Host.Outcome State Fault Refusal :=
  match s.outcome with
  | some _ => .fault .runEnded
  | none =>
    match fetch s with
    | .misaligned  => raiseAddressError s .addressErrorFetch s.pc
    | .notAdmitted => .fault (.fetchNotAdmitted s.pc)
    | .stale       => .fault (.staleFetch s.pc)
    | .word w =>
      match decode w with
      | .ok i         => exec i s
      | .error reason => refuseUnlisted s reason

/-- The state with a table word stored where the next step fetches (log 15). -/
def State.withFetchWord (s : State) (nbits w : Nat) : State := placeWordAtPc s (tableWord nbits w)

end Sys2Proof.Machine
end

