-- ==== Sys2Proof/Machine/OpcodeTable.lean ====
section
/-!
DEFINITION. The opcode table (30_encoding.md R112), copied from the rule and not from the decoder: the row of each
instruction, and the list of all rows in the order of the source.
-/

namespace Sys2Proof

/-- One row of R112: a word `w` is this instruction iff `w & mask = bits`. `aliasOf` names the row whose words an
alias row takes some of (R113). -/
structure Row where
  mnemonic : String
  bits     : Word
  mask     : Word
  aliasOf  : Option String
deriving DecidableEq, Repr

/-- The row of an instruction (R112). -/
def tableRow : Instr → Row
  | .add .. => ⟨"ADD", 0x00000020#32, 0xFC0007FF#32, none⟩
  | .addi .. => ⟨"ADDI", 0x20000000#32, 0xFC000000#32, none⟩
  | .addiu .. => ⟨"ADDIU", 0x24000000#32, 0xFC000000#32, none⟩
  | .addu .. => ⟨"ADDU", 0x00000021#32, 0xFC0007FF#32, none⟩
  | .clo .. => ⟨"CLO", 0x70000021#32, 0xFC0007FF#32, none⟩
  | .clz .. => ⟨"CLZ", 0x70000020#32, 0xFC0007FF#32, none⟩
  | .div .. => ⟨"DIV", 0x0000001A#32, 0xFC00FFFF#32, none⟩
  | .divu .. => ⟨"DIVU", 0x0000001B#32, 0xFC00FFFF#32, none⟩
  | .madd .. => ⟨"MADD", 0x70000000#32, 0xFC00FFFF#32, none⟩
  | .maddu .. => ⟨"MADDU", 0x70000001#32, 0xFC00FFFF#32, none⟩
  | .msub .. => ⟨"MSUB", 0x70000004#32, 0xFC00FFFF#32, none⟩
  | .msubu .. => ⟨"MSUBU", 0x70000005#32, 0xFC00FFFF#32, none⟩
  | .mul .. => ⟨"MUL", 0x70000002#32, 0xFC0007FF#32, none⟩
  | .mult .. => ⟨"MULT", 0x00000018#32, 0xFC00FFFF#32, none⟩
  | .multu .. => ⟨"MULTU", 0x00000019#32, 0xFC00FFFF#32, none⟩
  | .seb .. => ⟨"SEB", 0x7C000420#32, 0xFFE007FF#32, none⟩
  | .seh .. => ⟨"SEH", 0x7C000620#32, 0xFFE007FF#32, none⟩
  | .slt .. => ⟨"SLT", 0x0000002A#32, 0xFC0007FF#32, none⟩
  | .slti .. => ⟨"SLTI", 0x28000000#32, 0xFC000000#32, none⟩
  | .sltiu .. => ⟨"SLTIU", 0x2C000000#32, 0xFC000000#32, none⟩
  | .sltu .. => ⟨"SLTU", 0x0000002B#32, 0xFC0007FF#32, none⟩
  | .sub .. => ⟨"SUB", 0x00000022#32, 0xFC0007FF#32, none⟩
  | .subu .. => ⟨"SUBU", 0x00000023#32, 0xFC0007FF#32, none⟩
  | .b .. => ⟨"B", 0x10000000#32, 0xFFFF0000#32, some "BEQ"⟩
  | .bal .. => ⟨"BAL", 0x04110000#32, 0xFFFF0000#32, some "BGEZAL"⟩
  | .beq .. => ⟨"BEQ", 0x10000000#32, 0xFC000000#32, none⟩
  | .bgez .. => ⟨"BGEZ", 0x04010000#32, 0xFC1F0000#32, none⟩
  | .bgezal .. => ⟨"BGEZAL", 0x04110000#32, 0xFC1F0000#32, none⟩
  | .bgtz .. => ⟨"BGTZ", 0x1C000000#32, 0xFC1F0000#32, none⟩
  | .blez .. => ⟨"BLEZ", 0x18000000#32, 0xFC1F0000#32, none⟩
  | .bltz .. => ⟨"BLTZ", 0x04000000#32, 0xFC1F0000#32, none⟩
  | .bltzal .. => ⟨"BLTZAL", 0x04100000#32, 0xFC1F0000#32, none⟩
  | .bne .. => ⟨"BNE", 0x14000000#32, 0xFC000000#32, none⟩
  | .j .. => ⟨"J", 0x08000000#32, 0xFC000000#32, none⟩
  | .jal .. => ⟨"JAL", 0x0C000000#32, 0xFC000000#32, none⟩
  | .jalr .. => ⟨"JALR", 0x00000009#32, 0xFC1F07FF#32, none⟩
  | .jalrHb .. => ⟨"JALR.HB", 0x00000409#32, 0xFC1F07FF#32, none⟩
  | .jr .. => ⟨"JR", 0x00000008#32, 0xFC1FFFFF#32, none⟩
  | .jrHb .. => ⟨"JR.HB", 0x00000408#32, 0xFC1FFFFF#32, none⟩
  | .ehb => ⟨"EHB", 0x000000C0#32, 0xFFFFFFFF#32, some "SLL"⟩
  | .nop => ⟨"NOP", 0x00000000#32, 0xFFFFFFFF#32, some "SLL"⟩
  | .ssnop => ⟨"SSNOP", 0x00000040#32, 0xFFFFFFFF#32, some "SLL"⟩
  | .lb .. => ⟨"LB", 0x80000000#32, 0xFC000000#32, none⟩
  | .lbu .. => ⟨"LBU", 0x90000000#32, 0xFC000000#32, none⟩
  | .lh .. => ⟨"LH", 0x84000000#32, 0xFC000000#32, none⟩
  | .lhu .. => ⟨"LHU", 0x94000000#32, 0xFC000000#32, none⟩
  | .ll .. => ⟨"LL", 0xC0000000#32, 0xFC000000#32, none⟩
  | .lw .. => ⟨"LW", 0x8C000000#32, 0xFC000000#32, none⟩
  | .lwl .. => ⟨"LWL", 0x88000000#32, 0xFC000000#32, none⟩
  | .lwr .. => ⟨"LWR", 0x98000000#32, 0xFC000000#32, none⟩
  | .pref .. => ⟨"PREF", 0xCC000000#32, 0xFC000000#32, none⟩
  | .sb .. => ⟨"SB", 0xA0000000#32, 0xFC000000#32, none⟩
  | .sc .. => ⟨"SC", 0xE0000000#32, 0xFC000000#32, none⟩
  | .sh .. => ⟨"SH", 0xA4000000#32, 0xFC000000#32, none⟩
  | .sd .. => ⟨"SD", 0xFC000000#32, 0xFC000000#32, none⟩
  | .sw .. => ⟨"SW", 0xAC000000#32, 0xFC000000#32, none⟩
  | .swl .. => ⟨"SWL", 0xA8000000#32, 0xFC000000#32, none⟩
  | .swr .. => ⟨"SWR", 0xB8000000#32, 0xFC000000#32, none⟩
  | .sync .. => ⟨"SYNC", 0x0000000F#32, 0xFFFFF83F#32, none⟩
  | .synci .. => ⟨"SYNCI", 0x041F0000#32, 0xFC1F0000#32, none⟩
  | .and .. => ⟨"AND", 0x00000024#32, 0xFC0007FF#32, none⟩
  | .andi .. => ⟨"ANDI", 0x30000000#32, 0xFC000000#32, none⟩
  | .lui .. => ⟨"LUI", 0x3C000000#32, 0xFFE00000#32, none⟩
  | .nor .. => ⟨"NOR", 0x00000027#32, 0xFC0007FF#32, none⟩
  | .or .. => ⟨"OR", 0x00000025#32, 0xFC0007FF#32, none⟩
  | .ori .. => ⟨"ORI", 0x34000000#32, 0xFC000000#32, none⟩
  | .xor .. => ⟨"XOR", 0x00000026#32, 0xFC0007FF#32, none⟩
  | .xori .. => ⟨"XORI", 0x38000000#32, 0xFC000000#32, none⟩
  | .ext .. => ⟨"EXT", 0x7C000000#32, 0xFC00003F#32, none⟩
  | .ins .. => ⟨"INS", 0x7C000004#32, 0xFC00003F#32, none⟩
  | .wsbh .. => ⟨"WSBH", 0x7C0000A0#32, 0xFFE007FF#32, none⟩
  | .movn .. => ⟨"MOVN", 0x0000000B#32, 0xFC0007FF#32, none⟩
  | .movt .. => ⟨"MOVT", 0x00010001#32, 0xFC0307FF#32, none⟩
  | .movz .. => ⟨"MOVZ", 0x0000000A#32, 0xFC0007FF#32, none⟩
  | .mthi .. => ⟨"MTHI", 0x00000011#32, 0xFC1FFFFF#32, none⟩
  | .mtlo .. => ⟨"MTLO", 0x00000013#32, 0xFC1FFFFF#32, none⟩
  | .rdhwr .. => ⟨"RDHWR", 0x7C00003B#32, 0xFFE007FF#32, none⟩
  | .rotr .. => ⟨"ROTR", 0x00200002#32, 0xFFE0003F#32, none⟩
  | .rotrv .. => ⟨"ROTRV", 0x00000046#32, 0xFC0007FF#32, none⟩
  | .sll .. => ⟨"SLL", 0x00000000#32, 0xFFE0003F#32, none⟩
  | .sllv .. => ⟨"SLLV", 0x00000004#32, 0xFC0007FF#32, none⟩
  | .sra .. => ⟨"SRA", 0x00000003#32, 0xFFE0003F#32, none⟩
  | .srav .. => ⟨"SRAV", 0x00000007#32, 0xFC0007FF#32, none⟩
  | .srl .. => ⟨"SRL", 0x00000002#32, 0xFFE0003F#32, none⟩
  | .srlv .. => ⟨"SRLV", 0x00000006#32, 0xFC0007FF#32, none⟩
  | .breakpoint .. => ⟨"BREAK", 0x0000000D#32, 0xFC00003F#32, none⟩
  | .syscall .. => ⟨"SYSCALL", 0x0000000C#32, 0xFC00003F#32, none⟩
  | .teq .. => ⟨"TEQ", 0x00000034#32, 0xFC00003F#32, none⟩
  | .teqi .. => ⟨"TEQI", 0x040C0000#32, 0xFC1F0000#32, none⟩
  | .tge .. => ⟨"TGE", 0x00000030#32, 0xFC00003F#32, none⟩
  | .tgei .. => ⟨"TGEI", 0x04080000#32, 0xFC1F0000#32, none⟩
  | .tgeiu .. => ⟨"TGEIU", 0x04090000#32, 0xFC1F0000#32, none⟩
  | .tgeu .. => ⟨"TGEU", 0x00000031#32, 0xFC00003F#32, none⟩
  | .tlt .. => ⟨"TLT", 0x00000032#32, 0xFC00003F#32, none⟩
  | .tlti .. => ⟨"TLTI", 0x040A0000#32, 0xFC1F0000#32, none⟩
  | .tltiu .. => ⟨"TLTIU", 0x040B0000#32, 0xFC1F0000#32, none⟩
  | .tltu .. => ⟨"TLTU", 0x00000033#32, 0xFC00003F#32, none⟩
  | .tne .. => ⟨"TNE", 0x00000036#32, 0xFC00003F#32, none⟩

/-- The word is one of this row's (R112). -/
def Row.holds (r : Row) (w : Word) : Prop := w &&& r.mask = r.bits

/-- The rows of this section of R112. -/
def rowsArithmetic : List Row :=
  [tableRow (.add 0 0 0),
   tableRow (.addi 0 0 0),
   tableRow (.addiu 0 0 0),
   tableRow (.addu 0 0 0),
   tableRow (.clo 0 0 0),
   tableRow (.clz 0 0 0),
   tableRow (.div 0 0),
   tableRow (.divu 0 0),
   tableRow (.madd 0 0),
   tableRow (.maddu 0 0),
   tableRow (.msub 0 0),
   tableRow (.msubu 0 0),
   tableRow (.mul 0 0 0),
   tableRow (.mult 0 0),
   tableRow (.multu 0 0),
   tableRow (.seb 0 0),
   tableRow (.seh 0 0),
   tableRow (.slt 0 0 0),
   tableRow (.slti 0 0 0),
   tableRow (.sltiu 0 0 0),
   tableRow (.sltu 0 0 0),
   tableRow (.sub 0 0 0),
   tableRow (.subu 0 0 0)]

/-- The rows of this section of R112. -/
def rowsBranch : List Row :=
  [tableRow (.b 0),
   tableRow (.bal 0),
   tableRow (.beq 0 0 0),
   tableRow (.bgez 0 0),
   tableRow (.bgezal 0 0),
   tableRow (.bgtz 0 0),
   tableRow (.blez 0 0),
   tableRow (.bltz 0 0),
   tableRow (.bltzal 0 0),
   tableRow (.bne 0 0 0),
   tableRow (.j 0),
   tableRow (.jal 0),
   tableRow (.jalr 0 0),
   tableRow (.jalrHb 0 0),
   tableRow (.jr 0),
   tableRow (.jrHb 0)]

/-- The rows of this section of R112. -/
def rowsControl : List Row :=
  [tableRow .ehb,
   tableRow .nop,
   tableRow .ssnop]

/-- The rows of this section of R112. -/
def rowsLoadStore : List Row :=
  [tableRow (.lb 0 0 0),
   tableRow (.lbu 0 0 0),
   tableRow (.lh 0 0 0),
   tableRow (.lhu 0 0 0),
   tableRow (.ll 0 0 0),
   tableRow (.lw 0 0 0),
   tableRow (.lwl 0 0 0),
   tableRow (.lwr 0 0 0),
   tableRow (.pref 0 0 0),
   tableRow (.sb 0 0 0),
   tableRow (.sc 0 0 0),
   tableRow (.sh 0 0 0),
   tableRow (.sd 0 0 0),
   tableRow (.sw 0 0 0),
   tableRow (.swl 0 0 0),
   tableRow (.swr 0 0 0),
   tableRow (.sync 0),
   tableRow (.synci 0 0)]

/-- The rows of this section of R112. -/
def rowsLogic : List Row :=
  [tableRow (.and 0 0 0),
   tableRow (.andi 0 0 0),
   tableRow (.lui 0 0),
   tableRow (.nor 0 0 0),
   tableRow (.or 0 0 0),
   tableRow (.ori 0 0 0),
   tableRow (.xor 0 0 0),
   tableRow (.xori 0 0 0)]

/-- The rows of this section of R112. -/
def rowsBitField : List Row :=
  [tableRow (.ext 0 0 0 0),
   tableRow (.ins 0 0 0 0),
   tableRow (.wsbh 0 0)]

/-- The rows of this section of R112. -/
def rowsMove : List Row :=
  [tableRow (.movn 0 0 0),
   tableRow (.movt 0 0 0),
   tableRow (.movz 0 0 0),
   tableRow (.mthi 0),
   tableRow (.mtlo 0),
   tableRow (.rdhwr 0 0)]

/-- The rows of this section of R112. -/
def rowsShift : List Row :=
  [tableRow (.rotr 0 0 0),
   tableRow (.rotrv 0 0 0),
   tableRow (.sll 0 0 0),
   tableRow (.sllv 0 0 0),
   tableRow (.sra 0 0 0),
   tableRow (.srav 0 0 0),
   tableRow (.srl 0 0 0),
   tableRow (.srlv 0 0 0)]

/-- The rows of this section of R112. -/
def rowsTrap : List Row :=
  [tableRow (.breakpoint 0),
   tableRow (.syscall 0),
   tableRow (.teq 0 0 0),
   tableRow (.teqi 0 0),
   tableRow (.tge 0 0 0),
   tableRow (.tgei 0 0),
   tableRow (.tgeiu 0 0),
   tableRow (.tgeu 0 0 0),
   tableRow (.tlt 0 0 0),
   tableRow (.tlti 0 0),
   tableRow (.tltiu 0 0),
   tableRow (.tltu 0 0 0),
   tableRow (.tne 0 0 0)]

/-- The 98 rows of R112. -/
def opcodeTable : List Row :=
  rowsArithmetic ++ rowsBranch ++ rowsControl ++ rowsLoadStore ++ rowsLogic ++
  rowsBitField ++ rowsMove ++ rowsShift ++ rowsTrap

end Sys2Proof
end

