-- ==== Sys2Proof/Safety.lean ====
section
/-!
DEFINITION. The terms claims are stated in: what a step's answer means (60_exceptions.md R366), which instructions write
which state (10_state.md R44), what an instruction leaves unchanged, and the invariant every step keeps.
-/

namespace Sys2Proof.Machine

/-! ## What a step's answer means (R366) -/

/-- The ways a step ends (R366). -/
inductive StepKind where
  /-- a successor state -/
  | completed
  /-- the final outcome `Trapped`, about which claims may be proved (R359) -/
  | trapped
  /-- the run proves nothing: the spec does not know what the chip does -/
  | refused
  /-- the run proves nothing: the program leaves what the architecture fixes -/
  | fault
  /-- the run proves nothing: the platform is outside the model -/
  | stuck
deriving DecidableEq, Repr

/-- The kind of an answer (R366). -/
def stepKind : Result → StepKind
  | .next t => if t.outcome.isSome then .trapped else .completed
  | .refused _ => .refused
  | .fault f =>
    match f with
    | .fetchNotAdmitted _ | .loadNotAdmitted _ | .storeNotAdmitted _ | .synciNotAdmitted _ => .stuck
    | .branchInDelaySlot | .linkRegisterIsSource | .countRegistersDiffer | .bitFieldOutOfRange | .scAddressMismatch
    | .staleFetch _ | .runEnded => .fault

/-! ## Who writes what (R44) -/

/-- The sixteen branches and jumps (R181, R201). -/
def isTransfer : Instr → Bool
  | .b .. | .bal .. | .beq .. | .bgez .. | .bgezal .. | .bgtz .. | .blez .. | .bltz .. | .bltzal .. | .bne .. | .j ..
  | .jal .. | .jalr .. | .jalrHb .. | .jr .. | .jrHb .. => true
  | .add .. | .addi .. | .addiu .. | .addu .. | .clo .. | .clz .. | .div .. | .divu .. | .madd .. | .maddu ..
  | .msub .. | .msubu .. | .mul .. | .mult .. | .multu .. | .seb .. | .seh .. | .slt .. | .slti .. | .sltiu ..
  | .sltu .. | .sub .. | .subu .. | .ehb | .nop | .ssnop | .lb .. | .lbu .. | .lh .. | .lhu .. | .ll .. | .lw ..
  | .lwl .. | .lwr .. | .pref .. | .sb .. | .sc .. | .sh .. | .sd .. | .sw .. | .swl .. | .swr .. | .sync ..
  | .synci .. | .and .. | .andi .. | .lui .. | .nor .. | .or .. | .ori .. | .xor .. | .xori .. | .ext .. | .ins ..
  | .wsbh .. | .movn .. | .movt .. | .movz .. | .mthi .. | .mtlo .. | .rdhwr .. | .rotr .. | .rotrv .. | .sll ..
  | .sllv .. | .sra .. | .srav .. | .srl .. | .srlv .. | .breakpoint .. | .syscall .. | .teq .. | .teqi .. | .tge ..
  | .tgei .. | .tgeiu .. | .tgeu .. | .tlt .. | .tlti .. | .tltiu .. | .tltu .. | .tne .. => false

/-- The six instructions that write memory and the stale set (R44). -/
def isStore : Instr → Bool
  | .sb .. | .sh .. | .sw .. | .swl .. | .swr .. | .sc .. => true
  | .add .. | .addi .. | .addiu .. | .addu .. | .clo .. | .clz .. | .div .. | .divu .. | .madd .. | .maddu ..
  | .msub .. | .msubu .. | .mul .. | .mult .. | .multu .. | .seb .. | .seh .. | .slt .. | .slti .. | .sltiu ..
  | .sltu .. | .sub .. | .subu .. | .b .. | .bal .. | .beq .. | .bgez .. | .bgezal .. | .bgtz .. | .blez ..
  | .bltz .. | .bltzal .. | .bne .. | .j .. | .jal .. | .jalr .. | .jalrHb .. | .jr .. | .jrHb .. | .ehb | .nop
  | .ssnop | .lb .. | .lbu .. | .lh .. | .lhu .. | .ll .. | .lw .. | .lwl .. | .lwr .. | .pref .. | .sd .. | .sync ..
  | .synci .. | .and .. | .andi .. | .lui .. | .nor .. | .or .. | .ori .. | .xor .. | .xori .. | .ext .. | .ins ..
  | .wsbh .. | .movn .. | .movt .. | .movz .. | .mthi .. | .mtlo .. | .rdhwr .. | .rotr .. | .rotrv .. | .sll ..
  | .sllv .. | .sra .. | .srav .. | .srl .. | .srlv .. | .breakpoint .. | .syscall .. | .teq .. | .teqi .. | .tge ..
  | .tgei .. | .tgeiu .. | .tgeu .. | .tlt .. | .tlti .. | .tltiu .. | .tltu .. | .tne .. => false

/-- The instructions that write HI or LO (R33, R44). -/
def writesHiLo : Instr → Bool
  | .div .. | .divu .. | .mult .. | .multu .. | .madd .. | .maddu .. | .msub .. | .msubu .. | .mul .. | .mthi ..
  | .mtlo .. => true
  | .add .. | .addi .. | .addiu .. | .addu .. | .clo .. | .clz .. | .seb .. | .seh .. | .slt .. | .slti .. | .sltiu ..
  | .sltu .. | .sub .. | .subu .. | .b .. | .bal .. | .beq .. | .bgez .. | .bgezal .. | .bgtz .. | .blez ..
  | .bltz .. | .bltzal .. | .bne .. | .j .. | .jal .. | .jalr .. | .jalrHb .. | .jr .. | .jrHb .. | .ehb | .nop
  | .ssnop | .lb .. | .lbu .. | .lh .. | .lhu .. | .ll .. | .lw .. | .lwl .. | .lwr .. | .pref .. | .sb .. | .sc ..
  | .sh .. | .sd .. | .sw .. | .swl .. | .swr .. | .sync .. | .synci .. | .and .. | .andi .. | .lui .. | .nor ..
  | .or .. | .ori .. | .xor .. | .xori .. | .ext .. | .ins .. | .wsbh .. | .movn .. | .movt .. | .movz ..
  | .rdhwr .. | .rotr .. | .rotrv .. | .sll .. | .sllv .. | .sra .. | .srav .. | .srl .. | .srlv ..
  | .breakpoint .. | .syscall .. | .teq .. | .teqi .. | .tge .. | .tgei .. | .tgeiu .. | .tgeu .. | .tlt .. | .tlti ..
  | .tltiu .. | .tltu .. | .tne .. => false

/-- The two instructions that write LLbit or LLaddr (R38, R44). -/
def writesReservation : Instr → Bool
  | .ll .. | .sc .. => true
  | .add .. | .addi .. | .addiu .. | .addu .. | .clo .. | .clz .. | .div .. | .divu .. | .madd .. | .maddu ..
  | .msub .. | .msubu .. | .mul .. | .mult .. | .multu .. | .seb .. | .seh .. | .slt .. | .slti .. | .sltiu ..
  | .sltu .. | .sub .. | .subu .. | .b .. | .bal .. | .beq .. | .bgez .. | .bgezal .. | .bgtz .. | .blez ..
  | .bltz .. | .bltzal .. | .bne .. | .j .. | .jal .. | .jalr .. | .jalrHb .. | .jr .. | .jrHb .. | .ehb | .nop
  | .ssnop | .lb .. | .lbu .. | .lh .. | .lhu .. | .lw .. | .lwl .. | .lwr .. | .pref .. | .sb .. | .sh .. | .sd ..
  | .sw .. | .swl .. | .swr .. | .sync .. | .synci .. | .and .. | .andi .. | .lui .. | .nor .. | .or .. | .ori ..
  | .xor .. | .xori .. | .ext .. | .ins .. | .wsbh .. | .movn .. | .movt .. | .movz .. | .mthi .. | .mtlo ..
  | .rdhwr .. | .rotr .. | .rotrv .. | .sll .. | .sllv .. | .sra .. | .srav .. | .srl .. | .srlv ..
  | .breakpoint .. | .syscall .. | .teq .. | .teqi .. | .tge .. | .tgei .. | .tgeiu .. | .tgeu .. | .tlt .. | .tlti ..
  | .tltiu .. | .tltu .. | .tne .. => false

/-- The general register an instruction may write (R44): `rd` in the three-register forms, `rt` in the immediate forms
and loads, the link register of a link. -/
def destReg : Instr → Option Reg
  | .add rd .. | .addu rd .. | .clo rd .. | .clz rd .. | .mul rd .. | .seb rd .. | .seh rd .. | .slt rd .. | .sltu rd ..
  | .sub rd .. | .subu rd .. => some rd
  | .addi rt .. | .addiu rt .. | .slti rt .. | .sltiu rt .. => some rt
  | .bal .. | .bgezal .. | .bltzal .. | .jal .. => some 31#5
  | .jalr rd .. | .jalrHb rd .. => some rd
  | .lb rt .. | .lbu rt .. | .lh rt .. | .lhu rt .. | .ll rt .. | .lw rt .. | .lwl rt .. | .lwr rt .. | .sc rt .. => some rt
  | .and rd .. | .nor rd .. | .or rd .. | .xor rd .. | .wsbh rd .. | .movn rd .. | .movt rd .. | .movz rd .. => some rd
  | .andi rt .. | .lui rt .. | .ori rt .. | .xori rt .. | .ext rt .. | .ins rt .. | .rdhwr rt .. => some rt
  | .rotr rd .. | .rotrv rd .. | .sll rd .. | .sllv rd .. | .sra rd .. | .srav rd .. | .srl rd .. | .srlv rd .. => some rd
  | .div .. | .divu .. | .madd .. | .maddu .. | .msub .. | .msubu .. | .mult .. | .multu .. | .b .. | .beq ..
  | .bgez .. | .bgtz .. | .blez .. | .bltz .. | .bne .. | .j .. | .jr .. | .jrHb .. | .ehb | .nop | .ssnop | .pref ..
  | .sb .. | .sh .. | .sd .. | .sw .. | .swl .. | .swr .. | .sync .. | .synci .. | .mthi .. | .mtlo ..
  | .breakpoint .. | .syscall .. | .teq .. | .teqi .. | .tge .. | .tgei .. | .tgeiu .. | .tgeu .. | .tlt .. | .tlti ..
  | .tltiu .. | .tltu .. | .tne .. => none

/-- The register an instruction links to: 31, or the `rd` field of JALR and JALR.HB (R184). -/
def linkReg : Instr → Option Reg
  | .bal .. | .bgezal .. | .bltzal .. | .jal .. => some 31#5
  | .jalr rd .. | .jalrHb rd .. => some rd
  | .add .. | .addi .. | .addiu .. | .addu .. | .clo .. | .clz .. | .div .. | .divu .. | .madd .. | .maddu ..
  | .msub .. | .msubu .. | .mul .. | .mult .. | .multu .. | .seb .. | .seh .. | .slt .. | .slti .. | .sltiu ..
  | .sltu .. | .sub .. | .subu .. | .b .. | .beq .. | .bgez .. | .bgtz .. | .blez .. | .bltz .. | .bne .. | .j ..
  | .jr .. | .jrHb .. | .ehb | .nop | .ssnop | .lb .. | .lbu .. | .lh .. | .lhu .. | .ll .. | .lw .. | .lwl ..
  | .lwr .. | .pref .. | .sb .. | .sc .. | .sh .. | .sd .. | .sw .. | .swl .. | .swr .. | .sync .. | .synci ..
  | .and .. | .andi .. | .lui .. | .nor .. | .or .. | .ori .. | .xor .. | .xori .. | .ext .. | .ins .. | .wsbh ..
  | .movn .. | .movt .. | .movz .. | .mthi .. | .mtlo .. | .rdhwr .. | .rotr .. | .rotrv .. | .sll .. | .sllv ..
  | .sra .. | .srav .. | .srl .. | .srlv .. | .breakpoint .. | .syscall .. | .teq .. | .teqi .. | .tge .. | .tgei ..
  | .tgeiu .. | .tgeu .. | .tlt .. | .tlti .. | .tltiu .. | .tltu .. | .tne .. => none

/-- The exceptions an instruction may raise (R350, R352, R353(d)). -/
def mayRaise : Instr → Cause → Bool
  | .add .., c | .addi .., c | .sub .., c => c == .integerOverflow
  | .lh .., c | .lhu .., c | .lw .., c | .ll .., c => c == .addressErrorLoad
  | .sh .., c | .sw .., c | .sc .., c => c == .addressErrorStore
  | .rdhwr .., c => c == .reservedInstruction
  | .breakpoint .., c => c == .breakpoint
  | .syscall .., c => c == .systemCall
  | .teq .., c | .teqi .., c | .tge .., c | .tgei .., c | .tgeiu .., c | .tgeu .., c | .tlt .., c | .tlti .., c
  | .tltiu .., c | .tltu .., c | .tne .., c => c == .trap
  | .addiu .., _ | .addu .., _ | .clo .., _ | .clz .., _ | .div .., _ | .divu .., _ | .madd .., _ | .maddu .., _
  | .msub .., _ | .msubu .., _ | .mul .., _ | .mult .., _ | .multu .., _ | .seb .., _ | .seh .., _ | .slt .., _
  | .slti .., _ | .sltiu .., _ | .sltu .., _ | .subu .., _ | .b .., _ | .bal .., _ | .beq .., _ | .bgez .., _
  | .bgezal .., _ | .bgtz .., _ | .blez .., _ | .bltz .., _ | .bltzal .., _ | .bne .., _ | .j .., _ | .jal .., _
  | .jalr .., _ | .jalrHb .., _ | .jr .., _ | .jrHb .., _ | .ehb, _ | .nop, _ | .ssnop, _ | .lb .., _ | .lbu .., _
  | .lwl .., _ | .lwr .., _ | .pref .., _ | .sb .., _ | .sd .., _ | .swl .., _ | .swr .., _ | .sync .., _
  | .synci .., _ | .and .., _ | .andi .., _ | .lui .., _ | .nor .., _ | .or .., _ | .ori .., _ | .xor .., _
  | .xori .., _ | .ext .., _ | .ins .., _ | .wsbh .., _ | .movn .., _ | .movt .., _ | .movz .., _ | .mthi .., _
  | .mtlo .., _ | .rotr .., _ | .rotrv .., _ | .sll .., _ | .sllv .., _ | .sra .., _ | .srav .., _ | .srl .., _
  | .srlv .., _ => false

/-- The number MIPS32 gives a cause; no rule reads it (R354). -/
def causeCode : Cause → Nat
  | .addressErrorLoad | .addressErrorFetch => 4
  | .addressErrorStore => 5
  | .systemCall => 8
  | .breakpoint => 9
  | .reservedInstruction => 10
  | .integerOverflow => 12
  | .trap => 13

/-! ## What an instruction leaves unchanged -/

/-- Every general register but `d` reads as before. -/
def RegsSameBut (s t : State) (d : Reg) : Prop := ∀ r : Reg, r ≠ d → readReg t r = readReg s r

/-- Every general register reads as before. -/
def RegsSame (s t : State) : Prop := ∀ r : Reg, readReg t r = readReg s r

/-- HI and LO are as before. -/
def AccSame (s t : State) : Prop := t.hi = s.hi ∧ t.lo = s.lo

/-- Every byte of memory reads as before, and no word has become stale. -/
def MemSame (s t : State) : Prop := (∀ a : Word, memByte t a = memByte s a) ∧ t.stale = s.stale

/-- The reservation is as before. -/
def ReservationSame (s t : State) : Prop := t.llbit = s.llbit ∧ t.lladdr = s.lladdr

/-- The condition codes, the parameters and the outcome are as before. -/
def FixedSame (s t : State) : Prop := t.cc = s.cc ∧ t.params = s.params ∧ t.outcome = s.outcome

/-- The program counter has advanced as R35 says of an instruction that transfers no control. (Without delay slots npc and ds
mean nothing, R34, and nothing is said of them.) -/
def Advanced (s t : State) : Prop :=
  if s.params.delaySlots then t.pc = s.npc ∧ t.npc = s.npc + 4#32 ∧ t.ds = false
  else t.pc = s.pc + 4#32

/-- The program counter has moved as R180 says of a branch or jump to `target`, taken or not. (Without delay slots nothing is
said of npc and ds.) -/
def Transferred (s t : State) (taken : Prop) (target : Word) : Prop :=
  if s.params.delaySlots then
    t.pc = s.npc ∧ (taken → t.npc = target) ∧ (¬taken → t.npc = s.npc + 4#32) ∧ t.ds = true
  else
    (taken → t.pc = target) ∧ (¬taken → t.pc = s.pc + 4#32)

/-- The instruction writes `v` to register `d` (nothing to register 0), advances, and changes nothing else. -/
structure WritesReg (s t : State) (d : Reg) (v : Word) : Prop where
  dest        : readReg t d = if d = 0#5 then 0#32 else v
  others      : RegsSameBut s t d
  acc         : AccSame s t
  mem         : MemSame s t
  reservation : ReservationSame s t
  fixed       : FixedSame s t
  draws       : t.draws = s.draws
  pc          : Advanced s t

/-- The instruction writes HI and LO, advances, and changes nothing else. -/
structure WritesHiLo (s t : State) (h l : Word) : Prop where
  hi          : t.hi = h
  lo          : t.lo = l
  regs        : RegsSame s t
  mem         : MemSame s t
  reservation : ReservationSame s t
  fixed       : FixedSame s t
  draws       : t.draws = s.draws
  pc          : Advanced s t

/-- The instruction leaves two fresh free values in LO and HI (`draw(32)` twice, log 10), advances, and changes nothing else
of the spec's. -/
structure FreesHiLo (s t : State) : Prop where
  lo          : t.lo = Config.drawWord s.draws
  hi          : t.hi = Config.drawWord (s.draws + 1)
  draws       : t.draws = s.draws + 2
  regs        : RegsSame s t
  mem         : MemSame s t
  reservation : ReservationSame s t
  fixed       : FixedSame s t
  pc          : Advanced s t

/-- The instruction advances and changes nothing else. -/
structure OnlyAdvances (s t : State) : Prop where
  regs        : RegsSame s t
  acc         : AccSame s t
  mem         : MemSame s t
  reservation : ReservationSame s t
  fixed       : FixedSame s t
  draws       : t.draws = s.draws
  pc          : Advanced s t

/-- The instruction stores the bytes `bs` at rising addresses from `a`, advances, and changes nothing else: every byte
outside them reads as before, and the words that hold them become stale. -/
structure StoresBytes (s t : State) (a : Word) (bs : List Byte) : Prop where
  stored      : ∀ k : Nat, k < bs.length → bs[k]? = some (memByte t (a + BitVec.ofNat 32 k))
  elsewhere   : ∀ b : Word, (∀ k : Nat, k < bs.length → b ≠ a + BitVec.ofNat 32 k) → memByte t b = memByte s b
  stale       : ∀ n : Nat, n ∈ t.stale ↔
                  n ∈ s.stale ∨ ∃ k : Nat, k < bs.length ∧ n = (wordAddr (a + BitVec.ofNat 32 k)).toNat
  regs        : RegsSame s t
  acc         : AccSame s t
  reservation : ReservationSame s t
  fixed       : FixedSame s t
  draws       : t.draws = s.draws
  pc          : Advanced s t

/-- The instruction writes `v` to register `d` (nothing to register 0) and advances; memory, the condition codes and the
parameters are as before. Nothing is said of HI, LO and the reservation. -/
structure WritesRegAtLeast (s t : State) (d : Reg) (v : Word) : Prop where
  dest   : readReg t d = if d = 0#5 then 0#32 else v
  others : RegsSameBut s t d
  mem    : MemSame s t
  fixed  : FixedSame s t
  pc     : Advanced s t

/-- SC at `ea` has run (R231): with `ok` it has stored the old `rt` and written 1, without it it has stored nothing and
written 0; either way the reservation is gone. -/
structure ScDone (s t : State) (rt : Reg) (ea : Word) (ok : Bool) : Prop where
  dest   : readReg t rt = if rt = 0#5 then 0#32 else if ok then 1#32 else 0#32
  others : RegsSameBut s t rt
  stored : ok = true →
             (∀ k : Nat, k < 4 →
               (splitWord s.params.endian (readReg s rt))[k]? = some (memByte t (ea + BitVec.ofNat 32 k))) ∧
             (∀ b : Word, (∀ k : Nat, k < 4 → b ≠ ea + BitVec.ofNat 32 k) → memByte t b = memByte s b) ∧
             (∀ n : Nat, n ∈ t.stale ↔ n ∈ s.stale ∨ n = ea.toNat)
  kept   : ok = false → MemSame s t
  llbit  : t.llbit = false
  lladdr : t.lladdr = s.lladdr
  acc    : AccSame s t
  fixed  : FixedSame s t
  pc     : Advanced s t

/-- The branch or jump writes `v` to register `d` if it links (`link = some (d, v)`), transfers control, and changes
nothing else. -/
structure TransfersTo (s t : State) (link : Option (Reg × Word)) (taken : Prop) (target : Word) : Prop where
  regs        : ∀ r : Reg, readReg t r =
                  match link with
                  | none        => readReg s r
                  | some (d, v) => if r = d ∧ r ≠ 0#5 then v else readReg s r
  acc         : AccSame s t
  mem         : MemSame s t
  reservation : ReservationSame s t
  fixed       : FixedSame s t
  draws       : t.draws = s.draws
  pc          : Transferred s t taken target

/-- The record of R356: `epc` and `bd` name the branch before the instruction when it stands in a delay slot. -/
def expectedRecord (s : State) (cause : Cause) (why : Option Why) (badvaddr : Option Word) : Trapped where
  cause    := cause
  why      := why
  epc      := if s.params.delaySlots = true ∧ s.ds = true then s.pc - 4#32 else s.pc
  bd       := s.params.delaySlots && s.ds
  badvaddr := badvaddr

/-- The outcome `Trapped` of R356: the state is as before but for the record. -/
def TrapsWith (s t : State) (cause : Cause) (why : Option Why) (badvaddr : Option Word) : Prop :=
  t = { s with outcome := some (expectedRecord s cause why badvaddr) }

/-! ## The invariant -/

/-- The stale set in canonical form: aligned addresses of the space, strictly rising (R39, log 17). -/
def staleWf : List Nat → Bool
  | [] => true
  | n :: l => decide (n < 2 ^ 32) && decide (n % 4 = 0) && l.all (fun m => decide (n < m)) && staleWf l

/-- What every state of a run satisfies: register 0 holds zero (R31), memory and the stale set are canonical (R39, R41),
outside a delay slot npc is pc + 4 (R180), a reservation is for a word address (R225), and a final outcome names the
instruction at pc, or the branch before it (R356). -/
structure Inv (s : State) : Prop where
  regZero     : s.regs[0] = 0#32
  mem         : Memory.wf s.mem = true
  stale       : staleWf s.stale = true
  sequential  : s.params.delaySlots = true → s.ds = false → s.npc = s.pc + 4#32
  reservation : s.llbit = true → s.lladdr.toNat % 4 = 0
  outcome     : ∀ o, s.outcome = some o →
                  o.bd = (s.params.delaySlots && s.ds) ∧ o.epc = (if o.bd then s.pc - 4#32 else s.pc)

end Sys2Proof.Machine
end

