-- ==== Sys2Proof/Certificates/Slice0/Obligations.lean ====
section
/-!
DEFINITION. The statements for the provers, file by file of spec/. OBLIGATIONS.json gives each its rule or section.
As R70 asks: every statement about memory is a claim for runs in which `MEMMAP` maps each address the program uses
one-to-one (log 24).
-/

open Sys2Proof Sys2Proof.Machine

/-! ## Encoding (30_encoding.md) -/

/-- Decoding the encoding of a well-formed instruction gives it back: no operand bit is dropped, and no row is shadowed by
another (R101, R112, R113). -/
def Obligations.DecodeOfEncode : Prop :=
  ∀ i : Instr, i.wellFormed = true → decode (encode i) = .ok i

/-- Every word that decodes is the encoding of the instruction it decodes to, which is well formed: every bit of a word is
accounted for (R112, R114). -/
def Obligations.EncodeOfDecode : Prop :=
  ∀ (w : Word) (i : Instr), decode w = .ok i → encode i = w ∧ i.wellFormed = true

/-- The words that decode are exactly those that a row of R112 matches, and the row of the instruction is one that matches
(R112, R114, R116). -/
def Obligations.DecodesExactlyTheTable : Prop :=
  (∀ w : Word, (∃ i : Instr, decode w = .ok i) ↔ ∃ r ∈ opcodeTable, r.holds w) ∧
  (∀ (w : Word) (i : Instr), decode w = .ok i → (tableRow i).holds w)

/-- R113, which the spec derives from the table of R112: two rows of which neither is an alias of the other differ in a bit
of both masks; SRL and ROTR in bit 21, SRLV and ROTRV in bit 6, JR and JR.HB and JALR and JALR.HB in bit 10. -/
def Obligations.TableRowsDisjoint : Prop :=
  (∀ r ∈ opcodeTable, ∀ q ∈ opcodeTable,
    r ≠ q → r.aliasOf ≠ some q.mnemonic → q.aliasOf ≠ some r.mnemonic →
      ∃ b : Nat, b < 32 ∧ r.mask.getLsbD b = true ∧ q.mask.getLsbD b = true ∧ r.bits.getLsbD b ≠ q.bits.getLsbD b) ∧
  (opcodeTable.filterMap (fun r => r.aliasOf.map (fun a => (r.mnemonic, a))) =
    [("B", "BEQ"), ("BAL", "BGEZAL"), ("EHB", "SLL"), ("NOP", "SLL"), ("SSNOP", "SLL")]) ∧
  (∀ p ∈ [(tableRow (.srl 0 0 0), tableRow (.rotr 0 0 0), 21), (tableRow (.srlv 0 0 0), tableRow (.rotrv 0 0 0), 6),
      (tableRow (.jr 0), tableRow (.jrHb 0), 10), (tableRow (.jalr 0 0), tableRow (.jalrHb 0 0), 10)],
    p.1.mask.getLsbD p.2.2 = true ∧ p.2.1.mask.getLsbD p.2.2 = true ∧
      p.1.bits.getLsbD p.2.2 ≠ p.2.1.bits.getLsbD p.2.2)

/-- A word of each family decodes to the instruction whose row of R112 it matches, field by field; MFHI, which the spec does
not list, to none (R116). The words are examples of the rules. -/
def Obligations.DecodesTheSpecWords : Prop :=
  decode 0x00221820#32 = .ok (.add 3 1 2) ∧ decode 0x2022FFFF#32 = .ok (.addi 2 1 0xFFFF) ∧
  decode 0x14227FFF#32 = .ok (.bne 1 2 0x7FFF) ∧ decode 0x00A02409#32 = .ok (.jalrHb 4 5) ∧
  decode 0x000000C0#32 = .ok .ehb ∧ decode 0x8C22FFFC#32 = .ok (.lw 2 0xFFFC 1) ∧
  decode 0xE0220000#32 = .ok (.sc 2 0 1) ∧ decode 0x00221827#32 = .ok (.nor 3 1 2) ∧
  decode 0x7C225904#32 = .ok (.ins 2 1 11 4) ∧ decode 0x003D1801#32 = .ok (.movt 3 1 7) ∧
  decode 0x00221842#32 = .ok (.rotr 3 2 1) ∧ decode 0x0048D14D#32 = .ok (.breakpoint 0x12345) ∧
  decode 0x00001010#32 = .error .unlistedSpecial

/-- The five alias rows have the semantics of their core row with those field values (R112, R120). -/
def Obligations.AliasesRunAsTheirCoreInstruction : Prop :=
  ∀ (s : State) (off : Half),
    exec .nop s = exec (.sll 0 0 0) s ∧ exec .ssnop s = exec (.sll 0 0 1) s ∧ exec .ehb s = exec (.sll 0 0 3) s ∧
    exec (.b off) s = exec (.beq 0 0 off) s ∧ exec (.bal off) s = exec (.bgezal 0 off) s

/-! ## The step (10_state.md) -/

/-- When the run has not ended, pc is aligned and executable, its word is not stale, and the four bytes at pc decode to a
well-formed instruction, the step is that instruction's meaning in the same state (R42). -/
def Obligations.StepRunsDecodedInstruction : Prop :=
  ∀ (s : State) (i : Instr),
    s.outcome = none → s.pc.toNat % 4 = 0 → admitsAll s .exec s.pc 4 = true → (wordAddr s.pc).toNat ∉ s.stale →
    decode (joinWord s.params.endian (memByte s s.pc) (memByte s (s.pc + 1#32)) (memByte s (s.pc + 2#32))
      (memByte s (s.pc + 3#32))) = .ok i →
    i.wellFormed = true → step s = exec i s

/-- The other answers of a step, in the order of R42 and R355: no step leaves an ended run; a misaligned pc raises
AddressError(fetch) before anything else; then an inadmissible fetch is stuck; then a stale word faults; then an unlisted
word is refused. -/
def Obligations.StepStopsInOrder : Prop :=
  ∀ s : State,
    (s.outcome.isSome = true → step s = .fault .runEnded) ∧
    (s.outcome = none → s.pc.toNat % 4 ≠ 0 →
      ∃ t, step s = .next t ∧ TrapsWith s t .addressErrorFetch none (some s.pc)) ∧
    (s.outcome = none → s.pc.toNat % 4 = 0 → admitsAll s .exec s.pc 4 = false →
      step s = .fault (.fetchNotAdmitted s.pc)) ∧
    (s.outcome = none → s.pc.toNat % 4 = 0 → admitsAll s .exec s.pc 4 = true → (wordAddr s.pc).toNat ∈ s.stale →
      step s = .fault (.staleFetch s.pc)) ∧
    (∀ reason : Rejection,
      s.outcome = none → s.pc.toNat % 4 = 0 → admitsAll s .exec s.pc 4 = true → (wordAddr s.pc).toNat ∉ s.stale →
      decode (memWord s s.pc) = .error reason →
      step s = .refused (.unlistedWord reason (expectedRecord s .reservedInstruction (some .unlisted) none)))

/-- A word placed at an aligned, executable pc is the one the next step runs, and placing it changes no byte outside the
four at pc and nothing but memory and the stale mark of that word (the model's own operation, log 15). -/
def Obligations.PlacedWordRunsNext : Prop :=
  ∀ (s : State) (w : Nat) (i : Instr),
    Memory.wf s.mem = true → s.outcome = none → s.pc.toNat % 4 = 0 → admitsAll s .exec s.pc 4 = true →
    decode (BitVec.ofNat 32 w) = .ok i →
    step (s.withFetchWord 32 w) = exec i (s.withFetchWord 32 w) ∧
    (∀ a : Word, (∀ k : Nat, k < 4 → a ≠ s.pc + BitVec.ofNat 32 k) → memByte (s.withFetchWord 32 w) a = memByte s a) ∧
    s.withFetchWord 32 w =
      { s with mem := (s.withFetchWord 32 w).mem, stale := (s.withFetchWord 32 w).stale } ∧
    (∀ n : Nat, n ∈ (s.withFetchWord 32 w).stale ↔ n ∈ s.stale ∧ n ≠ s.pc.toNat)

/-- The reset state satisfies the invariant that every step keeps. -/
def Obligations.ResetInv : Prop := Inv State.reset

/-- What R45 and R391 fix of the state after reset: register 0, npc, ds, LLbit and the stale set; and no final outcome.
(That pc is 0xBFC00000, the other registers and memory zero, is the model's choice: logs 4 to 9.) -/
def Obligations.ResetValues : Prop :=
  readReg State.reset 0#5 = 0#32 ∧ State.reset.npc = State.reset.pc + 4#32 ∧ State.reset.pc.toNat % 4 = 0 ∧
  State.reset.ds = false ∧ State.reset.llbit = false ∧ State.reset.stale = [] ∧ State.reset.outcome = none

/-- Every step keeps the invariant: register 0 holds zero, memory and the stale set are canonical, outside a delay slot npc
is pc + 4, a reservation is for a word address, a final outcome names the instruction at pc or its branch. -/
def Obligations.StepKeepsInv : Prop :=
  ∀ s t : State, Inv s → step s = .next t → Inv t

/-- No step changes a parameter or a condition code (R5, R37, R40). -/
def Obligations.ParametersAndConditionCodesNeverChange : Prop :=
  ∀ s t : State, step s = .next t → t.params = s.params ∧ t.cc = s.cc

/-- A byte that a step changes lies in a stale word afterwards, no word stops being stale, and a stale word is never run:
the text of a program is immutable (R39, R75, R397). -/
def Obligations.WrittenWordsStayStale : Prop :=
  ∀ s t : State, step s = .next t →
    (∀ a : Word, memByte t a ≠ memByte s a → (wordAddr a).toNat ∈ t.stale) ∧
    (∀ n : Nat, n ∈ s.stale → n ∈ t.stale) ∧
    ((wordAddr t.pc).toNat ∈ t.stale → ∀ u : State, step t = .next u → u = { t with outcome := u.outcome })

/-- HI and LO never reach a general register, memory, pc, the reservation or a decision: two states that differ only in HI
and LO stop alike, or go to states that differ only in HI and LO (R33). The two states hold the same counter, so an RDHWR with
no fixed value and an SC with `SC_DRAW` take the same free value in both: that is the model's choice (log 10), and the statement
says nothing of two runs of the hardware whose free values differ. -/
def Obligations.HiLoNeverLeak : Prop :=
  ∀ (s : State) (h l : Word),
    (∀ t, step s = .next t → ∃ h' l' : Word, step { s with hi := h, lo := l } = .next { t with hi := h', lo := l' }) ∧
    (∀ f, step s = .fault f → step { s with hi := h, lo := l } = .fault f) ∧
    (∀ r, step s = .refused r → step { s with hi := h, lo := l } = .refused r)

/-- Exceptions are precise: a step that ends the run leaves every piece of state as it was, and the record names the
instruction at pc, or the branch before it when it stands in a delay slot (R356, R357). -/
def Obligations.ExceptionsArePrecise : Prop :=
  ∀ (s t : State) (o : Trapped), s.outcome = none → step s = .next t → t.outcome = some o →
    t = { s with outcome := some o } ∧
    o.bd = (s.params.delaySlots && s.ds) ∧ o.epc = (if o.bd = true then s.pc - 4#32 else s.pc)

/-- An instruction raises only the exceptions that R350, R352 and R353(d) give it; the address is recorded for an
AddressError alone, and a reason for ReservedInstruction alone. -/
def Obligations.CauseIsTheInstructions : Prop :=
  ∀ (i : Instr) (s t : State) (o : Trapped), s.outcome = none → exec i s = .next t → t.outcome = some o →
    mayRaise i o.cause = true ∧
    (o.badvaddr.isSome = true ↔ o.cause = .addressErrorLoad ∨ o.cause = .addressErrorStore) ∧
    o.why = (if o.cause = .reservedInstruction then some .hwrDisabled else none)

/-- An instruction that reaches a next state leaves every general register but its destination as it was (R44). -/
def Obligations.OnlyDestinationChanges : Prop :=
  ∀ (i : Instr) (s t : State) (r : Reg), exec i s = .next t → destReg i ≠ some r → readReg t r = readReg s r

/-- Memory and the stale set are written by the six stores alone, HI and LO by the multiplies, divides, MTHI and MTLO alone,
LLbit and LLaddr by LL and SC alone, the condition codes and parameters by none (R44). -/
def Obligations.OnlyTheListedInstructionsWrite : Prop :=
  ∀ (i : Instr) (s t : State), exec i s = .next t →
    (isStore i = false → t.mem = s.mem ∧ t.stale = s.stale) ∧
    (writesHiLo i = false → AccSame s t) ∧
    (writesReservation i = false → ReservationSame s t) ∧
    t.cc = s.cc ∧ t.params = s.params

/-- R31: register 0 reads as zero, and a write of it has no effect. -/
def Obligations.RegisterZero : Prop :=
  ∀ (s : State) (v : Word), readReg s 0#5 = 0#32 ∧ writeReg s 0#5 v = s

/-- Every instruction that is no branch or jump and raises nothing advances by one instruction (R35). -/
def Obligations.SequentialAdvance : Prop :=
  ∀ (i : Instr) (s t : State), isTransfer i = false → exec i s = .next t → t.outcome = none → Advanced s t

/-- With delay slots, the instruction after a branch or jump runs next, and the one after it is at the target when it is
taken and at pc + 8 when it is not; the one in the slot is no branch or jump (R180, R181). -/
def Obligations.DelaySlotThenTarget : Prop :=
  ∀ (s t u : State) (link : Option (Reg × Word)) (taken : Prop) (target : Word) (i : Instr),
    s.params.delaySlots = true → s.npc = s.pc + 4#32 → TransfersTo s t link taken target →
    exec i t = .next u → u.outcome = none →
    t.pc = s.pc + 4#32 ∧ t.ds = true ∧ isTransfer i = false ∧
    (taken → u.pc = target ∧ u.npc = target + 4#32) ∧ (¬taken → u.pc = s.pc + 8#32 ∧ u.npc = s.pc + 12#32) ∧
    u.ds = false

/-! ## Arithmetic (40_arithmetic.md) -/

/-- ADD, ADDI, SUB: the exact signed sum or difference goes to the destination when it fits 32 bits, and raises
IntegerOverflow with nothing written when it does not, whatever the destination (R140, R141, R142, R162). -/
def Obligations.AddAddiSub : Prop :=
  ∀ (s : State) (d rs rt : Reg) (imm : Half),
    (∀ x : Int, x = (readReg s rs).toInt + (readReg s rt).toInt →
      (-2 ^ 31 ≤ x ∧ x ≤ 2 ^ 31 - 1 → ∃ t, exec (.add d rs rt) s = .next t ∧ WritesReg s t d (BitVec.ofInt 32 x)) ∧
      (x < -2 ^ 31 ∨ 2 ^ 31 - 1 < x →
        ∃ t, exec (.add d rs rt) s = .next t ∧ TrapsWith s t .integerOverflow none none)) ∧
    (∀ x : Int, x = (readReg s rs).toInt + imm.toInt →
      (-2 ^ 31 ≤ x ∧ x ≤ 2 ^ 31 - 1 → ∃ t, exec (.addi d rs imm) s = .next t ∧ WritesReg s t d (BitVec.ofInt 32 x)) ∧
      (x < -2 ^ 31 ∨ 2 ^ 31 - 1 < x →
        ∃ t, exec (.addi d rs imm) s = .next t ∧ TrapsWith s t .integerOverflow none none)) ∧
    (∀ x : Int, x = (readReg s rs).toInt - (readReg s rt).toInt →
      (-2 ^ 31 ≤ x ∧ x ≤ 2 ^ 31 - 1 → ∃ t, exec (.sub d rs rt) s = .next t ∧ WritesReg s t d (BitVec.ofInt 32 x)) ∧
      (x < -2 ^ 31 ∨ 2 ^ 31 - 1 < x →
        ∃ t, exec (.sub d rs rt) s = .next t ∧ TrapsWith s t .integerOverflow none none))

/-- ADDU, ADDIU, SUBU: the sum or difference mod 2^32, with the immediate of ADDIU sign-extended, and never an exception
(R143, R144, R163). -/
def Obligations.AdduAddiuSubu : Prop :=
  ∀ (s : State) (d rs rt : Reg) (imm : Half),
    (∃ t, exec (.addu d rs rt) s = .next t ∧
      WritesReg s t d (BitVec.ofNat 32 ((readReg s rs).toNat + (readReg s rt).toNat))) ∧
    (∃ t, exec (.addiu d rs imm) s = .next t ∧
      WritesReg s t d (BitVec.ofInt 32 ((readReg s rs).toNat + imm.toInt))) ∧
    (∃ t, exec (.subu d rs rt) s = .next t ∧
      WritesReg s t d (BitVec.ofInt 32 ((readReg s rs).toNat - (readReg s rt).toNat)))

/-- CLO and CLZ with the two fields equal: the number of ones, or zeros, before the first other bit from bit 31 down (R145,
R146). -/
def Obligations.CountLeading : Prop :=
  ∀ (s : State) (rd rs : Reg) (b : Bool), ∃ n : Nat, n ≤ 32 ∧
    (∀ j : Nat, j < n → (readReg s rs).getLsbD (31 - j) = b) ∧
    (n < 32 → (readReg s rs).getLsbD (31 - n) = !b) ∧
    ∃ t, exec (if b then .clo rd rs rd else .clz rd rs rd) s = .next t ∧ WritesReg s t rd (BitVec.ofNat 32 n)

/-- DIV and DIVU: dividend = quotient * divisor + remainder, the remainder smaller than the divisor and with the sign of the
dividend; quotient to LO, remainder to HI, mod 2^32. A zero divisor leaves a free value in each of LO and HI (log 10) and
changes nothing else. No exception (R147, R148). -/
def Obligations.Divide : Prop :=
  ∀ (s : State) (rs rt : Reg),
    (readReg s rt ≠ 0#32 → ∃ q r : Int,
      (readReg s rs).toInt = q * (readReg s rt).toInt + r ∧ r.natAbs < (readReg s rt).toInt.natAbs ∧
      (0 ≤ (readReg s rs).toInt → 0 ≤ r) ∧ ((readReg s rs).toInt ≤ 0 → r ≤ 0) ∧
      ∃ t, exec (.div rs rt) s = .next t ∧ WritesHiLo s t (BitVec.ofInt 32 r) (BitVec.ofInt 32 q)) ∧
    (readReg s rt ≠ 0#32 → ∃ q r : Nat,
      (readReg s rs).toNat = q * (readReg s rt).toNat + r ∧ r < (readReg s rt).toNat ∧
      ∃ t, exec (.divu rs rt) s = .next t ∧ WritesHiLo s t (BitVec.ofNat 32 r) (BitVec.ofNat 32 q)) ∧
    (readReg s rt = 0#32 → ∃ t, exec (.div rs rt) s = .next t ∧ FreesHiLo s t) ∧
    (readReg s rt = 0#32 → ∃ t, exec (.divu rs rt) s = .next t ∧ FreesHiLo s t)

/-- The rows of the table of signed division (R165), dividend = LO * divisor + HI mod 2^32 for every other divisor but zero,
and for a zero divisor a free value in each of LO and HI (that LO takes the first value of the counter and HI the next is the
model's choice, log 10). -/
def Obligations.SignedDivisionTable : Prop :=
  ∀ (s : State) (rs rt : Reg),
    (∀ row ∈ ([(7, 2, 3, 1), (-7, 2, -3, -1), (7, -2, -3, 1), (-7, -2, 3, -1), (-2147483648, -1, -2147483648, 0),
        (3, 7, 0, 3)] : List (Int × Int × Int × Int)),
      readReg s rs = BitVec.ofInt 32 row.1 → readReg s rt = BitVec.ofInt 32 row.2.1 →
        ∃ t, exec (.div rs rt) s = .next t ∧ t.lo = BitVec.ofInt 32 row.2.2.1 ∧ t.hi = BitVec.ofInt 32 row.2.2.2) ∧
    (readReg s rt = 0#32 → ∃ t, exec (.div rs rt) s = .next t ∧ FreesHiLo s t) ∧
    (readReg s rt ≠ 0#32 →
      ∃ t, exec (.div rs rt) s = .next t ∧ readReg s rs = t.lo * readReg s rt + t.hi)

/-- MADD, MADDU, MSUB, MSUBU: the exact product is added to, or subtracted from, the 64-bit value HI || LO, mod 2^64 (R149
to R152). -/
def Obligations.MultiplyAccumulate : Prop :=
  ∀ (s : State) (rs rt : Reg) (acc : Int), acc = s.hi.toNat * 2 ^ 32 + s.lo.toNat →
    (∀ x : Int, x = acc + (readReg s rs).toInt * (readReg s rt).toInt →
      ∃ t, exec (.madd rs rt) s = .next t ∧ WritesHiLo s t (BitVec.ofInt 32 (x / 2 ^ 32)) (BitVec.ofInt 32 x)) ∧
    (∀ x : Int, x = acc + (readReg s rs).toNat * (readReg s rt).toNat →
      ∃ t, exec (.maddu rs rt) s = .next t ∧ WritesHiLo s t (BitVec.ofInt 32 (x / 2 ^ 32)) (BitVec.ofInt 32 x)) ∧
    (∀ x : Int, x = acc - (readReg s rs).toInt * (readReg s rt).toInt →
      ∃ t, exec (.msub rs rt) s = .next t ∧ WritesHiLo s t (BitVec.ofInt 32 (x / 2 ^ 32)) (BitVec.ofInt 32 x)) ∧
    (∀ x : Int, x = acc - (readReg s rs).toNat * (readReg s rt).toNat →
      ∃ t, exec (.msubu rs rt) s = .next t ∧ WritesHiLo s t (BitVec.ofInt 32 (x / 2 ^ 32)) (BitVec.ofInt 32 x))

/-- MULT and MULTU: the exact 64-bit product, its high word to HI and its low word to LO (R154, R155). -/
def Obligations.MultiplyToHiLo : Prop :=
  ∀ (s : State) (rs rt : Reg),
    (∀ x : Int, x = (readReg s rs).toInt * (readReg s rt).toInt →
      ∃ t, exec (.mult rs rt) s = .next t ∧ WritesHiLo s t (BitVec.ofInt 32 (x / 2 ^ 32)) (BitVec.ofInt 32 x)) ∧
    (∀ x : Int, x = (readReg s rs).toNat * (readReg s rt).toNat →
      ∃ t, exec (.multu rs rt) s = .next t ∧ WritesHiLo s t (BitVec.ofInt 32 (x / 2 ^ 32)) (BitVec.ofInt 32 x))

/-- MUL: the low word of the signed product goes to `rd`; HI and LO hold the whole product when `MUL_HILO` is product, and a
free value each when it is unpredictable (R153, log 10). -/
def Obligations.MulToRegister : Prop :=
  ∀ (s : State) (rd rs rt : Reg) (x : Int), x = (readReg s rs).toInt * (readReg s rt).toInt →
    ∃ t, exec (.mul rd rs rt) s = .next t ∧ WritesRegAtLeast s t rd (BitVec.ofInt 32 x) ∧ ReservationSame s t ∧
      (s.params.mulHilo = .product →
        t.hi = BitVec.ofInt 32 (x / 2 ^ 32) ∧ t.lo = BitVec.ofInt 32 x ∧ t.draws = s.draws) ∧
      (s.params.mulHilo = .unpredictable →
        t.lo = Config.drawWord s.draws ∧ t.hi = Config.drawWord (s.draws + 1) ∧ t.draws = s.draws + 2)

/-- SEB and SEH: the low byte or halfword of `rt`, read as a signed number (R156, R157). -/
def Obligations.SignExtendRegister : Prop :=
  ∀ (s : State) (rd rt : Reg),
    (∃ v t, exec (.seb rd rt) s = .next t ∧ WritesReg s t rd v ∧
      ∀ k : Nat, k < 32 → v.getLsbD k = (readReg s rt).getLsbD (min k 7)) ∧
    (∃ v t, exec (.seh rd rt) s = .next t ∧ WritesReg s t rd v ∧
      ∀ k : Nat, k < 32 → v.getLsbD k = (readReg s rt).getLsbD (min k 15))

/-- SLT and SLTI compare as signed, SLTU and SLTIU as unsigned, the immediates sign-extended in both; 1 when less, else 0
(R158 to R161). -/
def Obligations.SetOnLessThan : Prop :=
  ∀ (s : State) (d rs rt : Reg) (imm : Half),
    (∃ t, exec (.slt d rs rt) s = .next t ∧
      WritesReg s t d (if (readReg s rs).toInt < (readReg s rt).toInt then 1#32 else 0#32)) ∧
    (∃ t, exec (.slti d rs imm) s = .next t ∧
      WritesReg s t d (if (readReg s rs).toInt < imm.toInt then 1#32 else 0#32)) ∧
    (∃ t, exec (.sltu d rs rt) s = .next t ∧
      WritesReg s t d (if (readReg s rs).toNat < (readReg s rt).toNat then 1#32 else 0#32)) ∧
    (∃ t, exec (.sltiu d rs imm) s = .next t ∧
      WritesReg s t d (if ((readReg s rs).toNat : Int) < imm.toInt % 2 ^ 32 then 1#32 else 0#32))

/-! ## Branch and jump (41_branch_jump.md) -/

/-- B, BEQ, BNE, BGEZ, BGTZ, BLEZ, BLTZ outside a delay slot: taken exactly when the condition holds, to the target of R182,
with the delay slot of R180 (R185, R187, R188, R190 to R192, R194). -/
def Obligations.ConditionalBranches : Prop :=
  ∀ (s : State) (rs rt : Reg) (off : Half), ¬(s.params.delaySlots = true ∧ s.ds = true) →
    (∃ t, exec (.b off) s = .next t ∧ TransfersTo s t none True (branchTarget s off)) ∧
    (∃ t, exec (.beq rs rt off) s = .next t ∧
      TransfersTo s t none (readReg s rs = readReg s rt) (branchTarget s off)) ∧
    (∃ t, exec (.bne rs rt off) s = .next t ∧
      TransfersTo s t none (readReg s rs ≠ readReg s rt) (branchTarget s off)) ∧
    (∃ t, exec (.bgez rs off) s = .next t ∧ TransfersTo s t none (0 ≤ (readReg s rs).toInt) (branchTarget s off)) ∧
    (∃ t, exec (.bgtz rs off) s = .next t ∧ TransfersTo s t none (0 < (readReg s rs).toInt) (branchTarget s off)) ∧
    (∃ t, exec (.blez rs off) s = .next t ∧ TransfersTo s t none ((readReg s rs).toInt ≤ 0) (branchTarget s off)) ∧
    (∃ t, exec (.bltz rs off) s = .next t ∧ TransfersTo s t none ((readReg s rs).toInt < 0) (branchTarget s off))

/-- BAL, and BGEZAL and BLTZAL on a register other than 31, outside a delay slot: the link goes to register 31 whether or
not the branch is taken (R184, R186, R189, R193). -/
def Obligations.LinkingBranches : Prop :=
  ∀ (s : State) (rs : Reg) (off : Half), ¬(s.params.delaySlots = true ∧ s.ds = true) →
    (∃ t, exec (.bal off) s = .next t ∧ TransfersTo s t (some (31#5, linkValue s)) True (branchTarget s off)) ∧
    (rs ≠ 31#5 → ∃ t, exec (.bgezal rs off) s = .next t ∧
      TransfersTo s t (some (31#5, linkValue s)) (0 ≤ (readReg s rs).toInt) (branchTarget s off)) ∧
    (rs ≠ 31#5 → ∃ t, exec (.bltzal rs off) s = .next t ∧
      TransfersTo s t (some (31#5, linkValue s)) ((readReg s rs).toInt < 0) (branchTarget s off))

/-- The target of a branch counts instructions, signed, from the address after the branch, mod 2^32; it is a multiple of 4
when pc is, the offset -1 is the branch itself, and the range is -131072 to +131068 from pc + 4 (R182). -/
def Obligations.BranchTarget : Prop :=
  ∀ (s : State) (off : Half),
    branchTarget s off = BitVec.ofInt 32 ((s.pc.toNat : Int) + 4 + 4 * off.toInt) ∧
    (s.pc.toNat % 4 = 0 → (branchTarget s off).toNat % 4 = 0) ∧
    branchTarget s 0xFFFF#16 = s.pc ∧
    (∃ d : Int, -131072 ≤ d ∧ d ≤ 131068 ∧ branchTarget s off = s.pc + 4#32 + BitVec.ofInt 32 d)

/-- J and JAL outside a delay slot: the target is the 26-bit index, times 4, in the 256 MiB region of pc + 4; JAL links to
register 31 (R183, R195, R196). -/
def Obligations.JumpsAndTheirTarget : Prop :=
  ∀ (s : State) (index : BitVec 26), ∃ target : Word,
    target.extractLsb' 28 4 = (s.pc + 4#32).extractLsb' 28 4 ∧ target.extractLsb' 2 26 = index ∧
    target.extractLsb' 0 2 = 0#2 ∧
    (¬(s.params.delaySlots = true ∧ s.ds = true) →
      (∃ t, exec (.j index) s = .next t ∧ TransfersTo s t none True target) ∧
      (∃ t, exec (.jal index) s = .next t ∧ TransfersTo s t (some (31#5, linkValue s)) True target))

/-- JR, JR.HB, JALR and JALR.HB outside a delay slot: to the whole value of `rs`, read before the link is written; the link
goes to `rd`, which must not be `rs` (R197 to R200). -/
def Obligations.JumpRegister : Prop :=
  ∀ (s : State) (rd rs : Reg), ¬(s.params.delaySlots = true ∧ s.ds = true) →
    (∃ t, exec (.jr rs) s = .next t ∧ TransfersTo s t none True (readReg s rs)) ∧
    (∃ t, exec (.jrHb rs) s = .next t ∧ TransfersTo s t none True (readReg s rs)) ∧
    (rd ≠ rs → ∃ t, exec (.jalr rd rs) s = .next t ∧
      TransfersTo s t (some (rd, linkValue s)) True (readReg s rs)) ∧
    (rd ≠ rs → ∃ t, exec (.jalrHb rd rs) s = .next t ∧
      TransfersTo s t (some (rd, linkValue s)) True (readReg s rs))

/-- R184: the link is pc + 8 with delay slots and pc + 4 without, in register 31 for BAL, BGEZAL, BLTZAL and JAL and in `rd`
for JALR and JALR.HB, written by the instruction itself, taken or not. -/
def Obligations.LinkValue : Prop :=
  ∀ (i : Instr) (d : Reg) (s t : State), linkReg i = some d → exec i s = .next t →
    readReg t d = if d = 0#5 then 0#32 else if s.params.delaySlots = true then s.pc + 8#32 else s.pc + 4#32

/-- R181: with delay slots, each of the sixteen branches and jumps faults in a delay slot, and sets ds whether or not it is
taken; without delay slots none faults so. -/
def Obligations.TransferInDelaySlotFaults : Prop :=
  ∀ (i : Instr) (s : State), isTransfer i = true →
    (s.params.delaySlots = true → s.ds = true → exec i s = .fault .branchInDelaySlot) ∧
    (s.params.delaySlots = true → ∀ t, exec i s = .next t → t.ds = true) ∧
    (s.params.delaySlots = false → exec i s ≠ .fault .branchInDelaySlot)

/-- R115: CLO and CLZ whose two fields differ, EXT and INS whose field leaves the register, JALR and JALR.HB whose link is
their source, BGEZAL and BLTZAL on register 31 fault (the last four outside a delay slot, where R181 comes first); an
instruction that keeps the constraints never faults so. -/
def Obligations.ConstraintViolationsFault : Prop :=
  (∀ (s : State) (rd rs rt : Reg), rt ≠ rd →
    exec (.clo rd rs rt) s = .fault .countRegistersDiffer ∧ exec (.clz rd rs rt) s = .fault .countRegistersDiffer) ∧
  (∀ (s : State) (rt rs : Reg) (m l : BitVec 5),
    (31 < l.toNat + m.toNat → exec (.ext rt rs m l) s = .fault .bitFieldOutOfRange) ∧
    (m.toNat < l.toNat → exec (.ins rt rs m l) s = .fault .bitFieldOutOfRange)) ∧
  (∀ (s : State) (rs : Reg) (off : Half), ¬(s.params.delaySlots = true ∧ s.ds = true) →
    exec (.jalr rs rs) s = .fault .linkRegisterIsSource ∧ exec (.jalrHb rs rs) s = .fault .linkRegisterIsSource ∧
    exec (.bgezal 31 off) s = .fault .linkRegisterIsSource ∧ exec (.bltzal 31 off) s = .fault .linkRegisterIsSource) ∧
  (∀ (i : Instr) (s : State), i.constraintsHold = true → exec i s ≠ .fault .countRegistersDiffer ∧
    exec i s ≠ .fault .bitFieldOutOfRange ∧ exec i s ≠ .fault .linkRegisterIsSource)

/-! ## Control, loads and stores (42_control.md, 43_load_store.md, 20_memory.md) -/

/-- EHB, NOP, SSNOP, SYNC with any stype and PREF with any hint and address only advance; so does SYNCI when its byte is in
`MEMMAP`, and it is stuck when it is not (R210 to R212, R229, R237, R238; that a byte listed with no mark counts as in `MEMMAP`
is the model's choice, log 23). -/
def Obligations.NoEffectInstructions : Prop :=
  ∀ (s : State) (stype hint : BitVec 5) (off : Half) (base : Reg),
    (∃ t, exec .ehb s = .next t ∧ OnlyAdvances s t) ∧ (∃ t, exec .nop s = .next t ∧ OnlyAdvances s t) ∧
    (∃ t, exec .ssnop s = .next t ∧ OnlyAdvances s t) ∧ (∃ t, exec (.sync stype) s = .next t ∧ OnlyAdvances s t) ∧
    (∃ t, exec (.pref hint off base) s = .next t ∧ OnlyAdvances s t) ∧
    (present s (effectiveAddr s off base) = true → ∃ t, exec (.synci off base) s = .next t ∧ OnlyAdvances s t) ∧
    (present s (effectiveAddr s off base) = false →
      exec (.synci off base) s = .fault (.synciNotAdmitted (effectiveAddr s off base)))

/-- The effective address is base plus signed offset, mod 2^32; LB, LBU, LH, LHU at an admitted address (even, for a
halfword) extend the byte or the halfword by sign or by zeros (R220 to R224). -/
def Obligations.SubwordLoads : Prop :=
  ∀ (s : State) (rt base : Reg) (off : Half) (ea : Word),
    ea = BitVec.ofInt 32 ((readReg s base).toNat + off.toInt) →
    (admitsAll s .read ea 1 = true →
      (∃ t, exec (.lb rt off base) s = .next t ∧ WritesReg s t rt (BitVec.ofInt 32 (memByte s ea).toInt)) ∧
      (∃ t, exec (.lbu rt off base) s = .next t ∧ WritesReg s t rt (BitVec.ofNat 32 (memByte s ea).toNat))) ∧
    (ea.toNat % 2 = 0 → admitsAll s .read ea 2 = true →
      (∃ t, exec (.lh rt off base) s = .next t ∧
        WritesReg s t rt (BitVec.ofInt 32 (joinHalf s.params.endian (memByte s ea) (memByte s (ea + 1#32))).toInt)) ∧
      (∃ t, exec (.lhu rt off base) s = .next t ∧
        WritesReg s t rt (BitVec.ofNat 32 (joinHalf s.params.endian (memByte s ea) (memByte s (ea + 1#32))).toNat)))

/-- LW and LL at an aligned, admitted address load the four bytes there; LL also sets the reservation to that address (R225,
R226). -/
def Obligations.WordLoads : Prop :=
  ∀ (s : State) (rt base : Reg) (off : Half) (ea v : Word),
    ea = effectiveAddr s off base → ea.toNat % 4 = 0 → admitsAll s .read ea 4 = true →
    v = joinWord s.params.endian (memByte s ea) (memByte s (ea + 1#32)) (memByte s (ea + 2#32)) (memByte s (ea + 3#32)) →
    (∃ t, exec (.lw rt off base) s = .next t ∧ WritesReg s t rt v) ∧
    (∃ t, exec (.ll rt off base) s = .next t ∧ WritesRegAtLeast s t rt v ∧ AccSame s t ∧ t.draws = s.draws ∧
      t.llbit = true ∧ t.lladdr = ea)

/-- LWL and LWR at any address whose aligned word is admitted, byte by byte: LWL fills the register from its most
significant end with the bytes of the unaligned word that lie in the aligned word, LWR from its least significant end, and
the other bytes of the register stay (R227, R228). -/
def Obligations.LoadLeftAndRight : Prop :=
  ∀ (s : State) (rt base : Reg) (off : Half) (ea : Word),
    ea = effectiveAddr s off base → admitsAll s .read (wordAddr ea) 4 = true →
    (∃ v t, exec (.lwl rt off base) s = .next t ∧ WritesReg s t rt v ∧
      ∀ j : Nat, j < 4 → v.extractLsb' (8 * (3 - j)) 8 =
        match s.params.endian with
        | .big    => if ea.toNat % 4 + j < 4 then memByte s (ea + BitVec.ofNat 32 j)
                     else (readReg s rt).extractLsb' (8 * (3 - j)) 8
        | .little => if j ≤ ea.toNat % 4 then memByte s (ea - BitVec.ofNat 32 j)
                     else (readReg s rt).extractLsb' (8 * (3 - j)) 8) ∧
    (∃ v t, exec (.lwr rt off base) s = .next t ∧ WritesReg s t rt v ∧
      ∀ j : Nat, j < 4 → v.extractLsb' (8 * j) 8 =
        match s.params.endian with
        | .big    => if j ≤ ea.toNat % 4 then memByte s (ea - BitVec.ofNat 32 j)
                     else (readReg s rt).extractLsb' (8 * j) 8
        | .little => if ea.toNat % 4 + j < 4 then memByte s (ea + BitVec.ofNat 32 j)
                     else (readReg s rt).extractLsb' (8 * j) 8)

/-- R239, which the spec derives from R227, R228, R235 and R236: the pair of unaligned loads, or stores, moves the four
bytes from any address A as an unaligned word access would: left then right at A and A + 3 in big order, right then left at
A and A + 3 in little order. The second instruction of the pair runs in the state the first left. (That SWR needs its whole
aligned word writable is the model's choice, log 22.) -/
def Obligations.UnalignedPair : Prop :=
  ∀ (s : State) (rt base : Reg) (a : Word), a = readReg s base →
    (rt ≠ 0#5 → rt ≠ base → admitsAll s .read (wordAddr a) 4 = true → admitsAll s .read (wordAddr (a + 3#32)) 4 = true →
      ∃ t u,
        exec (if s.params.endian = .big then .lwl rt 0 base else .lwr rt 0 base) s = .next t ∧
        exec (if s.params.endian = .big then .lwr rt 3 base else .lwl rt 3 base) t = .next u ∧
        readReg u rt = joinWord s.params.endian (memByte s a) (memByte s (a + 1#32)) (memByte s (a + 2#32))
          (memByte s (a + 3#32))) ∧
    (Memory.wf s.mem = true → admitsAll s .write (wordAddr a) 4 = true →
      admitsAll s .write (wordAddr (a + 3#32)) 4 = true →
      ∃ t u,
        exec (if s.params.endian = .big then .swl rt 0 base else .swr rt 0 base) s = .next t ∧
        exec (if s.params.endian = .big then .swr rt 3 base else .swl rt 3 base) t = .next u ∧
        readReg s rt = joinWord s.params.endian (memByte u a) (memByte u (a + 1#32)) (memByte u (a + 2#32))
          (memByte u (a + 3#32)) ∧
        ∀ b : Word, (∀ k : Nat, k < 4 → b ≠ a + BitVec.ofNat 32 k) → memByte u b = memByte s b)

/-- SB, SH, SW at an admitted, aligned address store the low byte, halfword or word of `rt` in the byte order of `ENDIAN`,
and make the word stale (R61, R230, R232, R234). -/
def Obligations.AlignedStores : Prop :=
  ∀ (s : State) (rt base : Reg) (off : Half) (ea v : Word), Memory.wf s.mem = true →
    ea = effectiveAddr s off base → v = readReg s rt →
    (admitsAll s .write ea 1 = true →
      ∃ t, exec (.sb rt off base) s = .next t ∧ StoresBytes s t ea [v.extractLsb' 0 8]) ∧
    (ea.toNat % 2 = 0 → admitsAll s .write ea 2 = true →
      ∃ t, exec (.sh rt off base) s = .next t ∧ StoresBytes s t ea
        (if s.params.endian = .big then [v.extractLsb' 8 8, v.extractLsb' 0 8]
         else [v.extractLsb' 0 8, v.extractLsb' 8 8])) ∧
    (ea.toNat % 4 = 0 → admitsAll s .write ea 4 = true →
      ∃ t, exec (.sw rt off base) s = .next t ∧ StoresBytes s t ea
        (if s.params.endian = .big then
          [v.extractLsb' 24 8, v.extractLsb' 16 8, v.extractLsb' 8 8, v.extractLsb' 0 8]
         else [v.extractLsb' 0 8, v.extractLsb' 8 8, v.extractLsb' 16 8, v.extractLsb' 24 8]))

/-- SWL and SWR at any address whose aligned word is writable: what is stored where, and nothing else; and the aligned word
afterwards by the word form of R235 and R236. (That SWR needs the whole word writable is the model's choice, log 22.) -/
def Obligations.StoreLeftAndRight : Prop :=
  ∀ (s : State) (rt base : Reg) (off : Half) (ea a v w : Word) (k : Nat), Memory.wf s.mem = true →
    ea = effectiveAddr s off base → a = wordAddr ea → k = ea.toNat % 4 → v = readReg s rt → w = memWord s a →
    admitsAll s .write a 4 = true →
    (∃ t, exec (.swl rt off base) s = .next t ∧
      StoresBytes s t (storeLeftAddr s.params.endian ea) (storeLeftBytes s.params.endian k v) ∧
      memWord t a = match s.params.endian with
        | .big    => (w &&& ~~~(0xFFFFFFFF#32 >>> (8 * k))) ||| (v >>> (8 * k))
        | .little => (w &&& ~~~(0xFFFFFFFF#32 >>> (8 * (3 - k)))) ||| (v >>> (8 * (3 - k)))) ∧
    (∃ t, exec (.swr rt off base) s = .next t ∧
      StoresBytes s t (storeRightAddr s.params.endian ea) (storeRightBytes s.params.endian k v) ∧
      memWord t a = match s.params.endian with
        | .big    => (v <<< (8 * (3 - k))) ||| (w &&& BitVec.ofNat 32 (2 ^ (8 * (3 - k)) - 1))
        | .little => (v <<< (8 * k)) ||| (w &&& BitVec.ofNat 32 (2 ^ (8 * k) - 1)))

/-- SC at an aligned address: without a reservation it stores nothing and answers 0; with one for another address it faults,
before admission; with one for this address it succeeds, or with `SC_DRAW` succeeds or fails by a free bit (log 10). The
reservation is gone in every case that completes (R231). -/
def Obligations.StoreConditional : Prop :=
  ∀ (s : State) (rt base : Reg) (off : Half) (ea : Word), Memory.wf s.mem = true →
    ea = effectiveAddr s off base → ea.toNat % 4 = 0 →
    (s.llbit = true → ea ≠ s.lladdr → exec (.sc rt off base) s = .fault .scAddressMismatch) ∧
    (s.llbit = false → admitsAll s .write ea 4 = true →
      ∃ t, exec (.sc rt off base) s = .next t ∧ ScDone s t rt ea false ∧ t.draws = s.draws) ∧
    (s.llbit = true → ea = s.lladdr → admitsAll s .write ea 4 = true →
      (s.params.scDraw = false → ∃ t, exec (.sc rt off base) s = .next t ∧ ScDone s t rt ea true ∧ t.draws = s.draws) ∧
      (s.params.scDraw = true → ∃ t, exec (.sc rt off base) s = .next t ∧
        ScDone s t rt ea (Config.drawBit s.draws) ∧ t.draws = s.draws + 1))

/-- LH, LHU and SH at an odd address, LW, LL, SW and SC at an address that is no multiple of 4, raise AddressError with that
address and write nothing, whether or not `MEMMAP` admits it (R64, R352). -/
def Obligations.MisalignedAccessRaises : Prop :=
  ∀ (s : State) (rt base : Reg) (off : Half) (ea : Word), ea = effectiveAddr s off base →
    (ea.toNat % 2 ≠ 0 →
      (∃ t, exec (.lh rt off base) s = .next t ∧ TrapsWith s t .addressErrorLoad none (some ea)) ∧
      (∃ t, exec (.lhu rt off base) s = .next t ∧ TrapsWith s t .addressErrorLoad none (some ea)) ∧
      (∃ t, exec (.sh rt off base) s = .next t ∧ TrapsWith s t .addressErrorStore none (some ea))) ∧
    (ea.toNat % 4 ≠ 0 →
      (∃ t, exec (.lw rt off base) s = .next t ∧ TrapsWith s t .addressErrorLoad none (some ea)) ∧
      (∃ t, exec (.ll rt off base) s = .next t ∧ TrapsWith s t .addressErrorLoad none (some ea)) ∧
      (∃ t, exec (.sw rt off base) s = .next t ∧ TrapsWith s t .addressErrorStore none (some ea)) ∧
      (∃ t, exec (.sc rt off base) s = .next t ∧ TrapsWith s t .addressErrorStore none (some ea)))

/-- An access that `MEMMAP` does not admit is stuck, after the alignment check: a load of 1, 2 or 4 bytes, the aligned word
of LWL, LWR, SWL and SWR, a store of 1, 2 or 4 bytes, an SC with no reservation for another address (R66, R220, R227, R228,
R235; that SWR needs its whole aligned word writable is the model's choice, log 22). -/
def Obligations.InadmissibleAccessIsStuck : Prop :=
  ∀ (s : State) (rt base : Reg) (off : Half) (ea : Word), ea = effectiveAddr s off base →
    (admitsAll s .read ea 1 = false → exec (.lb rt off base) s = .fault (.loadNotAdmitted ea) ∧
      exec (.lbu rt off base) s = .fault (.loadNotAdmitted ea)) ∧
    (ea.toNat % 2 = 0 → admitsAll s .read ea 2 = false → exec (.lh rt off base) s = .fault (.loadNotAdmitted ea) ∧
      exec (.lhu rt off base) s = .fault (.loadNotAdmitted ea)) ∧
    (ea.toNat % 4 = 0 → admitsAll s .read ea 4 = false → exec (.lw rt off base) s = .fault (.loadNotAdmitted ea) ∧
      exec (.ll rt off base) s = .fault (.loadNotAdmitted ea)) ∧
    (admitsAll s .read (wordAddr ea) 4 = false →
      exec (.lwl rt off base) s = .fault (.loadNotAdmitted (wordAddr ea)) ∧
      exec (.lwr rt off base) s = .fault (.loadNotAdmitted (wordAddr ea))) ∧
    (admitsAll s .write ea 1 = false → exec (.sb rt off base) s = .fault (.storeNotAdmitted ea)) ∧
    (ea.toNat % 2 = 0 → admitsAll s .write ea 2 = false → exec (.sh rt off base) s = .fault (.storeNotAdmitted ea)) ∧
    (ea.toNat % 4 = 0 → admitsAll s .write ea 4 = false → exec (.sw rt off base) s = .fault (.storeNotAdmitted ea)) ∧
    (ea.toNat % 4 = 0 → admitsAll s .write ea 4 = false → (s.llbit = true → ea = s.lladdr) →
      exec (.sc rt off base) s = .fault (.storeNotAdmitted ea)) ∧
    (admitsAll s .write (wordAddr ea) 4 = false →
      exec (.swl rt off base) s = .fault (.storeNotAdmitted (wordAddr ea)) ∧
      exec (.swr rt off base) s = .fault (.storeNotAdmitted (wordAddr ea)))

/-- R61: which byte of a halfword or word stands at which address, for both byte orders, in a read and in a write; and no
step switches the order. -/
def Obligations.ByteOrder : Prop :=
  (∀ (s : State) (a : Word) (k : Nat),
    (k < 2 → (memHalf s a).extractLsb' (8 * (if s.params.endian = .big then 1 - k else k)) 8 =
      memByte s (a + BitVec.ofNat 32 k)) ∧
    (k < 4 → (memWord s a).extractLsb' (8 * (if s.params.endian = .big then 3 - k else k)) 8 =
      memByte s (a + BitVec.ofNat 32 k))) ∧
  (∀ (s : State) (a : Word) (b : Byte) (h : Half) (w : Word) (k : Nat), Memory.wf s.mem = true →
    memByte (storeByte s a b) a = b ∧
    (k < 2 → memByte (storeBytes s a (splitHalf s.params.endian h)) (a + BitVec.ofNat 32 k) =
      h.extractLsb' (8 * (if s.params.endian = .big then 1 - k else k)) 8) ∧
    (k < 4 → memByte (storeBytes s a (splitWord s.params.endian w)) (a + BitVec.ofNat 32 k) =
      w.extractLsb' (8 * (if s.params.endian = .big then 3 - k else k)) 8)) ∧
  (∀ s t : State, step s = .next t → t.params.endian = s.params.endian)

/-- R63, which the spec derives from R61: after a word is written at a multiple of 4, what a byte read and a halfword read
of it return. -/
def Obligations.MixedWidthReads : Prop :=
  ∀ (s t : State) (a v : Word), Memory.wf s.mem = true → a.toNat % 4 = 0 →
    t = storeBytes s a (splitWord s.params.endian v) →
    (∀ k : Nat, k < 4 → memByte t (a + BitVec.ofNat 32 k) =
      if s.params.endian = .big then v.extractLsb' (24 - 8 * k) 8 else v.extractLsb' (8 * k) 8) ∧
    memHalf t a = (if s.params.endian = .big then v.extractLsb' 16 16 else v.extractLsb' 0 16) ∧
    memHalf t (a + 2#32) = (if s.params.endian = .big then v.extractLsb' 0 16 else v.extractLsb' 16 16)

/-- SD is refused, with the record of a ReservedInstruction whose reason is `sd`, in every state (R233, R353(b)). -/
def Obligations.SdIsRefused : Prop :=
  ∀ (s : State) (rt base : Reg) (off : Half),
    exec (.sd rt off base) s =
      .refused (.storeDoubleword (expectedRecord s .reservedInstruction (some .sd) none))

/-! ## Logical, bit field, move, shift and trap (44_logical.md to 48_trap.md) -/

/-- AND, OR, XOR, NOR bit by bit; ANDI, ORI, XORI with the immediate extended with zeros; LUI with the immediate in the high
half and zeros below (R259 to R267). -/
def Obligations.LogicalBitByBit : Prop :=
  ∀ (s : State) (d rs rt : Reg) (imm : Half) (a b : Word), a = readReg s rs → b = readReg s rt →
    (∃ v t, exec (.and d rs rt) s = .next t ∧ WritesReg s t d v ∧
      ∀ k : Nat, k < 32 → v.getLsbD k = (a.getLsbD k && b.getLsbD k)) ∧
    (∃ v t, exec (.or d rs rt) s = .next t ∧ WritesReg s t d v ∧
      ∀ k : Nat, k < 32 → v.getLsbD k = (a.getLsbD k || b.getLsbD k)) ∧
    (∃ v t, exec (.xor d rs rt) s = .next t ∧ WritesReg s t d v ∧
      ∀ k : Nat, k < 32 → v.getLsbD k = (a.getLsbD k != b.getLsbD k)) ∧
    (∃ v t, exec (.nor d rs rt) s = .next t ∧ WritesReg s t d v ∧
      ∀ k : Nat, k < 32 → v.getLsbD k = !(a.getLsbD k || b.getLsbD k)) ∧
    (∃ v t, exec (.andi d rs imm) s = .next t ∧ WritesReg s t d v ∧
      ∀ k : Nat, k < 32 → v.getLsbD k = (decide (k < 16) && a.getLsbD k && imm.getLsbD k)) ∧
    (∃ v t, exec (.ori d rs imm) s = .next t ∧ WritesReg s t d v ∧
      ∀ k : Nat, k < 32 → v.getLsbD k = (a.getLsbD k || (decide (k < 16) && imm.getLsbD k))) ∧
    (∃ v t, exec (.xori d rs imm) s = .next t ∧ WritesReg s t d v ∧
      ∀ k : Nat, k < 32 → v.getLsbD k = (a.getLsbD k != (decide (k < 16) && imm.getLsbD k))) ∧
    (∃ v t, exec (.lui d imm) s = .next t ∧ WritesReg s t d v ∧
      ∀ k : Nat, k < 32 → v.getLsbD k = (decide (16 ≤ k) && imm.getLsbD (k - 16)))

/-- EXT and INS with legal fields, and WSBH, bit by bit: EXT right-justifies the field and clears the rest, INS replaces the
field and keeps the rest of `rt`, WSBH swaps the bytes of each halfword (R280 to R282). -/
def Obligations.BitFields : Prop :=
  ∀ (s : State) (d rs rt : Reg) (m l : BitVec 5),
    (l.toNat + m.toNat ≤ 31 → ∃ v t, exec (.ext rt rs m l) s = .next t ∧ WritesReg s t rt v ∧
      ∀ k : Nat, k < 32 → v.getLsbD k = (decide (k ≤ m.toNat) && (readReg s rs).getLsbD (l.toNat + k))) ∧
    (l.toNat ≤ m.toNat → ∃ v t, exec (.ins rt rs m l) s = .next t ∧ WritesReg s t rt v ∧
      ∀ k : Nat, k < 32 → v.getLsbD k =
        if l.toNat ≤ k ∧ k ≤ m.toNat then (readReg s rs).getLsbD (k - l.toNat) else (readReg s rt).getLsbD k) ∧
    (∃ v t, exec (.wsbh d rt) s = .next t ∧ WritesReg s t d v ∧
      v.extractLsb' 24 8 = (readReg s rt).extractLsb' 16 8 ∧ v.extractLsb' 16 8 = (readReg s rt).extractLsb' 24 8 ∧
      v.extractLsb' 8 8 = (readReg s rt).extractLsb' 0 8 ∧ v.extractLsb' 0 8 = (readReg s rt).extractLsb' 8 8)

/-- MOVN, MOVZ and, where the condition codes exist, MOVT copy `rs` to `rd` when their condition holds and otherwise only
advance; where they do not exist MOVT is refused (R289 to R292). -/
def Obligations.ConditionalMoves : Prop :=
  ∀ (s : State) (rd rs rt : Reg) (cc : BitVec 3),
    (∃ t, exec (.movn rd rs rt) s = .next t ∧
      (readReg s rt ≠ 0#32 → WritesReg s t rd (readReg s rs)) ∧ (readReg s rt = 0#32 → OnlyAdvances s t)) ∧
    (∃ t, exec (.movz rd rs rt) s = .next t ∧
      (readReg s rt = 0#32 → WritesReg s t rd (readReg s rs)) ∧ (readReg s rt ≠ 0#32 → OnlyAdvances s t)) ∧
    (s.params.hasCc = true → ∃ t, exec (.movt rd rs cc) s = .next t ∧
      (s.cc.getLsbD cc.toNat = true → WritesReg s t rd (readReg s rs)) ∧
      (s.cc.getLsbD cc.toNat = false → OnlyAdvances s t)) ∧
    (s.params.hasCc = false → exec (.movt rd rs cc) s =
      .refused (.noConditionCodes (expectedRecord s .reservedInstruction (some .noCc) none)))

/-- MTHI writes HI and leaves LO, MTLO writes LO and leaves HI (R293, R294). -/
def Obligations.MoveToHiAndLo : Prop :=
  ∀ (s : State) (rs : Reg),
    (∃ t, exec (.mthi rs) s = .next t ∧ WritesHiLo s t (readReg s rs) s.lo) ∧
    (∃ t, exec (.mtlo rs) s = .next t ∧ WritesHiLo s t s.hi (readReg s rs))

/-- RDHWR of a register that `HWRENA` enables: its fixed value, or a fresh free value (that it is the constant of Config at the
counter, which goes on by one, is the model's choice, log 10); of one it does not enable: ReservedInstruction, a genuine trap
with nothing written (R295, R353(d)). -/
def Obligations.ReadHardwareRegister : Prop :=
  ∀ (s : State) (rt : Reg) (n : BitVec 5),
    (s.params.hwrena.getLsbD n.toNat = true → ∀ v : Word, s.params.hwr[n.toNat]'n.isLt = some v →
      ∃ t, exec (.rdhwr rt n) s = .next t ∧ WritesReg s t rt v) ∧
    (s.params.hwrena.getLsbD n.toNat = true → s.params.hwr[n.toNat]'n.isLt = none →
      ∃ t, exec (.rdhwr rt n) s = .next t ∧ WritesRegAtLeast s t rt (Config.drawWord s.draws) ∧
        AccSame s t ∧ ReservationSame s t ∧ t.draws = s.draws + 1) ∧
    (s.params.hwrena.getLsbD n.toNat = false →
      ∃ t, exec (.rdhwr rt n) s = .next t ∧ TrapsWith s t .reservedInstruction (some .hwrDisabled) none)

/-- The eight shifts and rotates, bit by bit (R300 to R307), with the amount from `sa` or from the low 5 bits of `rs` (R299), and
the function and the R bit that select them, the table of R308, which the spec derives from R300 to R307. -/
def Obligations.ShiftsAndRotates : Prop :=
  ∀ (s : State) (rd rt rs : Reg) (sa : BitVec 5) (x : Word) (n : Nat), x = readReg s rt →
    n = (readReg s rs).toNat % 32 →
    (∃ v t, exec (.sll rd rt sa) s = .next t ∧ WritesReg s t rd v ∧
      ∀ k : Nat, k < 32 → v.getLsbD k = (decide (sa.toNat ≤ k) && x.getLsbD (k - sa.toNat))) ∧
    (∃ v t, exec (.srl rd rt sa) s = .next t ∧ WritesReg s t rd v ∧
      ∀ k : Nat, k < 32 → v.getLsbD k = (decide (k + sa.toNat < 32) && x.getLsbD (k + sa.toNat))) ∧
    (∃ v t, exec (.rotr rd rt sa) s = .next t ∧ WritesReg s t rd v ∧
      ∀ k : Nat, k < 32 → v.getLsbD k = x.getLsbD ((k + sa.toNat) % 32)) ∧
    (∃ v t, exec (.sra rd rt sa) s = .next t ∧ WritesReg s t rd v ∧
      ∀ k : Nat, k < 32 → v.getLsbD k = x.getLsbD (min (k + sa.toNat) 31)) ∧
    (∃ v t, exec (.sllv rd rt rs) s = .next t ∧ WritesReg s t rd v ∧
      ∀ k : Nat, k < 32 → v.getLsbD k = (decide (n ≤ k) && x.getLsbD (k - n))) ∧
    (∃ v t, exec (.srlv rd rt rs) s = .next t ∧ WritesReg s t rd v ∧
      ∀ k : Nat, k < 32 → v.getLsbD k = (decide (k + n < 32) && x.getLsbD (k + n))) ∧
    (∃ v t, exec (.rotrv rd rt rs) s = .next t ∧ WritesReg s t rd v ∧
      ∀ k : Nat, k < 32 → v.getLsbD k = x.getLsbD ((k + n) % 32)) ∧
    (∃ v t, exec (.srav rd rt rs) s = .next t ∧ WritesReg s t rd v ∧
      ∀ k : Nat, k < 32 → v.getLsbD k = x.getLsbD (min (k + n) 31)) ∧
    [functOf (encode (.sll rd rt sa)), functOf (encode (.srl rd rt sa)), functOf (encode (.rotr rd rt sa)),
      functOf (encode (.sra rd rt sa)), functOf (encode (.sllv rd rt rs)), functOf (encode (.srlv rd rt rs)),
      functOf (encode (.rotrv rd rt rs)), functOf (encode (.srav rd rt rs))] =
      [0b000000#6, 0b000010#6, 0b000010#6, 0b000011#6, 0b000100#6, 0b000110#6, 0b000110#6, 0b000111#6] ∧
    [(encode (.srl rd rt sa)).getLsbD 21, (encode (.rotr rd rt sa)).getLsbD 21, (encode (.srlv rd rt rs)).getLsbD 6,
      (encode (.rotrv rd rt rs)).getLsbD 6] = [false, true, false, true]

/-- R334, which the spec derives from R321 to R333: BREAK and SYSCALL always raise their exception; each conditional trap
raises Trap when its condition holds and otherwise only advances; each with the selector that encodes it. The immediates are
sign-extended, those of the unsigned comparisons too. -/
def Obligations.TrapsRaiseOnTheirCondition : Prop :=
  ∀ (s : State) (rs rt : Reg) (imm : Half) (c10 : BitVec 10) (c20 : BitVec 20) (a b : Word) (i : Int),
    a = readReg s rs → b = readReg s rt → i = imm.toInt →
    (∃ t, exec (.breakpoint c20) s = .next t ∧ TrapsWith s t .breakpoint none none) ∧
    (∃ t, exec (.syscall c20) s = .next t ∧ TrapsWith s t .systemCall none none) ∧
    (∀ row ∈ ([(.tge rs rt c10, a.toInt ≥ b.toInt), (.tgeu rs rt c10, a.toNat ≥ b.toNat),
        (.tlt rs rt c10, a.toInt < b.toInt), (.tltu rs rt c10, a.toNat < b.toNat), (.teq rs rt c10, a = b),
        (.tne rs rt c10, a ≠ b), (.tgei rs imm, a.toInt ≥ i), (.tgeiu rs imm, (a.toNat : Int) ≥ i % 2 ^ 32),
        (.tlti rs imm, a.toInt < i), (.tltiu rs imm, (a.toNat : Int) < i % 2 ^ 32),
        (.teqi rs imm, a.toInt = i)] : List (Instr × Prop)),
      (row.2 → ∃ t, exec row.1 s = .next t ∧ TrapsWith s t .trap none none) ∧
      (¬row.2 → ∃ t, exec row.1 s = .next t ∧ OnlyAdvances s t)) ∧
    ([Instr.breakpoint c20, .syscall c20, .tge rs rt c10, .tgeu rs rt c10, .tlt rs rt c10, .tltu rs rt c10,
      .teq rs rt c10, .tne rs rt c10].map (fun j => (opcodeOf (encode j), functOf (encode j))) =
      [(0#6, 0b001101#6), (0#6, 0b001100#6), (0#6, 0b110000#6), (0#6, 0b110001#6), (0#6, 0b110010#6),
        (0#6, 0b110011#6), (0#6, 0b110100#6), (0#6, 0b110110#6)]) ∧
    ([Instr.tgei rs imm, .tgeiu rs imm, .tlti rs imm, .tltiu rs imm, .teqi rs imm].map
      (fun j => (opcodeOf (encode j), rtOf (encode j))) =
      [(1#6, 0b01000#5), (1#6, 0b01001#5), (1#6, 0b01010#5), (1#6, 0b01011#5), (1#6, 0b01100#5)])
end

