-- ==== Sys2Proof/Laws/Encoding.lean ====
section
/-!
SUPPORT. The fields of an encoded word, format by format (R101 to R106): each is what was put there; a word is the
encoding of its own fields; and a mask selects the fields it covers (R112).
-/

namespace Sys2Proof

/-- A slice of the left part of two parts. -/
theorem slice_left {m n : Nat} (x : BitVec m) (y : BitVec n) (start len : Nat) (h : n ≤ start) :
    (x ++ y).extractLsb' start len = x.extractLsb' (start - n) len :=
  BitVec.extractLsb'_append_eq_of_le h

/-- The right part of two parts. -/
theorem slice_right {m n : Nat} (x : BitVec m) (y : BitVec n) : (x ++ y).extractLsb' 0 n = y := by
  rw [BitVec.extractLsb'_append_eq_of_add_le (by omega), BitVec.extractLsb'_eq_self]

/-! ## Each field of a format is what was put there -/

@[simp] theorem opcodeOf_encodeR (op : BitVec 6) (rs rt rd sa : BitVec 5) (fn : BitVec 6) :
    opcodeOf (encodeR op rs rt rd sa fn) = op :=
  (slice_left _ _ 26 6 (by decide)).trans
    ((slice_left _ _ 20 6 (by decide)).trans
    ((slice_left _ _ 15 6 (by decide)).trans
    ((slice_left _ _ 10 6 (by decide)).trans ((slice_left _ _ 5 6 (by decide)).trans BitVec.extractLsb'_eq_self))))

@[simp] theorem rsOf_encodeR (op : BitVec 6) (rs rt rd sa : BitVec 5) (fn : BitVec 6) :
    rsOf (encodeR op rs rt rd sa fn) = rs :=
  (slice_left _ _ 21 5 (by decide)).trans
    ((slice_left _ _ 15 5 (by decide)).trans
    ((slice_left _ _ 10 5 (by decide)).trans
    ((slice_left _ _ 5 5 (by decide)).trans (slice_right _ _))))

@[simp] theorem rtOf_encodeR (op : BitVec 6) (rs rt rd sa : BitVec 5) (fn : BitVec 6) :
    rtOf (encodeR op rs rt rd sa fn) = rt :=
  (slice_left _ _ 16 5 (by decide)).trans
    ((slice_left _ _ 10 5 (by decide)).trans
    ((slice_left _ _ 5 5 (by decide)).trans
    (slice_right _ _)))

@[simp] theorem rdOf_encodeR (op : BitVec 6) (rs rt rd sa : BitVec 5) (fn : BitVec 6) :
    rdOf (encodeR op rs rt rd sa fn) = rd :=
  (slice_left _ _ 11 5 (by decide)).trans ((slice_left _ _ 5 5 (by decide)).trans (slice_right _ _))

@[simp] theorem saOf_encodeR (op : BitVec 6) (rs rt rd sa : BitVec 5) (fn : BitVec 6) :
    saOf (encodeR op rs rt rd sa fn) = sa :=
  (slice_left _ _ 6 5 (by decide)).trans (slice_right _ _)

@[simp] theorem functOf_encodeR (op : BitVec 6) (rs rt rd sa : BitVec 5) (fn : BitVec 6) :
    functOf (encodeR op rs rt rd sa fn) = fn :=
  (slice_right _ _)

@[simp] theorem opcodeOf_encodeI (op : BitVec 6) (rs rt : BitVec 5) (imm : Half) :
    opcodeOf (encodeI op rs rt imm) = op :=
  (slice_left _ _ 26 6 (by decide)).trans
    ((slice_left _ _ 10 6 (by decide)).trans
    ((slice_left _ _ 5 6 (by decide)).trans
    BitVec.extractLsb'_eq_self))

@[simp] theorem rsOf_encodeI (op : BitVec 6) (rs rt : BitVec 5) (imm : Half) :
    rsOf (encodeI op rs rt imm) = rs :=
  (slice_left _ _ 21 5 (by decide)).trans ((slice_left _ _ 5 5 (by decide)).trans (slice_right _ _))

@[simp] theorem rtOf_encodeI (op : BitVec 6) (rs rt : BitVec 5) (imm : Half) :
    rtOf (encodeI op rs rt imm) = rt :=
  (slice_left _ _ 16 5 (by decide)).trans (slice_right _ _)

@[simp] theorem immOf_encodeI (op : BitVec 6) (rs rt : BitVec 5) (imm : Half) :
    immOf (encodeI op rs rt imm) = imm :=
  (slice_right _ _)

@[simp] theorem opcodeOf_encodeJ (op : BitVec 6) (index : BitVec 26) :
    opcodeOf (encodeJ op index) = op :=
  (slice_left _ _ 26 6 (by decide)).trans BitVec.extractLsb'_eq_self

@[simp] theorem indexOf_encodeJ (op : BitVec 6) (index : BitVec 26) :
    indexOf (encodeJ op index) = index :=
  (slice_right _ _)

@[simp] theorem opcodeOf_encodeCode (code : BitVec 20) (fn : BitVec 6) :
    opcodeOf (encodeCode code fn) = 0b000000#6 :=
  (slice_left _ _ 26 6 (by decide)).trans ((slice_left _ _ 20 6 (by decide)).trans BitVec.extractLsb'_eq_self)

@[simp] theorem codeOf_encodeCode (code : BitVec 20) (fn : BitVec 6) :
    codeOf (encodeCode code fn) = code :=
  (slice_left _ _ 6 20 (by decide)).trans (slice_right _ _)

@[simp] theorem functOf_encodeCode (code : BitVec 20) (fn : BitVec 6) :
    functOf (encodeCode code fn) = fn :=
  (slice_right _ _)

@[simp] theorem opcodeOf_encodeTrap (rs rt : BitVec 5) (code : BitVec 10) (fn : BitVec 6) :
    opcodeOf (encodeTrap rs rt code fn) = 0b000000#6 :=
  (slice_left _ _ 26 6 (by decide)).trans
    ((slice_left _ _ 20 6 (by decide)).trans
    ((slice_left _ _ 10 6 (by decide)).trans
    ((slice_left _ _ 5 6 (by decide)).trans BitVec.extractLsb'_eq_self)))

@[simp] theorem rsOf_encodeTrap (rs rt : BitVec 5) (code : BitVec 10) (fn : BitVec 6) :
    rsOf (encodeTrap rs rt code fn) = rs :=
  (slice_left _ _ 21 5 (by decide)).trans
    ((slice_left _ _ 15 5 (by decide)).trans
    ((slice_left _ _ 5 5 (by decide)).trans
    (slice_right _ _)))

@[simp] theorem rtOf_encodeTrap (rs rt : BitVec 5) (code : BitVec 10) (fn : BitVec 6) :
    rtOf (encodeTrap rs rt code fn) = rt :=
  (slice_left _ _ 16 5 (by decide)).trans ((slice_left _ _ 10 5 (by decide)).trans (slice_right _ _))

@[simp] theorem trapCodeOf_encodeTrap (rs rt : BitVec 5) (code : BitVec 10) (fn : BitVec 6) :
    trapCodeOf (encodeTrap rs rt code fn) = code :=
  (slice_left _ _ 6 10 (by decide)).trans (slice_right _ _)

@[simp] theorem functOf_encodeTrap (rs rt : BitVec 5) (code : BitVec 10) (fn : BitVec 6) :
    functOf (encodeTrap rs rt code fn) = fn :=
  (slice_right _ _)

@[simp] theorem opcodeOf_encodeCc (rs : BitVec 5) (cc : BitVec 3) (rd : BitVec 5) :
    opcodeOf (encodeCc rs cc rd) = 0b000000#6 :=
  (slice_left _ _ 26 6 (by decide)).trans
    ((slice_left _ _ 20 6 (by decide)).trans
    ((slice_left _ _ 15 6 (by decide)).trans
    ((slice_left _ _ 10 6 (by decide)).trans ((slice_left _ _ 9 6 (by decide)).trans ((slice_left _ _ 8 6 (by decide)).trans ((slice_left _ _ 5 6 (by decide)).trans BitVec.extractLsb'_eq_self))))))

@[simp] theorem rsOf_encodeCc (rs : BitVec 5) (cc : BitVec 3) (rd : BitVec 5) :
    rsOf (encodeCc rs cc rd) = rs :=
  (slice_left _ _ 21 5 (by decide)).trans
    ((slice_left _ _ 15 5 (by decide)).trans
    ((slice_left _ _ 10 5 (by decide)).trans
    ((slice_left _ _ 5 5 (by decide)).trans ((slice_left _ _ 4 5 (by decide)).trans ((slice_left _ _ 3 5 (by decide)).trans (slice_right _ _))))))

@[simp] theorem ccOf_encodeCc (rs : BitVec 5) (cc : BitVec 3) (rd : BitVec 5) :
    ccOf (encodeCc rs cc rd) = cc :=
  (slice_left _ _ 18 3 (by decide)).trans
    ((slice_left _ _ 12 3 (by decide)).trans
    ((slice_left _ _ 7 3 (by decide)).trans
    ((slice_left _ _ 2 3 (by decide)).trans ((slice_left _ _ 1 3 (by decide)).trans (slice_right _ _)))))

@[simp] theorem rdOf_encodeCc (rs : BitVec 5) (cc : BitVec 3) (rd : BitVec 5) :
    rdOf (encodeCc rs cc rd) = rd :=
  (slice_left _ _ 11 5 (by decide)).trans ((slice_left _ _ 5 5 (by decide)).trans (slice_right _ _))

@[simp] theorem saOf_encodeCc (rs : BitVec 5) (cc : BitVec 3) (rd : BitVec 5) :
    saOf (encodeCc rs cc rd) = 0b00000#5 :=
  (slice_left _ _ 6 5 (by decide)).trans (slice_right _ _)

@[simp] theorem functOf_encodeCc (rs : BitVec 5) (cc : BitVec 3) (rd : BitVec 5) :
    functOf (encodeCc rs cc rd) = 0b000001#6 :=
  (slice_right _ _)

@[simp] theorem tfOf_encodeCc (rs : BitVec 5) (cc : BitVec 3) (rd : BitVec 5) : tfOf (encodeCc rs cc rd) = 0b01#2 := by
  unfold tfOf encodeCc
  ext i hi
  simp only [BitVec.getElem_extractLsb', BitVec.getLsbD_append]
  interval_cases i <;> simp

/-! ## A word is the encoding of its own fields -/

theorem encodeR_fields (w : Word) :
    encodeR (opcodeOf w) (rsOf w) (rtOf w) (rdOf w) (saOf w) (functOf w) = w := by
  apply BitVec.eq_of_getLsbD_eq
  intro i hi
  simp only [encodeR, opcodeOf, rsOf, rtOf, rdOf, saOf, functOf, BitVec.getLsbD_append, BitVec.getLsbD_extractLsb']
  repeat' split
  all_goals
    first
    | (rw [decide_eq_true (by omega), Bool.true_and]; congr 1; omega)

theorem encodeI_fields (w : Word) :
    encodeI (opcodeOf w) (rsOf w) (rtOf w) (immOf w) = w := by
  apply BitVec.eq_of_getLsbD_eq
  intro i hi
  simp only [encodeI, opcodeOf, rsOf, rtOf, immOf, BitVec.getLsbD_append, BitVec.getLsbD_extractLsb']
  repeat' split
  all_goals
    first
    | (rw [decide_eq_true (by omega), Bool.true_and]; congr 1; omega)

theorem encodeJ_fields (w : Word) :
    encodeJ (opcodeOf w) (indexOf w) = w := by
  apply BitVec.eq_of_getLsbD_eq
  intro i hi
  simp only [encodeJ, opcodeOf, indexOf, BitVec.getLsbD_append, BitVec.getLsbD_extractLsb']
  repeat' split
  all_goals
    first
    | (rw [decide_eq_true (by omega), Bool.true_and]; congr 1; omega)

theorem encodeCode_fields (w : Word) (h : opcodeOf w = 0b000000#6) :
    encodeCode (codeOf w) (functOf w) = w := by
  apply BitVec.eq_of_getLsbD_eq
  intro i hi
  unfold encodeCode
  rw [← h]
  simp only [opcodeOf, codeOf, functOf, BitVec.getLsbD_append, BitVec.getLsbD_extractLsb']
  repeat' split
  all_goals
    first
    | (rw [decide_eq_true (by omega), Bool.true_and]; congr 1; omega)

theorem encodeTrap_fields (w : Word) (h : opcodeOf w = 0b000000#6) :
    encodeTrap (rsOf w) (rtOf w) (trapCodeOf w) (functOf w) = w := by
  apply BitVec.eq_of_getLsbD_eq
  intro i hi
  unfold encodeTrap
  rw [← h]
  simp only [opcodeOf, rsOf, rtOf, trapCodeOf, functOf, BitVec.getLsbD_append, BitVec.getLsbD_extractLsb']
  repeat' split
  all_goals
    first
    | (rw [decide_eq_true (by omega), Bool.true_and]; congr 1; omega)

/-- The condition-code format is the register format with `cc`, 0 and `tf` at bits 20:16 (R106). -/
theorem encodeCc_eq (rs : BitVec 5) (cc : BitVec 3) (rd : BitVec 5) :
    encodeCc rs cc rd = encodeR 0b000000#6 rs (cc ++ 0b01#2) rd 0b00000#5 0b000001#6 := by
  apply BitVec.eq_of_getLsbD_eq
  intro i hi
  simp only [encodeCc, encodeR, BitVec.getLsbD_append]
  interval_cases i <;> simp

theorem encodeCc_fields (w : Word) (h : opcodeOf w = 0b000000#6) (ht : tfOf w = 0b01#2) (hs : saOf w = 0b00000#5)
    (hf : functOf w = 0b000001#6) : encodeCc (rsOf w) (ccOf w) (rdOf w) = w := by
  have hrt : ccOf w ++ tfOf w = rtOf w := by
    apply BitVec.eq_of_getLsbD_eq
    intro i hi
    simp only [ccOf, rtOf, tfOf, BitVec.getLsbD_append, BitVec.getLsbD_extractLsb']
    interval_cases i <;> simp
  have e := encodeR_fields w
  rw [h, hs, hf, ← hrt, ht] at e
  rw [encodeCc_eq, e]

/-! ## A mask, field by field -/

/-- Two words laid out alike are masked field by field. -/
theorem encodeR_and (op op' : BitVec 6) (rs rt rd sa rs' rt' rd' sa' : BitVec 5) (fn fn' : BitVec 6) :
    encodeR op rs rt rd sa fn &&& encodeR op' rs' rt' rd' sa' fn' =
      encodeR (op &&& op') (rs &&& rs') (rt &&& rt') (rd &&& rd') (sa &&& sa') (fn &&& fn') := by
  apply BitVec.eq_of_getLsbD_eq
  intro i _
  simp only [encodeR, BitVec.getLsbD_and, BitVec.getLsbD_append]
  repeat' split
  all_goals rfl

theorem encodeI_and (op op' : BitVec 6) (rs rt rs' rt' : BitVec 5) (imm imm' : Half) :
    encodeI op rs rt imm &&& encodeI op' rs' rt' imm' =
      encodeI (op &&& op') (rs &&& rs') (rt &&& rt') (imm &&& imm') := by
  apply BitVec.eq_of_getLsbD_eq
  intro i _
  simp only [encodeI, BitVec.getLsbD_and, BitVec.getLsbD_append]
  repeat' split
  all_goals rfl

/-! ## What the masks of R112 keep -/

theorem encodeCc_keep_FC0307FF (rs : BitVec 5) (cc : BitVec 3) (rd : BitVec 5) :
    encodeCc rs cc rd &&& 0xFC0307FF#32 = encodeCc 0#5 0#3 0#5 := by
  apply BitVec.eq_of_getLsbD_eq
  intro i hi
  simp only [encodeCc, BitVec.getLsbD_and, BitVec.getLsbD_append]
  interval_cases i <;> simp

theorem encodeCode_keep_FC00003F (code : BitVec 20) (fn : BitVec 6) :
    encodeCode code fn &&& 0xFC00003F#32 = encodeCode 0#20 fn := by
  apply BitVec.eq_of_getLsbD_eq
  intro i hi
  simp only [encodeCode, BitVec.getLsbD_and, BitVec.getLsbD_append]
  interval_cases i <;> simp

theorem encodeI_keep_FC000000 (op : BitVec 6) (rs rt : BitVec 5) (imm : Half) :
    encodeI op rs rt imm &&& 0xFC000000#32 = encodeI op 0#5 0#5 0#16 := by
  have hm : 0xFC000000#32 = encodeI 0x3F#6 0x0#5 0x0#5 0x0#16 := by decide
  rw [hm, encodeI_and]
  congr 1 <;> first
    | exact BitVec.and_allOnes
    | exact BitVec.and_zero

theorem encodeI_keep_FC1F0000 (op : BitVec 6) (rs rt : BitVec 5) (imm : Half) :
    encodeI op rs rt imm &&& 0xFC1F0000#32 = encodeI op 0#5 rt 0#16 := by
  have hm : 0xFC1F0000#32 = encodeI 0x3F#6 0x0#5 0x1F#5 0x0#16 := by decide
  rw [hm, encodeI_and]
  congr 1 <;> first
    | exact BitVec.and_allOnes
    | exact BitVec.and_zero

theorem encodeI_keep_FFE00000 (op : BitVec 6) (rs rt : BitVec 5) (imm : Half) :
    encodeI op rs rt imm &&& 0xFFE00000#32 = encodeI op rs 0#5 0#16 := by
  have hm : 0xFFE00000#32 = encodeI 0x3F#6 0x1F#5 0x0#5 0x0#16 := by decide
  rw [hm, encodeI_and]
  congr 1 <;> first
    | exact BitVec.and_allOnes
    | exact BitVec.and_zero

theorem encodeI_keep_FFFF0000 (op : BitVec 6) (rs rt : BitVec 5) (imm : Half) :
    encodeI op rs rt imm &&& 0xFFFF0000#32 = encodeI op rs rt 0#16 := by
  have hm : 0xFFFF0000#32 = encodeI 0x3F#6 0x1F#5 0x1F#5 0x0#16 := by decide
  rw [hm, encodeI_and]
  congr 1 <;> first
    | exact BitVec.and_allOnes
    | exact BitVec.and_zero

theorem encodeJ_keep_FC000000 (op : BitVec 6) (index : BitVec 26) :
    encodeJ op index &&& 0xFC000000#32 = encodeJ op 0#26 := by
  apply BitVec.eq_of_getLsbD_eq
  intro i hi
  simp only [encodeJ, BitVec.getLsbD_and, BitVec.getLsbD_append]
  interval_cases i <;> simp

theorem encodeR_keep_FC00003F (op : BitVec 6) (rs rt rd sa : BitVec 5) (fn : BitVec 6) :
    encodeR op rs rt rd sa fn &&& 0xFC00003F#32 = encodeR op 0#5 0#5 0#5 0#5 fn := by
  have hm : 0xFC00003F#32 = encodeR 0x3F#6 0x0#5 0x0#5 0x0#5 0x0#5 0x3F#6 := by decide
  rw [hm, encodeR_and]
  congr 1 <;> first
    | exact BitVec.and_allOnes
    | exact BitVec.and_zero

theorem encodeR_keep_FC0007FF (op : BitVec 6) (rs rt rd sa : BitVec 5) (fn : BitVec 6) :
    encodeR op rs rt rd sa fn &&& 0xFC0007FF#32 = encodeR op 0#5 0#5 0#5 sa fn := by
  have hm : 0xFC0007FF#32 = encodeR 0x3F#6 0x0#5 0x0#5 0x0#5 0x1F#5 0x3F#6 := by decide
  rw [hm, encodeR_and]
  congr 1 <;> first
    | exact BitVec.and_allOnes
    | exact BitVec.and_zero

theorem encodeR_keep_FC00FFFF (op : BitVec 6) (rs rt rd sa : BitVec 5) (fn : BitVec 6) :
    encodeR op rs rt rd sa fn &&& 0xFC00FFFF#32 = encodeR op 0#5 0#5 rd sa fn := by
  have hm : 0xFC00FFFF#32 = encodeR 0x3F#6 0x0#5 0x0#5 0x1F#5 0x1F#5 0x3F#6 := by decide
  rw [hm, encodeR_and]
  congr 1 <;> first
    | exact BitVec.and_allOnes
    | exact BitVec.and_zero

theorem encodeR_keep_FC1F07FF (op : BitVec 6) (rs rt rd sa : BitVec 5) (fn : BitVec 6) :
    encodeR op rs rt rd sa fn &&& 0xFC1F07FF#32 = encodeR op 0#5 rt 0#5 sa fn := by
  have hm : 0xFC1F07FF#32 = encodeR 0x3F#6 0x0#5 0x1F#5 0x0#5 0x1F#5 0x3F#6 := by decide
  rw [hm, encodeR_and]
  congr 1 <;> first
    | exact BitVec.and_allOnes
    | exact BitVec.and_zero

theorem encodeR_keep_FC1FFFFF (op : BitVec 6) (rs rt rd sa : BitVec 5) (fn : BitVec 6) :
    encodeR op rs rt rd sa fn &&& 0xFC1FFFFF#32 = encodeR op 0#5 rt rd sa fn := by
  have hm : 0xFC1FFFFF#32 = encodeR 0x3F#6 0x0#5 0x1F#5 0x1F#5 0x1F#5 0x3F#6 := by decide
  rw [hm, encodeR_and]
  congr 1 <;> first
    | exact BitVec.and_allOnes
    | exact BitVec.and_zero

theorem encodeR_keep_FFE0003F (op : BitVec 6) (rs rt rd sa : BitVec 5) (fn : BitVec 6) :
    encodeR op rs rt rd sa fn &&& 0xFFE0003F#32 = encodeR op rs 0#5 0#5 0#5 fn := by
  have hm : 0xFFE0003F#32 = encodeR 0x3F#6 0x1F#5 0x0#5 0x0#5 0x0#5 0x3F#6 := by decide
  rw [hm, encodeR_and]
  congr 1 <;> first
    | exact BitVec.and_allOnes
    | exact BitVec.and_zero

theorem encodeR_keep_FFE007FF (op : BitVec 6) (rs rt rd sa : BitVec 5) (fn : BitVec 6) :
    encodeR op rs rt rd sa fn &&& 0xFFE007FF#32 = encodeR op rs 0#5 0#5 sa fn := by
  have hm : 0xFFE007FF#32 = encodeR 0x3F#6 0x1F#5 0x0#5 0x0#5 0x1F#5 0x3F#6 := by decide
  rw [hm, encodeR_and]
  congr 1 <;> first
    | exact BitVec.and_allOnes
    | exact BitVec.and_zero

theorem encodeR_keep_FFFFF83F (op : BitVec 6) (rs rt rd sa : BitVec 5) (fn : BitVec 6) :
    encodeR op rs rt rd sa fn &&& 0xFFFFF83F#32 = encodeR op rs rt rd 0#5 fn := by
  have hm : 0xFFFFF83F#32 = encodeR 0x3F#6 0x1F#5 0x1F#5 0x1F#5 0x0#5 0x3F#6 := by decide
  rw [hm, encodeR_and]
  congr 1 <;> first
    | exact BitVec.and_allOnes
    | exact BitVec.and_zero

theorem encodeR_keep_FFFFFFFF (op : BitVec 6) (rs rt rd sa : BitVec 5) (fn : BitVec 6) :
    encodeR op rs rt rd sa fn &&& 0xFFFFFFFF#32 = encodeR op rs rt rd sa fn := by
  have hm : 0xFFFFFFFF#32 = encodeR 0x3F#6 0x1F#5 0x1F#5 0x1F#5 0x1F#5 0x3F#6 := by decide
  rw [hm, encodeR_and]
  congr 1 <;> exact BitVec.and_allOnes

theorem encodeTrap_keep_FC00003F (rs rt : BitVec 5) (code : BitVec 10) (fn : BitVec 6) :
    encodeTrap rs rt code fn &&& 0xFC00003F#32 = encodeTrap 0#5 0#5 0#10 fn := by
  apply BitVec.eq_of_getLsbD_eq
  intro i hi
  simp only [encodeTrap, BitVec.getLsbD_and, BitVec.getLsbD_append]
  interval_cases i <;> simp

/-! ## Taking a decoder apart -/

/-- When a check of fixed fields answers an instruction. -/
theorem keepIf_ok {f : Bool} {i j : Instr} : keepIf f i = .ok j ↔ f = true ∧ i = j := by
  cases f <;> simp [keepIf]

/-- The two ways a chain of tests answers, without splitting the chain. -/
theorem ite_ok {c : Prop} [Decidable c] {i : Instr} {a b : Except Rejection Instr} {P : Prop}
    (h : (if c then a else b) = .ok i) (h1 : c → a = .ok i → P) (h2 : ¬c → b = .ok i → P) : P := by
  split at h
  · exact h1 ‹_› h
  · exact h2 ‹_› h

end Sys2Proof
end

