-- ==== Sys2Proof/Laws/State.lean ====
section
/-!
SUPPORT. What each update of the state leaves and sets, field by field, so that no proof unfolds a record update.
-/

namespace Sys2Proof.Machine

/-! ## The advance of pc -/

@[simp] theorem advance_regs (s : State) : (advance s).regs = s.regs := by unfold advance; split <;> rfl
@[simp] theorem advance_hi (s : State) : (advance s).hi = s.hi := by unfold advance; split <;> rfl
@[simp] theorem advance_lo (s : State) : (advance s).lo = s.lo := by unfold advance; split <;> rfl
@[simp] theorem advance_cc (s : State) : (advance s).cc = s.cc := by unfold advance; split <;> rfl
@[simp] theorem advance_llbit (s : State) : (advance s).llbit = s.llbit := by unfold advance; split <;> rfl
@[simp] theorem advance_lladdr (s : State) : (advance s).lladdr = s.lladdr := by unfold advance; split <;> rfl
@[simp] theorem advance_stale (s : State) : (advance s).stale = s.stale := by unfold advance; split <;> rfl
@[simp] theorem advance_mem (s : State) : (advance s).mem = s.mem := by unfold advance; split <;> rfl
@[simp] theorem advance_outcome (s : State) : (advance s).outcome = s.outcome := by unfold advance; split <;> rfl
@[simp] theorem advance_params (s : State) : (advance s).params = s.params := by unfold advance; split <;> rfl
@[simp] theorem advance_draws (s : State) : (advance s).draws = s.draws := by unfold advance; split <;> rfl

/-! ## A control transfer -/

@[simp] theorem transfer_regs (s : State) (c : Bool) (a : Word) : (transfer s c a).regs = s.regs := by unfold transfer; split <;> rfl
@[simp] theorem transfer_hi (s : State) (c : Bool) (a : Word) : (transfer s c a).hi = s.hi := by unfold transfer; split <;> rfl
@[simp] theorem transfer_lo (s : State) (c : Bool) (a : Word) : (transfer s c a).lo = s.lo := by unfold transfer; split <;> rfl
@[simp] theorem transfer_cc (s : State) (c : Bool) (a : Word) : (transfer s c a).cc = s.cc := by unfold transfer; split <;> rfl
@[simp] theorem transfer_llbit (s : State) (c : Bool) (a : Word) : (transfer s c a).llbit = s.llbit := by unfold transfer; split <;> rfl
@[simp] theorem transfer_lladdr (s : State) (c : Bool) (a : Word) : (transfer s c a).lladdr = s.lladdr := by unfold transfer; split <;> rfl
@[simp] theorem transfer_stale (s : State) (c : Bool) (a : Word) : (transfer s c a).stale = s.stale := by unfold transfer; split <;> rfl
@[simp] theorem transfer_mem (s : State) (c : Bool) (a : Word) : (transfer s c a).mem = s.mem := by unfold transfer; split <;> rfl
@[simp] theorem transfer_outcome (s : State) (c : Bool) (a : Word) : (transfer s c a).outcome = s.outcome := by unfold transfer; split <;> rfl
@[simp] theorem transfer_params (s : State) (c : Bool) (a : Word) : (transfer s c a).params = s.params := by unfold transfer; split <;> rfl
@[simp] theorem transfer_draws (s : State) (c : Bool) (a : Word) : (transfer s c a).draws = s.draws := by unfold transfer; split <;> rfl

/-! ## A write of a general register -/

@[simp] theorem writeReg_hi (s : State) (r : Reg) (v : Word) : (writeReg s r v).hi = s.hi := by unfold writeReg; split <;> rfl
@[simp] theorem writeReg_lo (s : State) (r : Reg) (v : Word) : (writeReg s r v).lo = s.lo := by unfold writeReg; split <;> rfl
@[simp] theorem writeReg_pc (s : State) (r : Reg) (v : Word) : (writeReg s r v).pc = s.pc := by unfold writeReg; split <;> rfl
@[simp] theorem writeReg_npc (s : State) (r : Reg) (v : Word) : (writeReg s r v).npc = s.npc := by unfold writeReg; split <;> rfl
@[simp] theorem writeReg_ds (s : State) (r : Reg) (v : Word) : (writeReg s r v).ds = s.ds := by unfold writeReg; split <;> rfl
@[simp] theorem writeReg_cc (s : State) (r : Reg) (v : Word) : (writeReg s r v).cc = s.cc := by unfold writeReg; split <;> rfl
@[simp] theorem writeReg_llbit (s : State) (r : Reg) (v : Word) : (writeReg s r v).llbit = s.llbit := by unfold writeReg; split <;> rfl
@[simp] theorem writeReg_lladdr (s : State) (r : Reg) (v : Word) : (writeReg s r v).lladdr = s.lladdr := by unfold writeReg; split <;> rfl
@[simp] theorem writeReg_stale (s : State) (r : Reg) (v : Word) : (writeReg s r v).stale = s.stale := by unfold writeReg; split <;> rfl
@[simp] theorem writeReg_mem (s : State) (r : Reg) (v : Word) : (writeReg s r v).mem = s.mem := by unfold writeReg; split <;> rfl
@[simp] theorem writeReg_outcome (s : State) (r : Reg) (v : Word) : (writeReg s r v).outcome = s.outcome := by unfold writeReg; split <;> rfl
@[simp] theorem writeReg_params (s : State) (r : Reg) (v : Word) : (writeReg s r v).params = s.params := by unfold writeReg; split <;> rfl
@[simp] theorem writeReg_draws (s : State) (r : Reg) (v : Word) : (writeReg s r v).draws = s.draws := by unfold writeReg; split <;> rfl

/-! ## A write of HI and LO -/

@[simp] theorem writeAcc_regs (s : State) (v : BitVec 64) : (writeAcc s v).regs = s.regs := rfl
@[simp] theorem writeAcc_pc (s : State) (v : BitVec 64) : (writeAcc s v).pc = s.pc := rfl
@[simp] theorem writeAcc_npc (s : State) (v : BitVec 64) : (writeAcc s v).npc = s.npc := rfl
@[simp] theorem writeAcc_ds (s : State) (v : BitVec 64) : (writeAcc s v).ds = s.ds := rfl
@[simp] theorem writeAcc_cc (s : State) (v : BitVec 64) : (writeAcc s v).cc = s.cc := rfl
@[simp] theorem writeAcc_llbit (s : State) (v : BitVec 64) : (writeAcc s v).llbit = s.llbit := rfl
@[simp] theorem writeAcc_lladdr (s : State) (v : BitVec 64) : (writeAcc s v).lladdr = s.lladdr := rfl
@[simp] theorem writeAcc_stale (s : State) (v : BitVec 64) : (writeAcc s v).stale = s.stale := rfl
@[simp] theorem writeAcc_mem (s : State) (v : BitVec 64) : (writeAcc s v).mem = s.mem := rfl
@[simp] theorem writeAcc_outcome (s : State) (v : BitVec 64) : (writeAcc s v).outcome = s.outcome := rfl
@[simp] theorem writeAcc_params (s : State) (v : BitVec 64) : (writeAcc s v).params = s.params := rfl
@[simp] theorem writeAcc_draws (s : State) (v : BitVec 64) : (writeAcc s v).draws = s.draws := rfl

@[simp] theorem writeAcc_hi (s : State) (v : BitVec 64) : (writeAcc s v).hi = v.extractLsb' 32 32 := rfl
@[simp] theorem writeAcc_lo (s : State) (v : BitVec 64) : (writeAcc s v).lo = v.extractLsb' 0 32 := rfl

/-! ## A free value -/

@[simp] theorem drawWord_regs (s : State) : ((drawWord s).2).regs = s.regs := rfl
@[simp] theorem drawWord_hi (s : State) : ((drawWord s).2).hi = s.hi := rfl
@[simp] theorem drawWord_lo (s : State) : ((drawWord s).2).lo = s.lo := rfl
@[simp] theorem drawWord_pc (s : State) : ((drawWord s).2).pc = s.pc := rfl
@[simp] theorem drawWord_npc (s : State) : ((drawWord s).2).npc = s.npc := rfl
@[simp] theorem drawWord_ds (s : State) : ((drawWord s).2).ds = s.ds := rfl
@[simp] theorem drawWord_cc (s : State) : ((drawWord s).2).cc = s.cc := rfl
@[simp] theorem drawWord_llbit (s : State) : ((drawWord s).2).llbit = s.llbit := rfl
@[simp] theorem drawWord_lladdr (s : State) : ((drawWord s).2).lladdr = s.lladdr := rfl
@[simp] theorem drawWord_stale (s : State) : ((drawWord s).2).stale = s.stale := rfl
@[simp] theorem drawWord_mem (s : State) : ((drawWord s).2).mem = s.mem := rfl
@[simp] theorem drawWord_outcome (s : State) : ((drawWord s).2).outcome = s.outcome := rfl
@[simp] theorem drawWord_params (s : State) : ((drawWord s).2).params = s.params := rfl

@[simp] theorem drawBit_regs (s : State) : ((drawBit s).2).regs = s.regs := rfl
@[simp] theorem drawBit_hi (s : State) : ((drawBit s).2).hi = s.hi := rfl
@[simp] theorem drawBit_lo (s : State) : ((drawBit s).2).lo = s.lo := rfl
@[simp] theorem drawBit_pc (s : State) : ((drawBit s).2).pc = s.pc := rfl
@[simp] theorem drawBit_npc (s : State) : ((drawBit s).2).npc = s.npc := rfl
@[simp] theorem drawBit_ds (s : State) : ((drawBit s).2).ds = s.ds := rfl
@[simp] theorem drawBit_cc (s : State) : ((drawBit s).2).cc = s.cc := rfl
@[simp] theorem drawBit_llbit (s : State) : ((drawBit s).2).llbit = s.llbit := rfl
@[simp] theorem drawBit_lladdr (s : State) : ((drawBit s).2).lladdr = s.lladdr := rfl
@[simp] theorem drawBit_stale (s : State) : ((drawBit s).2).stale = s.stale := rfl
@[simp] theorem drawBit_mem (s : State) : ((drawBit s).2).mem = s.mem := rfl
@[simp] theorem drawBit_outcome (s : State) : ((drawBit s).2).outcome = s.outcome := rfl
@[simp] theorem drawBit_params (s : State) : ((drawBit s).2).params = s.params := rfl

@[simp] theorem drawAcc_regs (s : State) : (drawAcc s).regs = s.regs := rfl
@[simp] theorem drawAcc_pc (s : State) : (drawAcc s).pc = s.pc := rfl
@[simp] theorem drawAcc_npc (s : State) : (drawAcc s).npc = s.npc := rfl
@[simp] theorem drawAcc_ds (s : State) : (drawAcc s).ds = s.ds := rfl
@[simp] theorem drawAcc_cc (s : State) : (drawAcc s).cc = s.cc := rfl
@[simp] theorem drawAcc_llbit (s : State) : (drawAcc s).llbit = s.llbit := rfl
@[simp] theorem drawAcc_lladdr (s : State) : (drawAcc s).lladdr = s.lladdr := rfl
@[simp] theorem drawAcc_stale (s : State) : (drawAcc s).stale = s.stale := rfl
@[simp] theorem drawAcc_mem (s : State) : (drawAcc s).mem = s.mem := rfl
@[simp] theorem drawAcc_outcome (s : State) : (drawAcc s).outcome = s.outcome := rfl
@[simp] theorem drawAcc_params (s : State) : (drawAcc s).params = s.params := rfl

@[simp] theorem drawWord_draws (s : State) : (drawWord s).2.draws = s.draws + 1 := rfl
@[simp] theorem drawBit_draws (s : State) : (drawBit s).2.draws = s.draws + 1 := rfl
@[simp] theorem drawAcc_draws (s : State) : (drawAcc s).draws = s.draws + 2 := rfl
@[simp] theorem drawAcc_lo (s : State) : (drawAcc s).lo = Config.drawWord s.draws := rfl
@[simp] theorem drawAcc_hi (s : State) : (drawAcc s).hi = Config.drawWord (s.draws + 1) := rfl

/-! ## A store -/

@[simp] theorem storeByte_regs (s : State) (a : Word) (b : Byte) : (storeByte s a b).regs = s.regs := rfl
@[simp] theorem storeByte_hi (s : State) (a : Word) (b : Byte) : (storeByte s a b).hi = s.hi := rfl
@[simp] theorem storeByte_lo (s : State) (a : Word) (b : Byte) : (storeByte s a b).lo = s.lo := rfl
@[simp] theorem storeByte_pc (s : State) (a : Word) (b : Byte) : (storeByte s a b).pc = s.pc := rfl
@[simp] theorem storeByte_npc (s : State) (a : Word) (b : Byte) : (storeByte s a b).npc = s.npc := rfl
@[simp] theorem storeByte_ds (s : State) (a : Word) (b : Byte) : (storeByte s a b).ds = s.ds := rfl
@[simp] theorem storeByte_cc (s : State) (a : Word) (b : Byte) : (storeByte s a b).cc = s.cc := rfl
@[simp] theorem storeByte_llbit (s : State) (a : Word) (b : Byte) : (storeByte s a b).llbit = s.llbit := rfl
@[simp] theorem storeByte_lladdr (s : State) (a : Word) (b : Byte) : (storeByte s a b).lladdr = s.lladdr := rfl
@[simp] theorem storeByte_outcome (s : State) (a : Word) (b : Byte) : (storeByte s a b).outcome = s.outcome := rfl
@[simp] theorem storeByte_params (s : State) (a : Word) (b : Byte) : (storeByte s a b).params = s.params := rfl
@[simp] theorem storeByte_draws (s : State) (a : Word) (b : Byte) : (storeByte s a b).draws = s.draws := rfl

@[simp] theorem storeByte_mem (s : State) (a : Word) (b : Byte) :
    (storeByte s a b).mem = writeByte a.toNat b s.mem := rfl
@[simp] theorem storeByte_stale (s : State) (a : Word) (b : Byte) :
    (storeByte s a b).stale = insertAddr (wordAddr a).toNat s.stale := rfl

@[simp] theorem storeBytes_regs (s : State) (a : Word) (bs : List Byte) : (storeBytes s a bs).regs = s.regs := by
  induction bs generalizing s a with
  | nil => rfl
  | cons b bs ih => exact ih _ _
@[simp] theorem storeBytes_hi (s : State) (a : Word) (bs : List Byte) : (storeBytes s a bs).hi = s.hi := by
  induction bs generalizing s a with
  | nil => rfl
  | cons b bs ih => exact ih _ _
@[simp] theorem storeBytes_lo (s : State) (a : Word) (bs : List Byte) : (storeBytes s a bs).lo = s.lo := by
  induction bs generalizing s a with
  | nil => rfl
  | cons b bs ih => exact ih _ _
@[simp] theorem storeBytes_pc (s : State) (a : Word) (bs : List Byte) : (storeBytes s a bs).pc = s.pc := by
  induction bs generalizing s a with
  | nil => rfl
  | cons b bs ih => exact ih _ _
@[simp] theorem storeBytes_npc (s : State) (a : Word) (bs : List Byte) : (storeBytes s a bs).npc = s.npc := by
  induction bs generalizing s a with
  | nil => rfl
  | cons b bs ih => exact ih _ _
@[simp] theorem storeBytes_ds (s : State) (a : Word) (bs : List Byte) : (storeBytes s a bs).ds = s.ds := by
  induction bs generalizing s a with
  | nil => rfl
  | cons b bs ih => exact ih _ _
@[simp] theorem storeBytes_cc (s : State) (a : Word) (bs : List Byte) : (storeBytes s a bs).cc = s.cc := by
  induction bs generalizing s a with
  | nil => rfl
  | cons b bs ih => exact ih _ _
@[simp] theorem storeBytes_llbit (s : State) (a : Word) (bs : List Byte) : (storeBytes s a bs).llbit = s.llbit := by
  induction bs generalizing s a with
  | nil => rfl
  | cons b bs ih => exact ih _ _
@[simp] theorem storeBytes_lladdr (s : State) (a : Word) (bs : List Byte) : (storeBytes s a bs).lladdr = s.lladdr := by
  induction bs generalizing s a with
  | nil => rfl
  | cons b bs ih => exact ih _ _
@[simp] theorem storeBytes_outcome (s : State) (a : Word) (bs : List Byte) : (storeBytes s a bs).outcome = s.outcome := by
  induction bs generalizing s a with
  | nil => rfl
  | cons b bs ih => exact ih _ _
@[simp] theorem storeBytes_params (s : State) (a : Word) (bs : List Byte) : (storeBytes s a bs).params = s.params := by
  induction bs generalizing s a with
  | nil => rfl
  | cons b bs ih => exact ih _ _
@[simp] theorem storeBytes_draws (s : State) (a : Word) (bs : List Byte) : (storeBytes s a bs).draws = s.draws := by
  induction bs generalizing s a with
  | nil => rfl
  | cons b bs ih => exact ih _ _

/-! ## Bytes placed from outside -/

@[simp] theorem placeBytes_regs (s : State) (a : Word) (bs : List Byte) : (placeBytes s a bs).regs = s.regs := by
  induction bs generalizing s a with
  | nil => rfl
  | cons b bs ih => exact ih _ _
@[simp] theorem placeBytes_hi (s : State) (a : Word) (bs : List Byte) : (placeBytes s a bs).hi = s.hi := by
  induction bs generalizing s a with
  | nil => rfl
  | cons b bs ih => exact ih _ _
@[simp] theorem placeBytes_lo (s : State) (a : Word) (bs : List Byte) : (placeBytes s a bs).lo = s.lo := by
  induction bs generalizing s a with
  | nil => rfl
  | cons b bs ih => exact ih _ _
@[simp] theorem placeBytes_pc (s : State) (a : Word) (bs : List Byte) : (placeBytes s a bs).pc = s.pc := by
  induction bs generalizing s a with
  | nil => rfl
  | cons b bs ih => exact ih _ _
@[simp] theorem placeBytes_npc (s : State) (a : Word) (bs : List Byte) : (placeBytes s a bs).npc = s.npc := by
  induction bs generalizing s a with
  | nil => rfl
  | cons b bs ih => exact ih _ _
@[simp] theorem placeBytes_ds (s : State) (a : Word) (bs : List Byte) : (placeBytes s a bs).ds = s.ds := by
  induction bs generalizing s a with
  | nil => rfl
  | cons b bs ih => exact ih _ _
@[simp] theorem placeBytes_cc (s : State) (a : Word) (bs : List Byte) : (placeBytes s a bs).cc = s.cc := by
  induction bs generalizing s a with
  | nil => rfl
  | cons b bs ih => exact ih _ _
@[simp] theorem placeBytes_llbit (s : State) (a : Word) (bs : List Byte) : (placeBytes s a bs).llbit = s.llbit := by
  induction bs generalizing s a with
  | nil => rfl
  | cons b bs ih => exact ih _ _
@[simp] theorem placeBytes_lladdr (s : State) (a : Word) (bs : List Byte) : (placeBytes s a bs).lladdr = s.lladdr := by
  induction bs generalizing s a with
  | nil => rfl
  | cons b bs ih => exact ih _ _
@[simp] theorem placeBytes_stale (s : State) (a : Word) (bs : List Byte) : (placeBytes s a bs).stale = s.stale := by
  induction bs generalizing s a with
  | nil => rfl
  | cons b bs ih => exact ih _ _
@[simp] theorem placeBytes_outcome (s : State) (a : Word) (bs : List Byte) : (placeBytes s a bs).outcome = s.outcome := by
  induction bs generalizing s a with
  | nil => rfl
  | cons b bs ih => exact ih _ _
@[simp] theorem placeBytes_params (s : State) (a : Word) (bs : List Byte) : (placeBytes s a bs).params = s.params := by
  induction bs generalizing s a with
  | nil => rfl
  | cons b bs ih => exact ih _ _
@[simp] theorem placeBytes_draws (s : State) (a : Word) (bs : List Byte) : (placeBytes s a bs).draws = s.draws := by
  induction bs generalizing s a with
  | nil => rfl
  | cons b bs ih => exact ih _ _

end Sys2Proof.Machine
end

