-- ==== Sys2Proof/Laws/Registers.lean ====
section
/-!
SUPPORT. Reading registers after an update: register 0 reads as zero (R31), a register reads as what was last written
to it, and every other update leaves it alone.
-/

namespace Sys2Proof.Machine

/-- Register 0 reads as zero in every state (R31). -/
@[simp] theorem readReg_zero (s : State) : readReg s 0#5 = 0#32 := by simp [readReg]

/-- States with the same register file read the same. -/
theorem readReg_congr {s t : State} (h : t.regs = s.regs) (r : Reg) : readReg t r = readReg s r := by
  simp only [readReg, h]

/-- What a register reads as after a write (R31). -/
theorem readReg_writeReg (s : State) (r q : Reg) (v : Word) :
    readReg (writeReg s r v) q = if q = r ∧ q ≠ 0#5 then v else readReg s q := by
  unfold writeReg
  by_cases hr : r = 0#5
  · subst hr
    simp only [if_true]
    split
    · rename_i h
      exact absurd h.1 h.2
    · rfl
  · simp only [hr, if_false]
    unfold readReg
    by_cases hq : q = 0#5
    · simp [hq]
    · by_cases hqr : q = r
      · subst hqr
        simp [hq]
      · have hne : r.toNat ≠ q.toNat := fun h => hqr (BitVec.eq_of_toNat_eq h.symm)
        simp [hq, hqr, Vector.getElem_set_ne, hne]

/-- A write of register 0 changes nothing (R31). -/
@[simp] theorem writeReg_zero (s : State) (v : Word) : writeReg s 0#5 v = s := by simp [writeReg]

@[simp] theorem readReg_advance (s : State) (r : Reg) : readReg (advance s) r = readReg s r :=
  readReg_congr (advance_regs s) r

@[simp] theorem readReg_transfer (s : State) (c : Bool) (a : Word) (r : Reg) :
    readReg (transfer s c a) r = readReg s r :=
  readReg_congr (transfer_regs s c a) r

@[simp] theorem readReg_writeAcc (s : State) (v : BitVec 64) (r : Reg) : readReg (writeAcc s v) r = readReg s r := rfl

@[simp] theorem readReg_drawWord (s : State) (r : Reg) : readReg (drawWord s).2 r = readReg s r := rfl

@[simp] theorem readReg_drawBit (s : State) (r : Reg) : readReg (drawBit s).2 r = readReg s r := rfl

@[simp] theorem readReg_drawAcc (s : State) (r : Reg) : readReg (drawAcc s) r = readReg s r := rfl

@[simp] theorem readReg_storeByte (s : State) (a : Word) (b : Byte) (r : Reg) :
    readReg (storeByte s a b) r = readReg s r := rfl

@[simp] theorem readReg_storeBytes (s : State) (a : Word) (bs : List Byte) (r : Reg) :
    readReg (storeBytes s a bs) r = readReg s r :=
  readReg_congr (storeBytes_regs s a bs) r

/-- A write of a register keeps the stored zero of register 0 (R31). -/
theorem writeReg_regZero (s : State) (r : Reg) (v : Word) (h : s.regs[0] = 0#32) :
    (writeReg s r v).regs[0] = 0#32 := by
  unfold writeReg
  split
  · exact h
  · rename_i hr
    have hne : r.toNat ≠ 0 := fun h0 => hr (BitVec.eq_of_toNat_eq h0)
    simp [Vector.getElem_set_ne, hne, h]

end Sys2Proof.Machine
end

