-- ==== Sys2Proof/Laws/Memory.lean ====
section
/-!
SUPPORT. Memory and the stale set: reading after writing, and the canonical forms that every operation keeps.
-/

namespace Sys2Proof.Machine

/-! ## One byte -/

/-- Writing one byte leaves every other byte alone. -/
theorem readByte_writeByte_ne (a c : Nat) (b : Byte) (m : Memory) (h : c ≠ a) :
    readByte c (writeByte a b m) = readByte c m := by
  induction m with
  | nil => simp only [writeByte]; split <;> simp [readByte, h]
  | cons x m ih =>
    obtain ⟨a', b'⟩ := x
    simp only [writeByte]
    split
    · split <;> simp [readByte, h]
    · split
      · rename_i h1
        subst h1
        split <;> simp [readByte, h]
      · simp [readByte, ih]

/-- An address below every listed one reads as the unlisted byte. -/
theorem readByte_below (a : Nat) (m : Memory) (h : m.all (fun c => decide (a < c.1)) = true) :
    readByte a m = Config.unlistedByte := by
  induction m with
  | nil => rfl
  | cons x m ih =>
    simp only [List.all_cons, Bool.and_eq_true, decide_eq_true_eq] at h
    have hne : a ≠ x.1 := by omega
    simp [readByte, hne, ih h.2]

/-- In a canonical memory, the byte written reads back. -/
theorem readByte_writeByte_same (a : Nat) (b : Byte) (m : Memory) (h : Memory.wf m = true) :
    readByte a (writeByte a b m) = b := by
  induction m with
  | nil =>
    simp only [writeByte]
    split
    · rename_i h1; simp [readByte, h1]
    · simp [readByte]
  | cons x m ih =>
    obtain ⟨a', b'⟩ := x
    simp only [Memory.wf, Bool.and_eq_true] at h
    obtain ⟨⟨⟨-, -⟩, hall⟩, hm⟩ := h
    simp only [writeByte]
    split
    · rename_i hlt
      split
      · rename_i hb
        have hne : a ≠ a' := by omega
        have hbelow : m.all (fun c => decide (a < c.1)) = true := by
          simp only [List.all_eq_true, decide_eq_true_eq] at hall ⊢
          intro c hc
          exact Nat.lt_trans hlt (hall c hc)
        simp [readByte, hne, readByte_below a m hbelow, hb]
      · simp [readByte]
    · split
      · rename_i heq
        subst heq
        split
        · rename_i hb
          rw [readByte_below a m hall, hb]
        · simp [readByte]
      · rename_i hne
        simp [readByte, hne, ih hm]

/-- A cell listed after a write was listed before, or is the one written. -/
theorem mem_writeByte (a : Nat) (b : Byte) (m : Memory) (c : Host.Cell) (h : c ∈ writeByte a b m) :
    c = (a, b) ∨ c ∈ m := by
  induction m with
  | nil =>
    simp only [writeByte] at h
    split at h
    · cases h
    · exact .inl (List.mem_singleton.1 h)
  | cons x m ih =>
    obtain ⟨a', b'⟩ := x
    simp only [writeByte] at h
    split at h
    · split at h
      · exact .inr h
      · exact List.mem_cons.1 h
    · split at h
      · split at h
        · exact .inr (List.mem_cons_of_mem _ h)
        · exact (List.mem_cons.1 h).imp_right (List.mem_cons_of_mem _)
      · rcases List.mem_cons.1 h with rfl | h
        · exact .inr List.mem_cons_self
        · exact (ih h).imp_right (List.mem_cons_of_mem _)

/-- The canonical form, one entry at a time. -/
theorem wf_cons (a : Nat) (b : Byte) (m : Memory) :
    Memory.wf ((a, b) :: m) = true ↔
      a < 2 ^ 32 ∧ b ≠ Config.unlistedByte ∧ (∀ c ∈ m, a < c.1) ∧ Memory.wf m = true := by
  simp only [Memory.wf, Bool.and_eq_true, decide_eq_true_eq, List.all_eq_true, bne_iff_ne, and_assoc]

/-- A write of an address of the space keeps the canonical form. -/
theorem writeByte_wf (a : Nat) (b : Byte) (m : Memory) (ha : a < 2 ^ 32) (h : Memory.wf m = true) :
    Memory.wf (writeByte a b m) = true := by
  induction m with
  | nil =>
    simp only [writeByte]
    split
    · rfl
    · rename_i hb; exact (wf_cons _ _ _).2 ⟨ha, hb, fun _ hc => (List.not_mem_nil hc).elim, rfl⟩
  | cons x m ih =>
    obtain ⟨a', b'⟩ := x
    obtain ⟨h1, h2, hall, hm⟩ := (wf_cons _ _ _).1 h
    simp only [writeByte]
    split
    · rename_i hlt
      split
      · exact h
      · rename_i hb
        refine (wf_cons _ _ _).2 ⟨ha, hb, fun c hc => ?_, h⟩
        rcases List.mem_cons.1 hc with rfl | hc
        · exact hlt
        · exact Nat.lt_trans hlt (hall c hc)
    · split
      · rename_i heq
        subst heq
        split
        · exact hm
        · rename_i hb; exact (wf_cons _ _ _).2 ⟨ha, hb, hall, hm⟩
      · rename_i hge hne
        refine (wf_cons _ _ _).2 ⟨h1, h2, fun c hc => ?_, ih hm⟩
        rcases mem_writeByte a b m c hc with rfl | hc
        · have : a' < a := by omega
          exact this
        · exact hall c hc

/-! ## Stores and placed bytes -/

/-- A store of bytes keeps the canonical form of memory. -/
theorem storeBytes_wf (s : State) (a : Word) (bs : List Byte) (h : Memory.wf s.mem = true) :
    Memory.wf (storeBytes s a bs).mem = true := by
  induction bs generalizing s a with
  | nil => exact h
  | cons b bs ih => exact ih _ _ (writeByte_wf _ _ _ a.isLt h)

/-- Placing bytes keeps the canonical form of memory. -/
theorem placeBytes_wf (s : State) (a : Word) (bs : List Byte) (h : Memory.wf s.mem = true) :
    Memory.wf (placeBytes s a bs).mem = true := by
  induction bs generalizing s a with
  | nil => exact h
  | cons b bs ih => exact ih _ _ (writeByte_wf _ _ _ a.isLt h)

/-- The memory of the reset state is canonical. -/
theorem reset_mem_wf : Memory.wf State.reset.mem = true := rfl

/-- A byte at an address that a store does not touch reads as before. -/
theorem memByte_storeBytes_ne (s : State) (a c : Word) (bs : List Byte)
    (h : ∀ k : Nat, k < bs.length → c ≠ a + BitVec.ofNat 32 k) :
    memByte (storeBytes s a bs) c = memByte s c := by
  induction bs generalizing s a with
  | nil => rfl
  | cons b bs ih =>
    have h0 : c ≠ a := by simpa using h 0 (by simp)
    have hne : c.toNat ≠ a.toNat := fun e => h0 (BitVec.eq_of_toNat_eq e)
    have step : memByte (storeByte s a b) c = memByte s c := readByte_writeByte_ne _ _ _ _ hne
    rw [storeBytes, ih (storeByte s a b) (a + 1#32), step]
    intro k hk e
    apply h (k + 1) (by simpa using hk)
    rw [e, BitVec.add_assoc, Nat.add_comm k 1, BitVec.ofNat_add]

/-- The bytes of a store read back, when they do not go round the address space. -/
theorem memByte_storeBytes_same (s : State) (a : Word) (bs : List Byte) (hm : Memory.wf s.mem = true)
    (hl : bs.length ≤ 2 ^ 32) (k : Nat) (hk : k < bs.length) :
    bs[k]? = some (memByte (storeBytes s a bs) (a + BitVec.ofNat 32 k)) := by
  induction bs generalizing s a k with
  | nil => simp at hk
  | cons b bs ih =>
    simp only [List.length_cons] at hl hk
    cases k with
    | zero =>
      have hother : ∀ j : Nat, j < bs.length → a + BitVec.ofNat 32 0 ≠ a + 1#32 + BitVec.ofNat 32 j := by
        intro j hj e
        have e' := congrArg BitVec.toNat e
        simp only [BitVec.toNat_add, BitVec.toNat_ofNat] at e'
        have := a.isLt
        omega
      have hsame : memByte (storeByte s a b) (a + BitVec.ofNat 32 0) = b := by
        simpa [memByte] using readByte_writeByte_same a.toNat b s.mem hm
      rw [storeBytes, memByte_storeBytes_ne _ _ _ _ hother, hsame]
      rfl
    | succ k =>
      have := ih (storeByte s a b) (a + 1#32) (writeByte_wf _ _ _ a.isLt hm) (by omega) k (by omega)
      rw [storeBytes, Nat.add_comm k 1, BitVec.ofNat_add, ← BitVec.add_assoc]
      simpa [Nat.add_comm] using this

/-! ## The stale set -/

/-- The members of the stale set after one more is put in (R39). -/
theorem mem_insertAddr (n k : Nat) (l : List Nat) : n ∈ insertAddr k l ↔ n = k ∨ n ∈ l := by
  induction l with
  | nil => simp [insertAddr]
  | cons m l ih =>
    simp only [insertAddr]
    split
    · simp
    · split
      · rename_i h; subst h; simp
      · simp only [List.mem_cons, ih]; tauto

/-- The members of the stale set after one is taken out. -/
theorem mem_removeAddr (n k : Nat) (l : List Nat) : n ∈ removeAddr k l ↔ n ≠ k ∧ n ∈ l := by
  induction l with
  | nil => simp [removeAddr]
  | cons m l ih =>
    simp only [removeAddr]
    split
    · rename_i h; subst h
      simp only [ih, List.mem_cons]
      tauto
    · rename_i h
      simp only [List.mem_cons, ih]
      constructor
      · rintro (rfl | ⟨h1, h2⟩)
        · exact ⟨fun e => h e.symm, .inl rfl⟩
        · exact ⟨h1, .inr h2⟩
      · rintro ⟨h1, rfl | h2⟩
        · exact .inl rfl
        · exact .inr ⟨h1, h2⟩

/-- Putting in an aligned address of the space keeps the canonical form. -/
theorem insertAddr_wf (n : Nat) (l : List Nat) (hn : n < 2 ^ 32) (h4 : n % 4 = 0) (h : staleWf l = true) :
    staleWf (insertAddr n l) = true := by
  induction l with
  | nil => simp only [insertAddr, staleWf, hn, h4, List.all_nil, decide_true, Bool.and_self]
  | cons m l ih =>
    have h0 := h
    simp only [staleWf, Bool.and_eq_true, decide_eq_true_eq] at h
    obtain ⟨⟨⟨h1, h2⟩, hall⟩, hl⟩ := h
    simp only [insertAddr]
    split
    · rename_i hlt
      rw [staleWf, h0]
      simp only [List.all_cons, Bool.and_eq_true, decide_eq_true_eq, List.all_eq_true] at hall ⊢
      exact ⟨⟨⟨hn, h4⟩, hlt, fun x hx => Nat.lt_trans hlt (hall x hx)⟩, trivial⟩
    · split
      · exact h0
      · simp only [staleWf, Bool.and_eq_true, decide_eq_true_eq, List.all_eq_true] at hall ⊢
        refine ⟨⟨⟨h1, h2⟩, fun x hx => ?_⟩, ih hl⟩
        rcases (mem_insertAddr x n l).1 hx with rfl | hx
        · omega
        · exact hall x hx

/-- Taking an address out keeps the canonical form. -/
theorem removeAddr_wf (n : Nat) (l : List Nat) (h : staleWf l = true) : staleWf (removeAddr n l) = true := by
  induction l with
  | nil => rfl
  | cons m l ih =>
    simp only [staleWf, Bool.and_eq_true, decide_eq_true_eq, List.all_eq_true] at h
    obtain ⟨⟨h1, hall⟩, hl⟩ := h
    simp only [removeAddr]
    split
    · exact ih hl
    · simp only [staleWf, Bool.and_eq_true, decide_eq_true_eq, List.all_eq_true]
      exact ⟨⟨h1, fun x hx => hall x ((mem_removeAddr x n l).1 hx).2⟩, ih hl⟩

/-- The address of an aligned word is a multiple of 4. -/
theorem wordAddr_mod (a : Word) : (wordAddr a).toNat % 4 = 0 := by
  have h : (wordAddr a) &&& 3#32 = 0#32 := by
    unfold wordAddr
    rw [BitVec.and_assoc]
    simp
  have h' := congrArg BitVec.toNat h
  rw [BitVec.toNat_and] at h'
  have h3 : (3#32).toNat = 2 ^ 2 - 1 := rfl
  rw [h3, Nat.and_two_pow_sub_one_eq_mod] at h'
  simpa using h'

/-- A store keeps the canonical form of the stale set. -/
theorem storeBytes_staleWf (s : State) (a : Word) (bs : List Byte) (h : staleWf s.stale = true) :
    staleWf (storeBytes s a bs).stale = true := by
  induction bs generalizing s a with
  | nil => exact h
  | cons b bs ih => exact ih _ _ (insertAddr_wf _ _ (wordAddr a).isLt (wordAddr_mod a) h)

/-- The stale set after a store (R39, R75). -/
theorem mem_stale_storeBytes (s : State) (a : Word) (bs : List Byte) (n : Nat) :
    n ∈ (storeBytes s a bs).stale ↔
      n ∈ s.stale ∨ ∃ k : Nat, k < bs.length ∧ n = (wordAddr (a + BitVec.ofNat 32 k)).toNat := by
  induction bs generalizing s a with
  | nil => simp [storeBytes]
  | cons b bs ih =>
    rw [storeBytes, ih, storeByte_stale, mem_insertAddr]
    have shift : ∀ k : Nat, a + 1#32 + BitVec.ofNat 32 k = a + BitVec.ofNat 32 (k + 1) := by
      intro k
      rw [BitVec.add_assoc, Nat.add_comm k 1, BitVec.ofNat_add]
    constructor
    · rintro ((rfl | h) | ⟨k, hk, rfl⟩)
      · exact .inr ⟨0, by simp, by simp⟩
      · exact .inl h
      · exact .inr ⟨k + 1, by simpa using hk, by rw [shift]⟩
    · rintro (h | ⟨k, hk, rfl⟩)
      · exact .inl (.inr h)
      · cases k with
        | zero => exact .inl (.inl (by simp))
        | succ k => exact .inr ⟨k, by simpa using hk, by rw [shift]⟩

end Sys2Proof.Machine
end

