-- ==== Sys2Proof/Laws/PerInstr.lean ====
section
/-!
SUPPORT. Statements made instruction by instruction. `TableRow`: the encoder's word of an instruction is a word of the
row that R112 gives it.
-/

namespace Sys2Proof.Laws

/-- The word of the instruction is one of its row of R112. -/
def TableRow.Statement (i : Instr) : Prop := (tableRow i).holds (encode i)

theorem TableRow.add (rd rs rt : Reg) : TableRow.Statement (.add rd rs rt) :=
  (encodeR_keep_FC0007FF _ _ _ _ _ _).trans rfl

theorem TableRow.addi (rt rs : Reg) (imm : Half) : TableRow.Statement (.addi rt rs imm) :=
  (encodeI_keep_FC000000 _ _ _ _).trans rfl

theorem TableRow.addiu (rt rs : Reg) (imm : Half) : TableRow.Statement (.addiu rt rs imm) :=
  (encodeI_keep_FC000000 _ _ _ _).trans rfl

theorem TableRow.addu (rd rs rt : Reg) : TableRow.Statement (.addu rd rs rt) :=
  (encodeR_keep_FC0007FF _ _ _ _ _ _).trans rfl

theorem TableRow.clo (rd rs rt : Reg) : TableRow.Statement (.clo rd rs rt) :=
  (encodeR_keep_FC0007FF _ _ _ _ _ _).trans rfl

theorem TableRow.clz (rd rs rt : Reg) : TableRow.Statement (.clz rd rs rt) :=
  (encodeR_keep_FC0007FF _ _ _ _ _ _).trans rfl

theorem TableRow.div (rs rt : Reg) : TableRow.Statement (.div rs rt) :=
  (encodeR_keep_FC00FFFF _ _ _ _ _ _).trans rfl

theorem TableRow.divu (rs rt : Reg) : TableRow.Statement (.divu rs rt) :=
  (encodeR_keep_FC00FFFF _ _ _ _ _ _).trans rfl

theorem TableRow.madd (rs rt : Reg) : TableRow.Statement (.madd rs rt) :=
  (encodeR_keep_FC00FFFF _ _ _ _ _ _).trans rfl

theorem TableRow.maddu (rs rt : Reg) : TableRow.Statement (.maddu rs rt) :=
  (encodeR_keep_FC00FFFF _ _ _ _ _ _).trans rfl

theorem TableRow.msub (rs rt : Reg) : TableRow.Statement (.msub rs rt) :=
  (encodeR_keep_FC00FFFF _ _ _ _ _ _).trans rfl

theorem TableRow.msubu (rs rt : Reg) : TableRow.Statement (.msubu rs rt) :=
  (encodeR_keep_FC00FFFF _ _ _ _ _ _).trans rfl

theorem TableRow.mul (rd rs rt : Reg) : TableRow.Statement (.mul rd rs rt) :=
  (encodeR_keep_FC0007FF _ _ _ _ _ _).trans rfl

theorem TableRow.mult (rs rt : Reg) : TableRow.Statement (.mult rs rt) :=
  (encodeR_keep_FC00FFFF _ _ _ _ _ _).trans rfl

theorem TableRow.multu (rs rt : Reg) : TableRow.Statement (.multu rs rt) :=
  (encodeR_keep_FC00FFFF _ _ _ _ _ _).trans rfl

theorem TableRow.seb (rd rt : Reg) : TableRow.Statement (.seb rd rt) :=
  (encodeR_keep_FFE007FF _ _ _ _ _ _).trans rfl

theorem TableRow.seh (rd rt : Reg) : TableRow.Statement (.seh rd rt) :=
  (encodeR_keep_FFE007FF _ _ _ _ _ _).trans rfl

theorem TableRow.slt (rd rs rt : Reg) : TableRow.Statement (.slt rd rs rt) :=
  (encodeR_keep_FC0007FF _ _ _ _ _ _).trans rfl

theorem TableRow.slti (rt rs : Reg) (imm : Half) : TableRow.Statement (.slti rt rs imm) :=
  (encodeI_keep_FC000000 _ _ _ _).trans rfl

theorem TableRow.sltiu (rt rs : Reg) (imm : Half) : TableRow.Statement (.sltiu rt rs imm) :=
  (encodeI_keep_FC000000 _ _ _ _).trans rfl

theorem TableRow.sltu (rd rs rt : Reg) : TableRow.Statement (.sltu rd rs rt) :=
  (encodeR_keep_FC0007FF _ _ _ _ _ _).trans rfl

theorem TableRow.sub (rd rs rt : Reg) : TableRow.Statement (.sub rd rs rt) :=
  (encodeR_keep_FC0007FF _ _ _ _ _ _).trans rfl

theorem TableRow.subu (rd rs rt : Reg) : TableRow.Statement (.subu rd rs rt) :=
  (encodeR_keep_FC0007FF _ _ _ _ _ _).trans rfl

theorem TableRow.b (off : Half) : TableRow.Statement (.b off) :=
  (encodeI_keep_FFFF0000 _ _ _ _).trans rfl

theorem TableRow.bal (off : Half) : TableRow.Statement (.bal off) :=
  (encodeI_keep_FFFF0000 _ _ _ _).trans rfl

theorem TableRow.beq (rs rt : Reg) (off : Half) : TableRow.Statement (.beq rs rt off) :=
  (encodeI_keep_FC000000 _ _ _ _).trans rfl

theorem TableRow.bgez (rs : Reg) (off : Half) : TableRow.Statement (.bgez rs off) :=
  (encodeI_keep_FC1F0000 _ _ _ _).trans rfl

theorem TableRow.bgezal (rs : Reg) (off : Half) : TableRow.Statement (.bgezal rs off) :=
  (encodeI_keep_FC1F0000 _ _ _ _).trans rfl

theorem TableRow.bgtz (rs : Reg) (off : Half) : TableRow.Statement (.bgtz rs off) :=
  (encodeI_keep_FC1F0000 _ _ _ _).trans rfl

theorem TableRow.blez (rs : Reg) (off : Half) : TableRow.Statement (.blez rs off) :=
  (encodeI_keep_FC1F0000 _ _ _ _).trans rfl

theorem TableRow.bltz (rs : Reg) (off : Half) : TableRow.Statement (.bltz rs off) :=
  (encodeI_keep_FC1F0000 _ _ _ _).trans rfl

theorem TableRow.bltzal (rs : Reg) (off : Half) : TableRow.Statement (.bltzal rs off) :=
  (encodeI_keep_FC1F0000 _ _ _ _).trans rfl

theorem TableRow.bne (rs rt : Reg) (off : Half) : TableRow.Statement (.bne rs rt off) :=
  (encodeI_keep_FC000000 _ _ _ _).trans rfl

theorem TableRow.j (index : BitVec 26) : TableRow.Statement (.j index) :=
  (encodeJ_keep_FC000000 _ _).trans rfl

theorem TableRow.jal (index : BitVec 26) : TableRow.Statement (.jal index) :=
  (encodeJ_keep_FC000000 _ _).trans rfl

theorem TableRow.jalr (rd rs : Reg) : TableRow.Statement (.jalr rd rs) :=
  (encodeR_keep_FC1F07FF _ _ _ _ _ _).trans rfl

theorem TableRow.jalrHb (rd rs : Reg) : TableRow.Statement (.jalrHb rd rs) :=
  (encodeR_keep_FC1F07FF _ _ _ _ _ _).trans rfl

theorem TableRow.jr (rs : Reg) : TableRow.Statement (.jr rs) :=
  (encodeR_keep_FC1FFFFF _ _ _ _ _ _).trans rfl

theorem TableRow.jrHb (rs : Reg) : TableRow.Statement (.jrHb rs) :=
  (encodeR_keep_FC1FFFFF _ _ _ _ _ _).trans rfl

theorem TableRow.ehb : TableRow.Statement (.ehb) :=
  (encodeR_keep_FFFFFFFF _ _ _ _ _ _).trans rfl

theorem TableRow.nop : TableRow.Statement (.nop) :=
  (encodeR_keep_FFFFFFFF _ _ _ _ _ _).trans rfl

theorem TableRow.ssnop : TableRow.Statement (.ssnop) :=
  (encodeR_keep_FFFFFFFF _ _ _ _ _ _).trans rfl

theorem TableRow.lb (rt : Reg) (off : Half) (base : Reg) : TableRow.Statement (.lb rt off base) :=
  (encodeI_keep_FC000000 _ _ _ _).trans rfl

theorem TableRow.lbu (rt : Reg) (off : Half) (base : Reg) : TableRow.Statement (.lbu rt off base) :=
  (encodeI_keep_FC000000 _ _ _ _).trans rfl

theorem TableRow.lh (rt : Reg) (off : Half) (base : Reg) : TableRow.Statement (.lh rt off base) :=
  (encodeI_keep_FC000000 _ _ _ _).trans rfl

theorem TableRow.lhu (rt : Reg) (off : Half) (base : Reg) : TableRow.Statement (.lhu rt off base) :=
  (encodeI_keep_FC000000 _ _ _ _).trans rfl

theorem TableRow.ll (rt : Reg) (off : Half) (base : Reg) : TableRow.Statement (.ll rt off base) :=
  (encodeI_keep_FC000000 _ _ _ _).trans rfl

theorem TableRow.lw (rt : Reg) (off : Half) (base : Reg) : TableRow.Statement (.lw rt off base) :=
  (encodeI_keep_FC000000 _ _ _ _).trans rfl

theorem TableRow.lwl (rt : Reg) (off : Half) (base : Reg) : TableRow.Statement (.lwl rt off base) :=
  (encodeI_keep_FC000000 _ _ _ _).trans rfl

theorem TableRow.lwr (rt : Reg) (off : Half) (base : Reg) : TableRow.Statement (.lwr rt off base) :=
  (encodeI_keep_FC000000 _ _ _ _).trans rfl

theorem TableRow.pref (hint : BitVec 5) (off : Half) (base : Reg) : TableRow.Statement (.pref hint off base) :=
  (encodeI_keep_FC000000 _ _ _ _).trans rfl

theorem TableRow.sb (rt : Reg) (off : Half) (base : Reg) : TableRow.Statement (.sb rt off base) :=
  (encodeI_keep_FC000000 _ _ _ _).trans rfl

theorem TableRow.sc (rt : Reg) (off : Half) (base : Reg) : TableRow.Statement (.sc rt off base) :=
  (encodeI_keep_FC000000 _ _ _ _).trans rfl

theorem TableRow.sh (rt : Reg) (off : Half) (base : Reg) : TableRow.Statement (.sh rt off base) :=
  (encodeI_keep_FC000000 _ _ _ _).trans rfl

theorem TableRow.sd (rt : Reg) (off : Half) (base : Reg) : TableRow.Statement (.sd rt off base) :=
  (encodeI_keep_FC000000 _ _ _ _).trans rfl

theorem TableRow.sw (rt : Reg) (off : Half) (base : Reg) : TableRow.Statement (.sw rt off base) :=
  (encodeI_keep_FC000000 _ _ _ _).trans rfl

theorem TableRow.swl (rt : Reg) (off : Half) (base : Reg) : TableRow.Statement (.swl rt off base) :=
  (encodeI_keep_FC000000 _ _ _ _).trans rfl

theorem TableRow.swr (rt : Reg) (off : Half) (base : Reg) : TableRow.Statement (.swr rt off base) :=
  (encodeI_keep_FC000000 _ _ _ _).trans rfl

theorem TableRow.sync (stype : BitVec 5) : TableRow.Statement (.sync stype) :=
  (encodeR_keep_FFFFF83F _ _ _ _ _ _).trans rfl

theorem TableRow.synci (off : Half) (base : Reg) : TableRow.Statement (.synci off base) :=
  (encodeI_keep_FC1F0000 _ _ _ _).trans rfl

theorem TableRow.and (rd rs rt : Reg) : TableRow.Statement (.and rd rs rt) :=
  (encodeR_keep_FC0007FF _ _ _ _ _ _).trans rfl

theorem TableRow.andi (rt rs : Reg) (imm : Half) : TableRow.Statement (.andi rt rs imm) :=
  (encodeI_keep_FC000000 _ _ _ _).trans rfl

theorem TableRow.lui (rt : Reg) (imm : Half) : TableRow.Statement (.lui rt imm) :=
  (encodeI_keep_FFE00000 _ _ _ _).trans rfl

theorem TableRow.nor (rd rs rt : Reg) : TableRow.Statement (.nor rd rs rt) :=
  (encodeR_keep_FC0007FF _ _ _ _ _ _).trans rfl

theorem TableRow.or (rd rs rt : Reg) : TableRow.Statement (.or rd rs rt) :=
  (encodeR_keep_FC0007FF _ _ _ _ _ _).trans rfl

theorem TableRow.ori (rt rs : Reg) (imm : Half) : TableRow.Statement (.ori rt rs imm) :=
  (encodeI_keep_FC000000 _ _ _ _).trans rfl

theorem TableRow.xor (rd rs rt : Reg) : TableRow.Statement (.xor rd rs rt) :=
  (encodeR_keep_FC0007FF _ _ _ _ _ _).trans rfl

theorem TableRow.xori (rt rs : Reg) (imm : Half) : TableRow.Statement (.xori rt rs imm) :=
  (encodeI_keep_FC000000 _ _ _ _).trans rfl

theorem TableRow.ext (rt rs : Reg) (msbd lsb : BitVec 5) : TableRow.Statement (.ext rt rs msbd lsb) :=
  (encodeR_keep_FC00003F _ _ _ _ _ _).trans rfl

theorem TableRow.ins (rt rs : Reg) (msb lsb : BitVec 5) : TableRow.Statement (.ins rt rs msb lsb) :=
  (encodeR_keep_FC00003F _ _ _ _ _ _).trans rfl

theorem TableRow.wsbh (rd rt : Reg) : TableRow.Statement (.wsbh rd rt) :=
  (encodeR_keep_FFE007FF _ _ _ _ _ _).trans rfl

theorem TableRow.movn (rd rs rt : Reg) : TableRow.Statement (.movn rd rs rt) :=
  (encodeR_keep_FC0007FF _ _ _ _ _ _).trans rfl

theorem TableRow.movt (rd rs : Reg) (cc : BitVec 3) : TableRow.Statement (.movt rd rs cc) :=
  (encodeCc_keep_FC0307FF _ _ _).trans rfl

theorem TableRow.movz (rd rs rt : Reg) : TableRow.Statement (.movz rd rs rt) :=
  (encodeR_keep_FC0007FF _ _ _ _ _ _).trans rfl

theorem TableRow.mthi (rs : Reg) : TableRow.Statement (.mthi rs) :=
  (encodeR_keep_FC1FFFFF _ _ _ _ _ _).trans rfl

theorem TableRow.mtlo (rs : Reg) : TableRow.Statement (.mtlo rs) :=
  (encodeR_keep_FC1FFFFF _ _ _ _ _ _).trans rfl

theorem TableRow.rdhwr (rt : Reg) (hwr : BitVec 5) : TableRow.Statement (.rdhwr rt hwr) :=
  (encodeR_keep_FFE007FF _ _ _ _ _ _).trans rfl

theorem TableRow.rotr (rd rt : Reg) (sa : BitVec 5) : TableRow.Statement (.rotr rd rt sa) :=
  (encodeR_keep_FFE0003F _ _ _ _ _ _).trans rfl

theorem TableRow.rotrv (rd rt rs : Reg) : TableRow.Statement (.rotrv rd rt rs) :=
  (encodeR_keep_FC0007FF _ _ _ _ _ _).trans rfl

theorem TableRow.sll (rd rt : Reg) (sa : BitVec 5) : TableRow.Statement (.sll rd rt sa) :=
  (encodeR_keep_FFE0003F _ _ _ _ _ _).trans rfl

theorem TableRow.sllv (rd rt rs : Reg) : TableRow.Statement (.sllv rd rt rs) :=
  (encodeR_keep_FC0007FF _ _ _ _ _ _).trans rfl

theorem TableRow.sra (rd rt : Reg) (sa : BitVec 5) : TableRow.Statement (.sra rd rt sa) :=
  (encodeR_keep_FFE0003F _ _ _ _ _ _).trans rfl

theorem TableRow.srav (rd rt rs : Reg) : TableRow.Statement (.srav rd rt rs) :=
  (encodeR_keep_FC0007FF _ _ _ _ _ _).trans rfl

theorem TableRow.srl (rd rt : Reg) (sa : BitVec 5) : TableRow.Statement (.srl rd rt sa) :=
  (encodeR_keep_FFE0003F _ _ _ _ _ _).trans rfl

theorem TableRow.srlv (rd rt rs : Reg) : TableRow.Statement (.srlv rd rt rs) :=
  (encodeR_keep_FC0007FF _ _ _ _ _ _).trans rfl

theorem TableRow.breakpoint (code : BitVec 20) : TableRow.Statement (.breakpoint code) :=
  (encodeCode_keep_FC00003F _ _).trans rfl

theorem TableRow.syscall (code : BitVec 20) : TableRow.Statement (.syscall code) :=
  (encodeCode_keep_FC00003F _ _).trans rfl

theorem TableRow.teq (rs rt : Reg) (code : BitVec 10) : TableRow.Statement (.teq rs rt code) :=
  (encodeTrap_keep_FC00003F _ _ _ _).trans rfl

theorem TableRow.teqi (rs : Reg) (imm : Half) : TableRow.Statement (.teqi rs imm) :=
  (encodeI_keep_FC1F0000 _ _ _ _).trans rfl

theorem TableRow.tge (rs rt : Reg) (code : BitVec 10) : TableRow.Statement (.tge rs rt code) :=
  (encodeTrap_keep_FC00003F _ _ _ _).trans rfl

theorem TableRow.tgei (rs : Reg) (imm : Half) : TableRow.Statement (.tgei rs imm) :=
  (encodeI_keep_FC1F0000 _ _ _ _).trans rfl

theorem TableRow.tgeiu (rs : Reg) (imm : Half) : TableRow.Statement (.tgeiu rs imm) :=
  (encodeI_keep_FC1F0000 _ _ _ _).trans rfl

theorem TableRow.tgeu (rs rt : Reg) (code : BitVec 10) : TableRow.Statement (.tgeu rs rt code) :=
  (encodeTrap_keep_FC00003F _ _ _ _).trans rfl

theorem TableRow.tlt (rs rt : Reg) (code : BitVec 10) : TableRow.Statement (.tlt rs rt code) :=
  (encodeTrap_keep_FC00003F _ _ _ _).trans rfl

theorem TableRow.tlti (rs : Reg) (imm : Half) : TableRow.Statement (.tlti rs imm) :=
  (encodeI_keep_FC1F0000 _ _ _ _).trans rfl

theorem TableRow.tltiu (rs : Reg) (imm : Half) : TableRow.Statement (.tltiu rs imm) :=
  (encodeI_keep_FC1F0000 _ _ _ _).trans rfl

theorem TableRow.tltu (rs rt : Reg) (code : BitVec 10) : TableRow.Statement (.tltu rs rt code) :=
  (encodeTrap_keep_FC00003F _ _ _ _).trans rfl

theorem TableRow.tne (rs rt : Reg) (code : BitVec 10) : TableRow.Statement (.tne rs rt code) :=
  (encodeTrap_keep_FC00003F _ _ _ _).trans rfl

end Sys2Proof.Laws
end

