-- ==== Sys2Proof/Laws/Shapes.lean ====
section
/-!
SUPPORT. One lemma for each shared operation: everything it can do, so that no proof about an instruction unfolds it.
-/

namespace Sys2Proof.Machine

/-! ## The program counter -/

/-- A state that differs from `s` outside pc, npc and the parameters advances as `s` does (R35). -/
theorem advanced_of {s u : State} (hp : u.params = s.params) (h1 : u.pc = s.pc) (h2 : u.npc = s.npc) : Advanced s (advance u) := by
  unfold Advanced advance
  rw [hp]
  split <;> simp_all

/-- A state that differs from `s` outside pc, npc and the parameters transfers control as `s` does (R180). -/
theorem transferred_of {s u : State} {c : Bool} {p : Prop} (target : Word) (hc : c = true ↔ p)
    (hp : u.params = s.params) (h1 : u.pc = s.pc) (h2 : u.npc = s.npc) :
    Transferred s (transfer u c target) p target := by
  unfold Transferred transfer
  rw [hp, ← hc]
  split <;> cases c <;> simp_all

/-! ## Completing -/

/-- What `completeReg` does (R31, R35). -/
theorem completeReg_spec (s : State) (d : Reg) (v : Word) :
    ∃ t, completeReg s d v = .next t ∧ WritesReg s t d v := by
  refine ⟨_, rfl, ?_, ?_, ⟨?_, ?_⟩, ⟨?_, ?_⟩, ⟨?_, ?_⟩, ⟨?_, ?_, ?_⟩, ?_, ?_⟩ <;> try simp
  · rw [readReg_writeReg]
    by_cases h : d = 0#5 <;> simp [h]
  · intro r hr
    rw [readReg_advance, readReg_writeReg]
    simp [hr]
  · intro a
    simp [memByte]
  · exact advanced_of (by simp) (by simp) (by simp)

/-- What `complete` does on its own (R35). -/
theorem complete_spec (s : State) : ∃ t, complete s = .next t ∧ OnlyAdvances s t := by
  refine ⟨_, rfl, fun r => by simp, ⟨by simp, by simp⟩, ⟨fun a => by simp [memByte], by simp⟩, ⟨by simp, by simp⟩,
    ⟨by simp, by simp, by simp⟩, by simp, ?_⟩
  exact advanced_of rfl rfl rfl

/-- What a write of HI and LO that completes does (R33). -/
theorem complete_hiLo_spec (s : State) (h l : Word) :
    ∃ t, complete { s with hi := h, lo := l } = .next t ∧ WritesHiLo s t h l := by
  refine ⟨_, rfl, by simp, by simp, fun r => ?_, ⟨fun a => by simp [memByte], by simp⟩, ⟨by simp, by simp⟩,
    ⟨by simp, by simp, by simp⟩, by simp, ?_⟩
  · rw [readReg_advance]
    rfl
  · exact advanced_of rfl rfl rfl

/-- What a write of the 64-bit accumulator that completes does (R149). -/
theorem complete_writeAcc_spec (s : State) (v : BitVec 64) :
    ∃ t, complete (writeAcc s v) = .next t ∧ WritesHiLo s t (v.extractLsb' 32 32) (v.extractLsb' 0 32) :=
  complete_hiLo_spec s _ _

/-- What a free HI and LO that completes does (R147). -/
theorem complete_drawAcc_spec (s : State) : ∃ t, complete (drawAcc s) = .next t ∧ FreesHiLo s t := by
  refine ⟨_, rfl, by simp, by simp, by simp, fun r => by simp, ⟨fun a => by simp [memByte], by simp⟩, ⟨by simp, by simp⟩,
    ⟨by simp, by simp, by simp⟩, ?_⟩
  exact advanced_of rfl rfl rfl

/-- What a store that completes does, when memory is canonical (R61, R75, R220). -/
theorem complete_storeBytes_spec (s : State) (a : Word) (bs : List Byte) (hm : Memory.wf s.mem = true)
    (hl : bs.length ≤ 2 ^ 32) : ∃ t, complete (storeBytes s a bs) = .next t ∧ StoresBytes s t a bs := by
  refine ⟨_, rfl, ?_, ?_, ?_, fun r => by simp, ⟨by simp, by simp⟩, ⟨by simp, by simp⟩,
    ⟨by simp, by simp, by simp⟩, by simp, ?_⟩
  · intro k hk
    have := memByte_storeBytes_same s a bs hm hl k hk
    simpa [memByte] using this
  · intro b hb
    have := memByte_storeBytes_ne s a b bs hb
    simpa [memByte] using this
  · intro n
    rw [advance_stale]
    exact mem_stale_storeBytes s a bs n
  · exact advanced_of (by simp) (by simp) (by simp)

/-! ## Control transfer -/

/-- What a transfer with no link does (R180). -/
theorem transfer_spec (s : State) (c : Bool) (p : Prop) (target : Word) (hc : c = true ↔ p) :
    TransfersTo s (transfer s c target) none p target := by
  refine ⟨fun r => by simp, ⟨by simp, by simp⟩, ⟨fun a => by simp [memByte], by simp⟩, ⟨by simp, by simp⟩,
    ⟨by simp, by simp, by simp⟩, by simp, ?_⟩
  exact transferred_of target hc rfl rfl rfl

/-- What a transfer that links does (R180, R184). -/
theorem transfer_link_spec (s : State) (d : Reg) (v : Word) (c : Bool) (p : Prop) (target : Word)
    (hc : c = true ↔ p) : TransfersTo s (transfer (writeReg s d v) c target) (some (d, v)) p target := by
  refine ⟨fun r => ?_, ⟨by simp, by simp⟩, ⟨fun a => by simp [memByte], by simp⟩, ⟨by simp, by simp⟩,
    ⟨by simp, by simp, by simp⟩, by simp, ?_⟩
  · rw [readReg_transfer, readReg_writeReg]
  · exact transferred_of target hc (by simp) (by simp) (by simp)

/-- Outside a delay slot a branch or jump does what its rule says (R42 step 6). -/
theorem controlTransfer_run (s : State) (k : Result) (h : inDelaySlot s = false) : controlTransfer s k = k := by
  simp [controlTransfer, h]

/-- In a delay slot a branch or jump faults (R181). -/
theorem controlTransfer_fault (s : State) (k : Result) (h : inDelaySlot s = true) :
    controlTransfer s k = .fault .branchInDelaySlot := by
  simp [controlTransfer, h]

/-- A branch or jump has a next state only outside a delay slot, and then it is its rule's. -/
theorem controlTransfer_next {s t : State} {k : Result} (h : controlTransfer s k = .next t) :
    inDelaySlot s = false ∧ k = .next t := by
  unfold controlTransfer at h
  split at h
  · cases h
  · exact ⟨by simp_all, h⟩

/-- What `branchIf` does outside a delay slot (R180, R182). -/
theorem branchIf_spec (s : State) (c : Bool) (p : Prop) (off : Half) (h : inDelaySlot s = false) (hc : c = true ↔ p) :
    ∃ t, branchIf s c off = .next t ∧ TransfersTo s t none p (branchTarget s off) :=
  ⟨_, controlTransfer_run s _ h, transfer_spec s c p _ hc⟩

/-- What `branchLinkIf` does outside a delay slot (R184, R189). -/
theorem branchLinkIf_spec (s : State) (c : Bool) (p : Prop) (off : Half) (h : inDelaySlot s = false)
    (hc : c = true ↔ p) :
    ∃ t, branchLinkIf s c off = .next t ∧ TransfersTo s t (some (31#5, linkValue s)) p (branchTarget s off) :=
  ⟨_, controlTransfer_run s _ h, transfer_link_spec s _ _ c p _ hc⟩

/-- What `branchLinkOn` does outside a delay slot on a register other than 31 (R189, R193). -/
theorem branchLinkOn_spec (s : State) (rs : Reg) (c : Bool) (p : Prop) (off : Half) (h : inDelaySlot s = false)
    (h31 : rs ≠ 31#5) (hc : c = true ↔ p) :
    ∃ t, branchLinkOn s rs c off = .next t ∧ TransfersTo s t (some (31#5, linkValue s)) p (branchTarget s off) := by
  obtain ⟨t, h1, h2⟩ := branchLinkIf_spec s c p off h hc
  refine ⟨t, ?_, h2⟩
  rw [branchLinkOn, controlTransfer_run s _ h, if_neg h31, h1]

/-- What `jumpTo` does outside a delay slot (R180). -/
theorem jumpTo_spec (s : State) (target : Word) (h : inDelaySlot s = false) :
    ∃ t, jumpTo s target = .next t ∧ TransfersTo s t none True target :=
  ⟨_, controlTransfer_run s _ h, transfer_spec s true True _ (by simp)⟩

/-- What `jumpLinkReg` does outside a delay slot when the link register is not the source (R197). -/
theorem jumpLinkReg_spec (s : State) (rd rs : Reg) (h : inDelaySlot s = false) (hne : rd ≠ rs) :
    ∃ t, jumpLinkReg s rd rs = .next t ∧ TransfersTo s t (some (rd, linkValue s)) True (readReg s rs) := by
  refine ⟨_, ?_, transfer_link_spec s _ _ true True _ (by simp)⟩
  rw [jumpLinkReg, controlTransfer_run s _ h, if_neg hne]

/-! ## Exceptions -/

/-- The record of an exception is the one R356 gives. -/
theorem trapRecord_eq (s : State) (c : Cause) (w : Option Why) (b : Option Word) :
    trapRecord s c w b = expectedRecord s c w b := by
  simp [trapRecord, expectedRecord, inDelaySlot]

/-- What taking an exception does (R356). -/
theorem takeException_spec (s : State) (c : Cause) (w : Option Why) (b : Option Word) :
    ∃ t, takeException s c w b = .next t ∧ TrapsWith s t c w b :=
  ⟨_, rfl, by rw [TrapsWith, trapRecord_eq]⟩

/-- Everything a conditional trap can do (R320(e), R350(d)). -/
theorem trapIf_spec (s : State) (c : Bool) (p : Prop) (hc : c = true ↔ p) :
    ∃ t, trapIf s c = .next t ∧ (p → TrapsWith s t .trap none none) ∧ (¬p → OnlyAdvances s t) := by
  cases c with
  | true =>
    obtain ⟨t, h1, h2⟩ := takeException_spec s .trap none none
    exact ⟨t, h1, fun _ => h2, fun h => absurd (hc.1 rfl) h⟩
  | false =>
    obtain ⟨t, h1, h2⟩ := complete_spec s
    exact ⟨t, h1, fun h => absurd (hc.2 h) (by simp), fun _ => h2⟩

/-! ## Arithmetic -/

/-- When the exact sum does not fit (R140(c)). -/
theorem addOverflows_iff (a b : Word) :
    addOverflows a b = true ↔ (a.toInt + b.toInt < -2147483648 ∨ 2147483647 < a.toInt + b.toInt) := by
  simp only [addOverflows, fitsSigned, Bool.not_eq_true', decide_eq_false_iff_not]
  omega

/-- When the exact difference does not fit (R140(c)). -/
theorem subOverflows_iff (a b : Word) :
    subOverflows a b = true ↔ (a.toInt - b.toInt < -2147483648 ∨ 2147483647 < a.toInt - b.toInt) := by
  simp only [subOverflows, fitsSigned, Bool.not_eq_true', decide_eq_false_iff_not]
  omega

/-- Everything a trapping addition can do (R141). -/
theorem addTrapping_spec (s : State) (d : Reg) (a b : Word) :
    ∃ t, addTrapping s d a b = .next t ∧ (addOverflows a b = true → TrapsWith s t .integerOverflow none none) ∧
      (addOverflows a b = false → WritesReg s t d (a + b)) := by
  unfold addTrapping
  cases addOverflows a b with
  | true => obtain ⟨t, h1, h2⟩ := takeException_spec s .integerOverflow none none; exact ⟨t, h1, fun _ => h2, nofun⟩
  | false => obtain ⟨t, h1, h2⟩ := completeReg_spec s d (a + b); exact ⟨t, h1, nofun, fun _ => h2⟩

/-- Everything a trapping subtraction can do (R162). -/
theorem subTrapping_spec (s : State) (d : Reg) (a b : Word) :
    ∃ t, subTrapping s d a b = .next t ∧ (subOverflows a b = true → TrapsWith s t .integerOverflow none none) ∧
      (subOverflows a b = false → WritesReg s t d (a - b)) := by
  unfold subTrapping
  cases subOverflows a b with
  | true => obtain ⟨t, h1, h2⟩ := takeException_spec s .integerOverflow none none; exact ⟨t, h1, fun _ => h2, nofun⟩
  | false => obtain ⟨t, h1, h2⟩ := completeReg_spec s d (a - b); exact ⟨t, h1, nofun, fun _ => h2⟩

/-- The run counted from the top of `n` bits: no longer than `n`, all its bits are `b`, and the next is not
(R145, R146). -/
theorem leadingRun_spec (b : Bool) (v : Word) (n : Nat) :
    leadingRun b v n ≤ n ∧ (∀ j : Nat, j < leadingRun b v n → v.getLsbD (n - 1 - j) = b) ∧
      (leadingRun b v n < n → v.getLsbD (n - 1 - leadingRun b v n) ≠ b) := by
  induction n with
  | zero => simp [leadingRun]
  | succ n ih =>
    obtain ⟨h1, h2, h3⟩ := ih
    simp only [leadingRun]
    split
    · rename_i hb
      refine ⟨by omega, ?_, ?_⟩
      · intro j hj
        cases j with
        | zero => simpa using hb
        | succ j =>
          have := h2 j (by omega)
          have e : n + 1 - 1 - (j + 1) = n - 1 - j := by omega
          rw [e]
          exact this
      · intro hlt
        have := h3 (by omega)
        have e : n + 1 - 1 - (leadingRun b v n + 1) = n - 1 - leadingRun b v n := by omega
        rw [e]
        exact this
    · rename_i hb
      exact ⟨by omega, fun j hj => absurd hj (by omega), fun _ => by simpa using hb⟩

/-- What counting leading bits does when the two fields agree (R145, R146). -/
theorem countLeading_spec (s : State) (b : Bool) (rd rs : Reg) :
    ∃ t, countLeading s b rd rs rd = .next t ∧
      WritesReg s t rd (BitVec.ofNat 32 (leadingRun b (readReg s rs) 32)) := by
  obtain ⟨t, h1, h2⟩ := completeReg_spec s rd (BitVec.ofNat 32 (leadingRun b (readReg s rs) 32))
  exact ⟨t, by simp [countLeading, h1], h2⟩

/-! ## Moves -/

/-- Everything a conditional move can do (R289). -/
theorem moveIf_spec (s : State) (c : Bool) (p : Prop) (rd rs : Reg) (hc : c = true ↔ p) :
    ∃ t, moveIf s c rd rs = .next t ∧ (p → WritesReg s t rd (readReg s rs)) ∧ (¬p → OnlyAdvances s t) := by
  cases c with
  | true =>
    obtain ⟨t, h1, h2⟩ := completeReg_spec s rd (readReg s rs)
    exact ⟨t, h1, fun _ => h2, fun h => absurd (hc.1 rfl) h⟩
  | false =>
    obtain ⟨t, h1, h2⟩ := complete_spec s
    exact ⟨t, h1, fun h => absurd (hc.2 h) (by simp), fun _ => h2⟩

/-! ## Loads and stores -/

/-- An aligned, admitted load does what its rule says (R220). -/
theorem checkedLoad_run (s : State) (ea : Word) (n : Nat) (k : Result) (ha : ea.toNat % n = 0)
    (hm : admitsAll s .read ea n = true) : checkedLoad s ea n k = k := by
  simp [checkedLoad, ha, hm]

/-- A misaligned load raises AddressError (R64, R352). -/
theorem checkedLoad_misaligned (s : State) (ea : Word) (n : Nat) (k : Result) (ha : ea.toNat % n ≠ 0) :
    ∃ t, checkedLoad s ea n k = .next t ∧ TrapsWith s t .addressErrorLoad none (some ea) := by
  obtain ⟨t, h1, h2⟩ := takeException_spec s .addressErrorLoad none (some ea)
  exact ⟨t, by rw [checkedLoad, if_pos ha]; exact h1, h2⟩

/-- An aligned load that `MEMMAP` does not admit is stuck (R66). -/
theorem checkedLoad_stuck (s : State) (ea : Word) (n : Nat) (k : Result) (ha : ea.toNat % n = 0)
    (hm : admitsAll s .read ea n = false) : checkedLoad s ea n k = .fault (.loadNotAdmitted ea) := by
  simp [checkedLoad, ha, hm]

/-- Where a load has a next state (R220). -/
theorem checkedLoad_next {s t : State} {ea : Word} {n : Nat} {k : Result} (h : checkedLoad s ea n k = .next t) :
    (ea.toNat % n ≠ 0 ∧ TrapsWith s t .addressErrorLoad none (some ea)) ∨
      (ea.toNat % n = 0 ∧ admitsAll s .read ea n = true ∧ k = .next t) := by
  by_cases ha : ea.toNat % n = 0
  · cases hm : admitsAll s .read ea n with
    | true => rw [checkedLoad_run s ea n k ha hm] at h; exact .inr ⟨ha, rfl, h⟩
    | false => rw [checkedLoad_stuck s ea n k ha hm] at h; cases h
  · obtain ⟨t', h1, h2⟩ := checkedLoad_misaligned s ea n k ha
    rw [h1] at h
    cases h
    exact .inl ⟨ha, h2⟩

/-- An aligned, admitted store does what its rule says (R220). -/
theorem checkedStore_run (s : State) (ea : Word) (n : Nat) (k : Result) (ha : ea.toNat % n = 0)
    (hm : admitsAll s .write ea n = true) : checkedStore s ea n k = k := by
  simp [checkedStore, ha, hm]

/-- A misaligned store raises AddressError (R64, R352). -/
theorem checkedStore_misaligned (s : State) (ea : Word) (n : Nat) (k : Result) (ha : ea.toNat % n ≠ 0) :
    ∃ t, checkedStore s ea n k = .next t ∧ TrapsWith s t .addressErrorStore none (some ea) := by
  obtain ⟨t, h1, h2⟩ := takeException_spec s .addressErrorStore none (some ea)
  exact ⟨t, by rw [checkedStore, if_pos ha]; exact h1, h2⟩

/-- An aligned store that `MEMMAP` does not admit is stuck (R66). -/
theorem checkedStore_stuck (s : State) (ea : Word) (n : Nat) (k : Result) (ha : ea.toNat % n = 0)
    (hm : admitsAll s .write ea n = false) : checkedStore s ea n k = .fault (.storeNotAdmitted ea) := by
  simp [checkedStore, ha, hm]

/-- Where a store has a next state (R220). -/
theorem checkedStore_next {s t : State} {ea : Word} {n : Nat} {k : Result} (h : checkedStore s ea n k = .next t) :
    (ea.toNat % n ≠ 0 ∧ TrapsWith s t .addressErrorStore none (some ea)) ∨
      (ea.toNat % n = 0 ∧ admitsAll s .write ea n = true ∧ k = .next t) := by
  by_cases ha : ea.toNat % n = 0
  · cases hm : admitsAll s .write ea n with
    | true => rw [checkedStore_run s ea n k ha hm] at h; exact .inr ⟨ha, rfl, h⟩
    | false => rw [checkedStore_stuck s ea n k ha hm] at h; cases h
  · obtain ⟨t', h1, h2⟩ := checkedStore_misaligned s ea n k ha
    rw [h1] at h
    cases h
    exact .inl ⟨ha, h2⟩

/-- A byte address is a multiple of 1. -/
@[simp] theorem mod_one_word (a : Word) : a.toNat % 1 = 0 := Nat.mod_one _

/-- Everything the last part of SC does (R231). -/
theorem finishSc_spec (s : State) (rt : Reg) (ea old : Word) (ok : Bool) :
    finishSc s rt ea old ok =
      .next (advance (writeReg { (if ok then storeBytes s ea (splitWord s.params.endian old) else s) with
        llbit := false } rt (boolWord ok))) := rfl

end Sys2Proof.Machine
end

