-- ==== Sys2Proof/Laws/Step.lean ====
section
/-!
SUPPORT. What an instruction that reaches a next state can have done, said once for all 98: it has raised an exception, or
made its changes and advanced, or made its changes and transferred control.
-/

namespace Sys2Proof.Machine

/-- The changes an instruction may make before pc moves (R44): its destination register, HI and LO, memory and the stale
set together, the reservation, each only if the instruction is one that writes it. -/
structure Changes (i : Instr) (s u : State) : Prop where
  regs     : u.regs = s.regs ∨ ∃ d v, destReg i = some d ∧ u.regs = (writeReg s d v).regs
  acc      : (u.hi = s.hi ∧ u.lo = s.lo) ∨ writesHiLo i = true
  mem      : (u.mem = s.mem ∧ u.stale = s.stale) ∨
               (isStore i = true ∧ ∃ a bs, u.mem = (storeBytes s a bs).mem ∧ u.stale = (storeBytes s a bs).stale)
  reserved : (u.llbit = s.llbit ∧ u.lladdr = s.lladdr) ∨ (writesReservation i = true ∧ u.llbit = false ∧ u.lladdr = s.lladdr) ∨
               (writesReservation i = true ∧ u.lladdr.toNat % 4 = 0)
  pc       : u.pc = s.pc
  npc      : u.npc = s.npc
  ds       : u.ds = s.ds
  cc       : u.cc = s.cc
  outcome  : u.outcome = s.outcome
  params   : u.params = s.params

/-- What an instruction that reaches a next state has done (R35, R180, R356). -/
inductive Effect (i : Instr) (s t : State) : Prop where
  | raised (c : Cause) (w : Option Why) (b : Option Word) (may : mayRaise i c = true)
      (why : w = if c = .reservedInstruction then some .hwrDisabled else none)
      (addr : b.isSome = true ↔ c = .addressErrorLoad ∨ c = .addressErrorStore)
      (eq : t = { s with outcome := some (trapRecord s c w b) })
  | advanced (u : State) (seq : isTransfer i = false) (changes : Changes i s u) (eq : t = advance u)
  | transferred (u : State) (c : Bool) (target : Word) (tr : isTransfer i = true) (slot : inDelaySlot s = false)
      (link : ∀ d, linkReg i = some d → u = writeReg s d (linkValue s))
      (changes : Changes i s u) (eq : t = transfer u c target)

/-- An instruction that changes nothing before pc moves. -/
theorem Changes.none (i : Instr) (s : State) : Changes i s s :=
  ⟨.inl rfl, .inl ⟨rfl, rfl⟩, .inl ⟨rfl, rfl⟩, .inl ⟨rfl, rfl⟩, rfl, rfl, rfl, rfl, rfl, rfl⟩

/-- An instruction that only writes its destination register. -/
theorem Changes.reg {i : Instr} (s : State) {d : Reg} (v : Word) (h : destReg i = some d) :
    Changes i s (writeReg s d v) :=
  ⟨.inr ⟨d, v, h, rfl⟩, .inl ⟨by simp, by simp⟩, .inl ⟨by simp, by simp⟩, .inl ⟨by simp, by simp⟩, by simp, by simp,
    by simp, by simp, by simp, by simp⟩

/-- An instruction that only stores. -/
theorem Changes.store {i : Instr} (s : State) (a : Word) (bs : List Byte) (h : isStore i = true) :
    Changes i s (storeBytes s a bs) :=
  ⟨.inl (by simp), .inl ⟨by simp, by simp⟩, .inr ⟨h, a, bs, rfl, rfl⟩, .inl ⟨by simp, by simp⟩, by simp, by simp, by simp,
    by simp, by simp, by simp⟩

/-- An instruction that only writes HI and LO. -/
theorem Changes.acc' {i : Instr} (s : State) (h l : Word) (hw : writesHiLo i = true) :
    Changes i s { s with hi := h, lo := l } :=
  ⟨.inl rfl, .inr hw, .inl ⟨rfl, rfl⟩, .inl ⟨rfl, rfl⟩, rfl, rfl, rfl, rfl, rfl, rfl⟩

/-- An instruction that only leaves HI and LO free. -/
theorem Changes.drawAcc {i : Instr} (s : State) (hw : writesHiLo i = true) : Changes i s (drawAcc s) :=
  ⟨.inl rfl, .inr hw, .inl ⟨rfl, rfl⟩, .inl ⟨rfl, rfl⟩, rfl, rfl, rfl, rfl, rfl, rfl⟩

theorem effect_complete {i : Instr} {s u t : State} (seq : isTransfer i = false) (hc : Changes i s u)
    (h : complete u = .next t) : Effect i s t := by
  cases h
  exact .advanced u seq hc rfl

theorem effect_completeReg {i : Instr} {s t : State} {d : Reg} {v : Word} (seq : isTransfer i = false)
    (hd : destReg i = some d) (h : completeReg s d v = .next t) : Effect i s t :=
  effect_complete seq (.reg s v hd) h

theorem effect_raise {i : Instr} {s t : State} {c : Cause} {w : Option Why} {b : Option Word} (may : mayRaise i c = true)
    (why : w = if c = .reservedInstruction then some .hwrDisabled else none)
    (addr : b.isSome = true ↔ c = .addressErrorLoad ∨ c = .addressErrorStore)
    (h : takeException s c w b = .next t) : Effect i s t := by
  cases h
  exact .raised c w b may why addr rfl

theorem effect_load {i : Instr} {s t : State} {ea : Word} {n : Nat} {k : Result}
    (may : mayRaise i .addressErrorLoad = true ∨ ea.toNat % n = 0) (hk : ea.toNat % n = 0 → k = .next t → Effect i s t)
    (h : checkedLoad s ea n k = .next t) : Effect i s t := by
  unfold checkedLoad at h
  split at h
  · rename_i hm
    exact effect_raise (may.resolve_right hm) rfl (by simp) h
  · rename_i hm
    split at h
    · exact hk (by simpa using hm) h
    · cases h

theorem effect_store {i : Instr} {s t : State} {ea : Word} {n : Nat} {k : Result}
    (may : mayRaise i .addressErrorStore = true ∨ ea.toNat % n = 0) (hk : k = .next t → Effect i s t)
    (h : checkedStore s ea n k = .next t) : Effect i s t := by
  unfold checkedStore at h
  split at h
  · rename_i hm
    exact effect_raise (may.resolve_right hm) rfl (by simp) h
  · split at h
    · exact hk h
    · cases h

theorem effect_trapIf {i : Instr} {s t : State} {c : Bool} (may : mayRaise i .trap = true) (seq : isTransfer i = false)
    (h : trapIf s c = .next t) : Effect i s t := by
  unfold trapIf at h
  split at h
  · exact effect_raise may rfl (by simp) h
  · exact effect_complete seq (.none i s) h

theorem effect_addTrapping {i : Instr} {s t : State} {d : Reg} {a b : Word} (may : mayRaise i .integerOverflow = true)
    (seq : isTransfer i = false) (hd : destReg i = some d) (h : addTrapping s d a b = .next t) : Effect i s t := by
  unfold addTrapping at h
  split at h
  · exact effect_raise may rfl (by simp) h
  · exact effect_completeReg seq hd h

theorem effect_subTrapping {i : Instr} {s t : State} {d : Reg} {a b : Word} (may : mayRaise i .integerOverflow = true)
    (seq : isTransfer i = false) (hd : destReg i = some d) (h : subTrapping s d a b = .next t) : Effect i s t := by
  unfold subTrapping at h
  split at h
  · exact effect_raise may rfl (by simp) h
  · exact effect_completeReg seq hd h

theorem effect_countLeading {i : Instr} {s t : State} {b : Bool} {rd rs rt : Reg} (seq : isTransfer i = false)
    (hd : destReg i = some rd) (h : countLeading s b rd rs rt = .next t) : Effect i s t := by
  unfold countLeading at h
  split at h
  · cases h
  · exact effect_completeReg seq hd h

theorem effect_moveIf {i : Instr} {s t : State} {c : Bool} {rd rs : Reg} (seq : isTransfer i = false)
    (hd : destReg i = some rd) (h : moveIf s c rd rs = .next t) : Effect i s t := by
  unfold moveIf at h
  split at h
  · exact effect_completeReg seq hd h
  · exact effect_complete seq (.none i s) h

theorem effect_branchIf {i : Instr} {s t : State} {c : Bool} {off : Half} (tr : isTransfer i = true)
    (hl : linkReg i = none) (h : branchIf s c off = .next t) : Effect i s t := by
  obtain ⟨hs, h⟩ := controlTransfer_next h
  cases h
  exact .transferred s c _ tr hs (by simp [hl]) (.none i s) rfl

theorem effect_jumpTo {i : Instr} {s t : State} {target : Word} (tr : isTransfer i = true)
    (hl : linkReg i = none) (h : jumpTo s target = .next t) : Effect i s t := by
  obtain ⟨hs, h⟩ := controlTransfer_next h
  cases h
  exact .transferred s true _ tr hs (by simp [hl]) (.none i s) rfl

theorem effect_link {i : Instr} {s t : State} {d : Reg} {c : Bool} {target : Word} (tr : isTransfer i = true)
    (hl : linkReg i = some d) (hd : destReg i = some d) (hs : inDelaySlot s = false)
    (h : (.next (transfer (writeReg s d (linkValue s)) c target) : Result) = .next t) : Effect i s t := by
  cases h
  refine .transferred _ c target tr hs ?_ (.reg s _ hd) rfl
  intro d' hd'
  rw [hl] at hd'
  cases hd'
  rfl

theorem effect_branchLinkOn {i : Instr} {s t : State} {rs : Reg} {c : Bool} {off : Half} (tr : isTransfer i = true)
    (hl : linkReg i = some 31#5) (hd : destReg i = some 31#5) (h : branchLinkOn s rs c off = .next t) : Effect i s t := by
  obtain ⟨hs, h⟩ := controlTransfer_next h
  split at h
  · cases h
  · exact effect_link tr hl hd hs (controlTransfer_next h).2

theorem effect_jumpLinkReg {i : Instr} {s t : State} {rd rs : Reg} (tr : isTransfer i = true)
    (hl : linkReg i = some rd) (hd : destReg i = some rd) (h : jumpLinkReg s rd rs = .next t) : Effect i s t := by
  obtain ⟨hs, h⟩ := controlTransfer_next h
  split at h
  · cases h
  · exact effect_link tr hl hd hs h

/-- The general registers after a write depend on the general registers before it alone. -/
theorem writeReg_regs_congr {s u : State} (h : u.regs = s.regs) (d : Reg) (v : Word) :
    (writeReg u d v).regs = (writeReg s d v).regs := by
  unfold writeReg
  split <;> simp [h]

theorem effect_finishSc {i : Instr} {s u t : State} {rt : Reg} {ea old : Word} {ok : Bool} (seq : isTransfer i = false)
    (hd : destReg i = some rt) (hst : isStore i = true) (hr : writesReservation i = true)
    (hu : u = s ∨ u = (drawBit s).2) (h : finishSc u rt ea old ok = .next t) : Effect i s t := by
  unfold finishSc at h
  refine effect_complete seq ?_ h
  have hmem : ∀ bs, (storeBytes (drawBit s).2 ea bs).mem = (storeBytes s ea bs).mem ∧
      (storeBytes (drawBit s).2 ea bs).stale = (storeBytes s ea bs).stale := by
    intro bs
    have : ∀ (a : Word) (u v : State), u.mem = v.mem → u.stale = v.stale →
        (storeBytes u a bs).mem = (storeBytes v a bs).mem ∧ (storeBytes u a bs).stale = (storeBytes v a bs).stale := by
      induction bs with
      | nil => exact fun _ _ _ h1 h2 => ⟨h1, h2⟩
      | cons b bs ih => exact fun a u v h1 h2 => ih _ _ _ (by simp [h1]) (by simp [h2])
    exact this ea _ _ rfl rfl
  have hregs : ∀ bs v, (writeReg { storeBytes (drawBit s).2 ea bs with llbit := false } rt v).regs =
      (writeReg s rt v).regs := fun bs v => writeReg_regs_congr (by simp) rt v
  have hregs' : ∀ bs v, (writeReg { storeBytes s ea bs with llbit := false } rt v).regs = (writeReg s rt v).regs :=
    fun bs v => writeReg_regs_congr (by simp) rt v
  cases ok
  · rcases hu with rfl | rfl
    · exact ⟨.inr ⟨rt, _, hd, hregs' [] _⟩, .inl ⟨by simp, by simp⟩, .inl ⟨by simp, by simp⟩,
        .inr (.inl ⟨hr, by simp, by simp⟩), by simp, by simp, by simp, by simp, by simp, by simp⟩
    · exact ⟨.inr ⟨rt, _, hd, hregs [] _⟩, .inl ⟨by simp, by simp⟩, .inl ⟨by simp, by simp⟩,
        .inr (.inl ⟨hr, by simp, by simp⟩), by simp, by simp, by simp, by simp, by simp, by simp⟩
  · rcases hu with rfl | rfl
    · exact ⟨.inr ⟨rt, _, hd, hregs' _ _⟩, .inl ⟨by simp, by simp⟩, .inr ⟨hst, ea, _, writeReg_mem _ _ _, writeReg_stale _ _ _⟩,
        .inr (.inl ⟨hr, by simp, by simp⟩), by simp, by simp, by simp, by simp, by simp, by simp⟩
    · exact ⟨.inr ⟨rt, _, hd, hregs _ _⟩, .inl ⟨by simp, by simp⟩,
        .inr ⟨hst, ea, _, (writeReg_mem _ _ _).trans (hmem _).1, (writeReg_stale _ _ _).trans (hmem _).2⟩,
        .inr (.inl ⟨hr, by simp, by simp⟩), by simp, by simp, by simp, by simp, by simp, by simp⟩

/-- SC, step by step. -/
theorem effect_sc {i : Instr} {s t : State} {rt base : Reg} {off : Half} (may : mayRaise i .addressErrorStore = true)
    (seq : isTransfer i = false) (hd : destReg i = some rt) (hst : isStore i = true) (hr : writesReservation i = true)
    (h : execSc rt off base s = .next t) : Effect i s t := by
  unfold execSc at h
  dsimp only at h
  split at h
  · exact effect_raise may rfl (by simp) h
  · split at h
    · cases h
    · split at h
      · split at h
        · exact effect_finishSc seq hd hst hr (.inr rfl) h
        · exact effect_finishSc seq hd hst hr (.inl rfl) h
      · cases h

/-- LL, step by step. -/
theorem effect_ll {i : Instr} {s t : State} {rt base : Reg} {off : Half} (may : mayRaise i .addressErrorLoad = true)
    (seq : isTransfer i = false) (hd : destReg i = some rt) (hr : writesReservation i = true)
    (h : execLl rt off base s = .next t) : Effect i s t := by
  refine effect_load (.inl may) (fun ha hk => ?_) h
  refine effect_complete seq ?_ hk
  have hregs : ∀ (l : Word) v, (writeReg { s with llbit := true, lladdr := l } rt v).regs = (writeReg s rt v).regs :=
    fun l v => writeReg_regs_congr (by rfl) rt v
  exact ⟨.inr ⟨rt, _, hd, hregs _ _⟩, .inl ⟨by simp, by simp⟩, .inl ⟨by simp, by simp⟩,
    .inr (.inr ⟨hr, by simpa using ha⟩), by simp, by simp, by simp, by simp, by simp, by simp⟩

/-- MUL, step by step. -/
theorem effect_mul {i : Instr} {s t : State} {rd rs rt : Reg} (seq : isTransfer i = false) (hd : destReg i = some rd)
    (hw : writesHiLo i = true) (h : execMul rd rs rt s = .next t) : Effect i s t := by
  unfold execMul at h
  have key : ∀ (u : State) (v : Word), u = writeAcc s (signedProduct (readReg s rs) (readReg s rt)) ∨ u = drawAcc s →
      completeReg u rd v = .next t → Effect i s t := by
    rintro u v (rfl | rfl) h
    · refine effect_complete seq ⟨.inr ⟨rd, v, hd, writeReg_regs_congr (by rfl) rd v⟩, .inr hw, .inl ⟨by simp, by simp⟩,
        .inl ⟨by simp, by simp⟩, by simp, by simp, by simp, by simp, by simp, by simp⟩ h
    · refine effect_complete seq ⟨.inr ⟨rd, v, hd, writeReg_regs_congr (by rfl) rd v⟩, .inr hw, .inl ⟨by simp, by simp⟩,
        .inl ⟨by simp, by simp⟩, by simp, by simp, by simp, by simp, by simp, by simp⟩ h
  dsimp only at h
  split at h
  · exact key _ _ (.inl rfl) h
  · exact key _ _ (.inr rfl) h

/-- RDHWR, step by step. -/
theorem effect_rdhwr {i : Instr} {s t : State} {rt : Reg} {n : BitVec 5} (may : mayRaise i .reservedInstruction = true)
    (seq : isTransfer i = false) (hd : destReg i = some rt) (h : execRdhwr rt n s = .next t) : Effect i s t := by
  unfold execRdhwr at h
  split at h
  · cases hv : s.params.hwr[n.toNat]'n.isLt with
    | some v =>
      simp only [readHwr, hv] at h
      exact effect_completeReg seq hd h
    | none =>
      simp only [readHwr, hv] at h
      exact effect_complete seq ⟨.inr ⟨rt, _, hd, writeReg_regs_congr (by rfl) rt _⟩, .inl ⟨by simp, by simp⟩,
        .inl ⟨by simp, by simp⟩, .inl ⟨by simp, by simp⟩, by simp, by simp, by simp, by simp, by simp, by simp⟩ h
  · exact effect_raise may rfl (by simp) h

/-- Everything that any instruction which reaches a next state can have done. -/
theorem exec_effect (i : Instr) (s t : State) (h : exec i s = .next t) : Effect i s t := by
  cases i <;> dsimp only [exec] at h
  case sc => exact effect_sc rfl rfl rfl rfl rfl h
  case ll => exact effect_ll rfl rfl rfl rfl h
  case mul => exact effect_mul rfl rfl rfl h
  case rdhwr => exact effect_rdhwr rfl rfl rfl h
  case div =>
    unfold execDiv at h
    dsimp only at h
    split at h
    · exact effect_complete rfl (.drawAcc s rfl) h
    · exact effect_complete rfl (.acc' s _ _ rfl) h
  case divu =>
    unfold execDivu at h
    dsimp only at h
    split at h
    · exact effect_complete rfl (.drawAcc s rfl) h
    · exact effect_complete rfl (.acc' s _ _ rfl) h
  case ext =>
    unfold execExt at h
    split at h
    · cases h
    · exact effect_completeReg rfl rfl h
  case ins =>
    unfold execIns at h
    split at h
    · cases h
    · exact effect_completeReg rfl rfl h
  case movt =>
    unfold execMovt at h
    split at h
    · exact effect_moveIf rfl rfl h
    · cases h
  case synci =>
    unfold execSynci at h
    dsimp only at h
    split at h
    · exact effect_complete rfl (.none _ s) h
    · cases h
  case sd => cases h
  case sb => exact effect_store (.inr (by simp)) (fun hk => effect_complete rfl (.store s _ [_] rfl) hk) h
  case bal => exact effect_link rfl rfl rfl (controlTransfer_next h).1 (controlTransfer_next h).2
  case jal => exact effect_link rfl rfl rfl (controlTransfer_next h).1 (controlTransfer_next h).2
  case addiu => exact effect_completeReg rfl rfl h
  case addu => exact effect_completeReg rfl rfl h
  case seb => exact effect_completeReg rfl rfl h
  case seh => exact effect_completeReg rfl rfl h
  case slt => exact effect_completeReg rfl rfl h
  case slti => exact effect_completeReg rfl rfl h
  case sltiu => exact effect_completeReg rfl rfl h
  case sltu => exact effect_completeReg rfl rfl h
  case subu => exact effect_completeReg rfl rfl h
  case and => exact effect_completeReg rfl rfl h
  case andi => exact effect_completeReg rfl rfl h
  case lui => exact effect_completeReg rfl rfl h
  case nor => exact effect_completeReg rfl rfl h
  case or => exact effect_completeReg rfl rfl h
  case ori => exact effect_completeReg rfl rfl h
  case xor => exact effect_completeReg rfl rfl h
  case xori => exact effect_completeReg rfl rfl h
  case wsbh => exact effect_completeReg rfl rfl h
  case rotr => exact effect_completeReg rfl rfl h
  case rotrv => exact effect_completeReg rfl rfl h
  case sll => exact effect_completeReg rfl rfl h
  case sllv => exact effect_completeReg rfl rfl h
  case sra => exact effect_completeReg rfl rfl h
  case srav => exact effect_completeReg rfl rfl h
  case srl => exact effect_completeReg rfl rfl h
  case srlv => exact effect_completeReg rfl rfl h
  case add => exact effect_addTrapping rfl rfl rfl h
  case addi => exact effect_addTrapping rfl rfl rfl h
  case sub => exact effect_subTrapping rfl rfl rfl h
  case clo => exact effect_countLeading rfl rfl h
  case clz => exact effect_countLeading rfl rfl h
  case movn => exact effect_moveIf rfl rfl h
  case movz => exact effect_moveIf rfl rfl h
  case teq => exact effect_trapIf rfl rfl h
  case teqi => exact effect_trapIf rfl rfl h
  case tge => exact effect_trapIf rfl rfl h
  case tgei => exact effect_trapIf rfl rfl h
  case tgeiu => exact effect_trapIf rfl rfl h
  case tgeu => exact effect_trapIf rfl rfl h
  case tlt => exact effect_trapIf rfl rfl h
  case tlti => exact effect_trapIf rfl rfl h
  case tltiu => exact effect_trapIf rfl rfl h
  case tltu => exact effect_trapIf rfl rfl h
  case tne => exact effect_trapIf rfl rfl h
  case breakpoint => exact effect_raise rfl rfl (by simp) h
  case syscall => exact effect_raise rfl rfl (by simp) h
  case ehb => exact effect_complete rfl (.none _ s) h
  case nop => exact effect_complete rfl (.none _ s) h
  case ssnop => exact effect_complete rfl (.none _ s) h
  case pref => exact effect_complete rfl (.none _ s) h
  case sync => exact effect_complete rfl (.none _ s) h
  case madd => exact effect_complete rfl (.acc' s _ _ rfl) h
  case maddu => exact effect_complete rfl (.acc' s _ _ rfl) h
  case msub => exact effect_complete rfl (.acc' s _ _ rfl) h
  case msubu => exact effect_complete rfl (.acc' s _ _ rfl) h
  case mult => exact effect_complete rfl (.acc' s _ _ rfl) h
  case multu => exact effect_complete rfl (.acc' s _ _ rfl) h
  case mthi => exact effect_complete rfl (.acc' s _ _ rfl) h
  case mtlo => exact effect_complete rfl (.acc' s _ _ rfl) h
  case b => exact effect_branchIf rfl rfl h
  case beq => exact effect_branchIf rfl rfl h
  case bgez => exact effect_branchIf rfl rfl h
  case bgtz => exact effect_branchIf rfl rfl h
  case blez => exact effect_branchIf rfl rfl h
  case bltz => exact effect_branchIf rfl rfl h
  case bne => exact effect_branchIf rfl rfl h
  case j => exact effect_jumpTo rfl rfl h
  case jr => exact effect_jumpTo rfl rfl h
  case jrHb => exact effect_jumpTo rfl rfl h
  case bgezal => exact effect_branchLinkOn rfl rfl rfl h
  case bltzal => exact effect_branchLinkOn rfl rfl rfl h
  case jalr => exact effect_jumpLinkReg rfl rfl rfl h
  case jalrHb => exact effect_jumpLinkReg rfl rfl rfl h
  case lh => exact effect_load (.inl rfl) (fun _ hk => effect_completeReg rfl rfl hk) h
  case lhu => exact effect_load (.inl rfl) (fun _ hk => effect_completeReg rfl rfl hk) h
  case lw => exact effect_load (.inl rfl) (fun _ hk => effect_completeReg rfl rfl hk) h
  case lb => exact effect_load (.inr (by simp [Nat.mod_one])) (fun _ hk => effect_completeReg rfl rfl hk) h
  case lbu => exact effect_load (.inr (by simp [Nat.mod_one])) (fun _ hk => effect_completeReg rfl rfl hk) h
  case lwl => exact effect_load (.inr (wordAddr_mod _)) (fun _ hk => effect_completeReg rfl rfl hk) h
  case lwr => exact effect_load (.inr (wordAddr_mod _)) (fun _ hk => effect_completeReg rfl rfl hk) h
  case sh => exact effect_store (.inl rfl) (fun hk => effect_complete rfl (.store s _ _ rfl) hk) h
  case sw => exact effect_store (.inl rfl) (fun hk => effect_complete rfl (.store s _ _ rfl) hk) h
  case swl => exact effect_store (.inr (wordAddr_mod _)) (fun hk => effect_complete rfl (.store s _ _ rfl) hk) h
  case swr => exact effect_store (.inr (wordAddr_mod _)) (fun hk => effect_complete rfl (.store s _ _ rfl) hk) h

/-- A register that is not the destination reads as before. -/
theorem Changes.readReg_other {i : Instr} {s u : State} (hc : Changes i s u) (r : Reg) (h : destReg i ≠ some r) :
    readReg u r = readReg s r := by
  rcases hc.regs with e | ⟨d, v, hd, e⟩
  · exact readReg_congr e r
  · have hne : r ≠ d := by rintro rfl; exact h hd
    rw [readReg_congr (s := writeReg s d v) e, readReg_writeReg]
    simp [hne]

/-- Register 0 stays zero. -/
theorem Changes.keeps_regZero {i : Instr} {s u : State} (hc : Changes i s u) (h : s.regs[0] = 0#32) :
    u.regs[0] = 0#32 := by
  rcases hc.regs with e | ⟨d, v, hd, e⟩
  · rw [e]; exact h
  · rw [e]; exact writeReg_regZero s d v h

/-- A byte that changed lies in a stale word, and a stale word stays stale (R39, R75). -/
theorem Changes.written_stale {i : Instr} {s u : State} (hc : Changes i s u) :
    (∀ a : Word, memByte u a ≠ memByte s a → (wordAddr a).toNat ∈ u.stale) ∧ ∀ n ∈ s.stale, n ∈ u.stale := by
  rcases hc.mem with ⟨e1, e2⟩ | ⟨-, a, bs, e1, e2⟩
  · refine ⟨fun a h => absurd ?_ h, by simp [e2]⟩
    simp [memByte, e1]
  · constructor
    · intro b hb
      rw [e2, mem_stale_storeBytes]
      by_contra hn
      push Not at hn
      apply hb
      unfold memByte
      rw [e1]
      apply memByte_storeBytes_ne
      rintro k hk rfl
      exact hn.2 k hk rfl
    · intro n hn
      rw [e2, mem_stale_storeBytes]
      exact .inl hn

/-- A step that reaches a next state: the run had not ended, and it raised AddressError(fetch), or ran an instruction
from a word that is not stale (R42). -/
theorem step_next {s t : State} (h : step s = .next t) :
    s.outcome = none ∧ ((s.pc.toNat % 4 ≠ 0 ∧ TrapsWith s t .addressErrorFetch none (some s.pc)) ∨
      (s.pc.toNat % 4 = 0 ∧ (wordAddr s.pc).toNat ∉ s.stale ∧
        ∃ i, decode (memWord s s.pc) = .ok i ∧ exec i s = .next t)) := by
  unfold step at h
  split at h
  · cases h
  · rename_i ho
    refine ⟨ho, ?_⟩
    unfold fetch at h
    by_cases h4 : s.pc.toNat % 4 = 0
    · rw [if_neg (by simpa using h4)] at h
      by_cases hm : admitsAll s .exec s.pc 4 = true
      · by_cases hs : (wordAddr s.pc).toNat ∈ s.stale
        · simp [hm, hs] at h
        · simp only [hm, Bool.not_true, Bool.false_eq_true, if_false, List.contains_iff_mem, hs] at h
          refine .inr ⟨h4, hs, ?_⟩
          split at h
          · rename_i i hi
            exact ⟨i, hi, h⟩
          · cases h
      · simp [hm] at h
    · rw [if_pos h4] at h
      obtain ⟨t', h2, h3⟩ := takeException_spec s .addressErrorFetch none (some s.pc)
      dsimp only at h
      rw [raiseAddressError, h2] at h
      cases h
      exact .inl ⟨h4, h3⟩

end Sys2Proof.Machine
end

