-- ==== Sys2Proof/Tests/Slice0.lean ====
section
/-!
SUPPORT. Small tests. The words are written out from the drawings of 30_encoding.md R112, the expected results are those of
95_test_vectors.md parts 2 to 4; then one state for the hypotheses of every statement that has some.
-/

namespace Sys2Proof.Tests

open Sys2Proof.Machine

/-! ## WellFormed refuses an ill-formed term, for each of its checks -/

theorem test_wellFormed_refuses_beq_zero_zero : (Instr.beq 0 0 7).wellFormed = false := by decide
theorem test_wellFormed_refuses_bgezal_zero : (Instr.bgezal 0 7).wellFormed = false := by decide
theorem test_wellFormed_refuses_the_sll_idioms :
    [Instr.sll 0 0 0, .sll 0 0 1, .sll 0 0 3].map Instr.wellFormed = [false, false, false] := by decide
theorem test_wellFormed_keeps_their_neighbours :
    [Instr.sll 0 0 2, .sll 1 0 0, .sll 0 1 3, .beq 0 1 7, .beq 1 0 7, .bgezal 1 7].map Instr.wellFormed =
      [true, true, true, true, true, true] := by decide
theorem test_constraints_refuse_count_registers :
    [Instr.clo 1 2 3, .clz 1 2 3].map Instr.constraintsHold = [false, false] := by decide
theorem test_constraints_refuse_bit_fields :
    [Instr.ext 1 2 31 1, .ext 1 2 7 28, .ins 1 2 3 8].map Instr.constraintsHold = [false, false, false] := by decide
theorem test_constraints_keep_the_largest_fields :
    [Instr.ext 1 2 31 0, .ext 1 2 0 31, .ins 1 2 31 0, .ins 1 2 31 31].map Instr.constraintsHold =
      [true, true, true, true] := by decide
theorem test_constraints_refuse_links :
    [Instr.jalr 5 5, .jalrHb 5 5, .bgezal 31 0, .bltzal 31 0].map Instr.constraintsHold =
      [false, false, false, false] := by decide

/-! ## Decoding: a word for every constructor, field by field from the drawings of R112 -/

/-- ADD to MSUBU, in the order of R112: the word written out field by field. -/
theorem test_decode_arithmetic_one :
    decode (0b000000#6 ++ 0b00101#5 ++ 0b01010#5 ++ 0b10011#5 ++ 0b00000#5 ++ 0b100000#6) = .ok (.add 19 5 10) ∧
    decode (0b001000#6 ++ 0b00101#5 ++ 0b01010#5 ++ 0b1000000000000101#16) = .ok (.addi 10 5 0x8005) ∧
    decode (0b001001#6 ++ 0b00101#5 ++ 0b01010#5 ++ 0b1000000000000101#16) = .ok (.addiu 10 5 0x8005) ∧
    decode (0b000000#6 ++ 0b00101#5 ++ 0b01010#5 ++ 0b10011#5 ++ 0b00000#5 ++ 0b100001#6) = .ok (.addu 19 5 10) ∧
    decode (0b011100#6 ++ 0b00101#5 ++ 0b01010#5 ++ 0b10011#5 ++ 0b00000#5 ++ 0b100001#6) = .ok (.clo 19 5 10) ∧
    decode (0b011100#6 ++ 0b00101#5 ++ 0b01010#5 ++ 0b10011#5 ++ 0b00000#5 ++ 0b100000#6) = .ok (.clz 19 5 10) ∧
    decode (0b000000#6 ++ 0b00101#5 ++ 0b01010#5 ++ 0b00000#5 ++ 0b00000#5 ++ 0b011010#6) = .ok (.div 5 10) ∧
    decode (0b000000#6 ++ 0b00101#5 ++ 0b01010#5 ++ 0b00000#5 ++ 0b00000#5 ++ 0b011011#6) = .ok (.divu 5 10) ∧
    decode (0b011100#6 ++ 0b00101#5 ++ 0b01010#5 ++ 0b00000#5 ++ 0b00000#5 ++ 0b000000#6) = .ok (.madd 5 10) ∧
    decode (0b011100#6 ++ 0b00101#5 ++ 0b01010#5 ++ 0b00000#5 ++ 0b00000#5 ++ 0b000001#6) = .ok (.maddu 5 10) ∧
    decode (0b011100#6 ++ 0b00101#5 ++ 0b01010#5 ++ 0b00000#5 ++ 0b00000#5 ++ 0b000100#6) = .ok (.msub 5 10) ∧
    decode (0b011100#6 ++ 0b00101#5 ++ 0b01010#5 ++ 0b00000#5 ++ 0b00000#5 ++ 0b000101#6) = .ok (.msubu 5 10) := by decide

/-- MUL to SUBU, in the order of R112: the word written out field by field. -/
theorem test_decode_arithmetic_two :
    decode (0b011100#6 ++ 0b00101#5 ++ 0b01010#5 ++ 0b10011#5 ++ 0b00000#5 ++ 0b000010#6) = .ok (.mul 19 5 10) ∧
    decode (0b000000#6 ++ 0b00101#5 ++ 0b01010#5 ++ 0b00000#5 ++ 0b00000#5 ++ 0b011000#6) = .ok (.mult 5 10) ∧
    decode (0b000000#6 ++ 0b00101#5 ++ 0b01010#5 ++ 0b00000#5 ++ 0b00000#5 ++ 0b011001#6) = .ok (.multu 5 10) ∧
    decode (0b011111#6 ++ 0b00000#5 ++ 0b01010#5 ++ 0b10011#5 ++ 0b10000#5 ++ 0b100000#6) = .ok (.seb 19 10) ∧
    decode (0b011111#6 ++ 0b00000#5 ++ 0b01010#5 ++ 0b10011#5 ++ 0b11000#5 ++ 0b100000#6) = .ok (.seh 19 10) ∧
    decode (0b000000#6 ++ 0b00101#5 ++ 0b01010#5 ++ 0b10011#5 ++ 0b00000#5 ++ 0b101010#6) = .ok (.slt 19 5 10) ∧
    decode (0b001010#6 ++ 0b00101#5 ++ 0b01010#5 ++ 0b1000000000000101#16) = .ok (.slti 10 5 0x8005) ∧
    decode (0b001011#6 ++ 0b00101#5 ++ 0b01010#5 ++ 0b1000000000000101#16) = .ok (.sltiu 10 5 0x8005) ∧
    decode (0b000000#6 ++ 0b00101#5 ++ 0b01010#5 ++ 0b10011#5 ++ 0b00000#5 ++ 0b101011#6) = .ok (.sltu 19 5 10) ∧
    decode (0b000000#6 ++ 0b00101#5 ++ 0b01010#5 ++ 0b10011#5 ++ 0b00000#5 ++ 0b100010#6) = .ok (.sub 19 5 10) ∧
    decode (0b000000#6 ++ 0b00101#5 ++ 0b01010#5 ++ 0b10011#5 ++ 0b00000#5 ++ 0b100011#6) = .ok (.subu 19 5 10) := by decide

/-- B to BNE, in the order of R112: the word written out field by field. -/
theorem test_decode_branch :
    decode (0b000100#6 ++ 0b00000#5 ++ 0b00000#5 ++ 0b1000000000000101#16) = .ok (.b 0x8005) ∧
    decode (0b000001#6 ++ 0b00000#5 ++ 0b10001#5 ++ 0b1000000000000101#16) = .ok (.bal 0x8005) ∧
    decode (0b000100#6 ++ 0b00101#5 ++ 0b01010#5 ++ 0b1000000000000101#16) = .ok (.beq 5 10 0x8005) ∧
    decode (0b000001#6 ++ 0b00101#5 ++ 0b00001#5 ++ 0b1000000000000101#16) = .ok (.bgez 5 0x8005) ∧
    decode (0b000001#6 ++ 0b00101#5 ++ 0b10001#5 ++ 0b1000000000000101#16) = .ok (.bgezal 5 0x8005) ∧
    decode (0b000111#6 ++ 0b00101#5 ++ 0b00000#5 ++ 0b1000000000000101#16) = .ok (.bgtz 5 0x8005) ∧
    decode (0b000110#6 ++ 0b00101#5 ++ 0b00000#5 ++ 0b1000000000000101#16) = .ok (.blez 5 0x8005) ∧
    decode (0b000001#6 ++ 0b00101#5 ++ 0b00000#5 ++ 0b1000000000000101#16) = .ok (.bltz 5 0x8005) ∧
    decode (0b000001#6 ++ 0b00101#5 ++ 0b10000#5 ++ 0b1000000000000101#16) = .ok (.bltzal 5 0x8005) ∧
    decode (0b000101#6 ++ 0b00101#5 ++ 0b01010#5 ++ 0b1000000000000101#16) = .ok (.bne 5 10 0x8005) := by decide

/-- J to SSNOP, in the order of R112: the word written out field by field. -/
theorem test_decode_jump_and_control :
    decode (0b000010#6 ++ 0b10000000000000000000000101#26) = .ok (.j 0x2000005) ∧
    decode (0b000011#6 ++ 0b10000000000000000000000101#26) = .ok (.jal 0x2000005) ∧
    decode (0b000000#6 ++ 0b00101#5 ++ 0b00000#5 ++ 0b10011#5 ++ 0b00000#5 ++ 0b001001#6) = .ok (.jalr 19 5) ∧
    decode (0b000000#6 ++ 0b00101#5 ++ 0b00000#5 ++ 0b10011#5 ++ 0b10000#5 ++ 0b001001#6) = .ok (.jalrHb 19 5) ∧
    decode (0b000000#6 ++ 0b00101#5 ++ 0b00000#5 ++ 0b00000#5 ++ 0b00000#5 ++ 0b001000#6) = .ok (.jr 5) ∧
    decode (0b000000#6 ++ 0b00101#5 ++ 0b00000#5 ++ 0b00000#5 ++ 0b10000#5 ++ 0b001000#6) = .ok (.jrHb 5) ∧
    decode (0b000000#6 ++ 0b00000#5 ++ 0b00000#5 ++ 0b00000#5 ++ 0b00011#5 ++ 0b000000#6) = .ok .ehb ∧
    decode (0b000000#6 ++ 0b00000#5 ++ 0b00000#5 ++ 0b00000#5 ++ 0b00000#5 ++ 0b000000#6) = .ok .nop ∧
    decode (0b000000#6 ++ 0b00000#5 ++ 0b00000#5 ++ 0b00000#5 ++ 0b00001#5 ++ 0b000000#6) = .ok .ssnop := by decide

/-- LB to PREF, in the order of R112: the word written out field by field. -/
theorem test_decode_load :
    decode (0b100000#6 ++ 0b00101#5 ++ 0b01010#5 ++ 0b1000000000000101#16) = .ok (.lb 10 0x8005 5) ∧
    decode (0b100100#6 ++ 0b00101#5 ++ 0b01010#5 ++ 0b1000000000000101#16) = .ok (.lbu 10 0x8005 5) ∧
    decode (0b100001#6 ++ 0b00101#5 ++ 0b01010#5 ++ 0b1000000000000101#16) = .ok (.lh 10 0x8005 5) ∧
    decode (0b100101#6 ++ 0b00101#5 ++ 0b01010#5 ++ 0b1000000000000101#16) = .ok (.lhu 10 0x8005 5) ∧
    decode (0b110000#6 ++ 0b00101#5 ++ 0b01010#5 ++ 0b1000000000000101#16) = .ok (.ll 10 0x8005 5) ∧
    decode (0b100011#6 ++ 0b00101#5 ++ 0b01010#5 ++ 0b1000000000000101#16) = .ok (.lw 10 0x8005 5) ∧
    decode (0b100010#6 ++ 0b00101#5 ++ 0b01010#5 ++ 0b1000000000000101#16) = .ok (.lwl 10 0x8005 5) ∧
    decode (0b100110#6 ++ 0b00101#5 ++ 0b01010#5 ++ 0b1000000000000101#16) = .ok (.lwr 10 0x8005 5) ∧
    decode (0b110011#6 ++ 0b00101#5 ++ 0b11010#5 ++ 0b1000000000000101#16) = .ok (.pref 26 0x8005 5) := by decide

/-- SB to SYNCI, in the order of R112: the word written out field by field. -/
theorem test_decode_store_and_sync :
    decode (0b101000#6 ++ 0b00101#5 ++ 0b01010#5 ++ 0b1000000000000101#16) = .ok (.sb 10 0x8005 5) ∧
    decode (0b111000#6 ++ 0b00101#5 ++ 0b01010#5 ++ 0b1000000000000101#16) = .ok (.sc 10 0x8005 5) ∧
    decode (0b101001#6 ++ 0b00101#5 ++ 0b01010#5 ++ 0b1000000000000101#16) = .ok (.sh 10 0x8005 5) ∧
    decode (0b111111#6 ++ 0b00101#5 ++ 0b01010#5 ++ 0b1000000000000101#16) = .ok (.sd 10 0x8005 5) ∧
    decode (0b101011#6 ++ 0b00101#5 ++ 0b01010#5 ++ 0b1000000000000101#16) = .ok (.sw 10 0x8005 5) ∧
    decode (0b101010#6 ++ 0b00101#5 ++ 0b01010#5 ++ 0b1000000000000101#16) = .ok (.swl 10 0x8005 5) ∧
    decode (0b101110#6 ++ 0b00101#5 ++ 0b01010#5 ++ 0b1000000000000101#16) = .ok (.swr 10 0x8005 5) ∧
    decode (0b000000#6 ++ 0b00000#5 ++ 0b00000#5 ++ 0b00000#5 ++ 0b00100#5 ++ 0b001111#6) = .ok (.sync 4) ∧
    decode (0b000001#6 ++ 0b00101#5 ++ 0b11111#5 ++ 0b1000000000000101#16) = .ok (.synci 0x8005 5) := by decide

/-- AND to WSBH, in the order of R112: the word written out field by field. -/
theorem test_decode_logical_and_bit_field :
    decode (0b000000#6 ++ 0b00101#5 ++ 0b01010#5 ++ 0b10011#5 ++ 0b00000#5 ++ 0b100100#6) = .ok (.and 19 5 10) ∧
    decode (0b001100#6 ++ 0b00101#5 ++ 0b01010#5 ++ 0b1000000000000101#16) = .ok (.andi 10 5 0x8005) ∧
    decode (0b001111#6 ++ 0b00000#5 ++ 0b01010#5 ++ 0b1000000000000101#16) = .ok (.lui 10 0x8005) ∧
    decode (0b000000#6 ++ 0b00101#5 ++ 0b01010#5 ++ 0b10011#5 ++ 0b00000#5 ++ 0b100111#6) = .ok (.nor 19 5 10) ∧
    decode (0b000000#6 ++ 0b00101#5 ++ 0b01010#5 ++ 0b10011#5 ++ 0b00000#5 ++ 0b100101#6) = .ok (.or 19 5 10) ∧
    decode (0b001101#6 ++ 0b00101#5 ++ 0b01010#5 ++ 0b1000000000000101#16) = .ok (.ori 10 5 0x8005) ∧
    decode (0b000000#6 ++ 0b00101#5 ++ 0b01010#5 ++ 0b10011#5 ++ 0b00000#5 ++ 0b100110#6) = .ok (.xor 19 5 10) ∧
    decode (0b001110#6 ++ 0b00101#5 ++ 0b01010#5 ++ 0b1000000000000101#16) = .ok (.xori 10 5 0x8005) ∧
    decode (0b011111#6 ++ 0b00101#5 ++ 0b01010#5 ++ 0b10011#5 ++ 0b00111#5 ++ 0b000000#6) = .ok (.ext 10 5 19 7) ∧
    decode (0b011111#6 ++ 0b00101#5 ++ 0b01010#5 ++ 0b10011#5 ++ 0b00111#5 ++ 0b000100#6) = .ok (.ins 10 5 19 7) ∧
    decode (0b011111#6 ++ 0b00000#5 ++ 0b01010#5 ++ 0b10011#5 ++ 0b00010#5 ++ 0b100000#6) = .ok (.wsbh 19 10) := by decide

/-- MOVN to RDHWR, in the order of R112: the word written out field by field. -/
theorem test_decode_move :
    decode (0b000000#6 ++ 0b00101#5 ++ 0b01010#5 ++ 0b10011#5 ++ 0b00000#5 ++ 0b001011#6) = .ok (.movn 19 5 10) ∧
    decode (0b000000#6 ++ 0b00101#5 ++ 0b101#3 ++ 0b01#2 ++ 0b10011#5 ++ 0b00000#5 ++ 0b000001#6) = .ok (.movt 19 5 5) ∧
    decode (0b000000#6 ++ 0b00101#5 ++ 0b01010#5 ++ 0b10011#5 ++ 0b00000#5 ++ 0b001010#6) = .ok (.movz 19 5 10) ∧
    decode (0b000000#6 ++ 0b00101#5 ++ 0b00000#5 ++ 0b00000#5 ++ 0b00000#5 ++ 0b010001#6) = .ok (.mthi 5) ∧
    decode (0b000000#6 ++ 0b00101#5 ++ 0b00000#5 ++ 0b00000#5 ++ 0b00000#5 ++ 0b010011#6) = .ok (.mtlo 5) ∧
    decode (0b011111#6 ++ 0b00000#5 ++ 0b01010#5 ++ 0b10011#5 ++ 0b00000#5 ++ 0b111011#6) = .ok (.rdhwr 10 19) := by decide

/-- ROTR to SRLV, in the order of R112: the word written out field by field. -/
theorem test_decode_shift :
    decode (0b000000#6 ++ 0b00001#5 ++ 0b01010#5 ++ 0b10011#5 ++ 0b00111#5 ++ 0b000010#6) = .ok (.rotr 19 10 7) ∧
    decode (0b000000#6 ++ 0b00101#5 ++ 0b01010#5 ++ 0b10011#5 ++ 0b00001#5 ++ 0b000110#6) = .ok (.rotrv 19 10 5) ∧
    decode (0b000000#6 ++ 0b00000#5 ++ 0b01010#5 ++ 0b10011#5 ++ 0b00111#5 ++ 0b000000#6) = .ok (.sll 19 10 7) ∧
    decode (0b000000#6 ++ 0b00101#5 ++ 0b01010#5 ++ 0b10011#5 ++ 0b00000#5 ++ 0b000100#6) = .ok (.sllv 19 10 5) ∧
    decode (0b000000#6 ++ 0b00000#5 ++ 0b01010#5 ++ 0b10011#5 ++ 0b00111#5 ++ 0b000011#6) = .ok (.sra 19 10 7) ∧
    decode (0b000000#6 ++ 0b00101#5 ++ 0b01010#5 ++ 0b10011#5 ++ 0b00000#5 ++ 0b000111#6) = .ok (.srav 19 10 5) ∧
    decode (0b000000#6 ++ 0b00000#5 ++ 0b01010#5 ++ 0b10011#5 ++ 0b00111#5 ++ 0b000010#6) = .ok (.srl 19 10 7) ∧
    decode (0b000000#6 ++ 0b00101#5 ++ 0b01010#5 ++ 0b10011#5 ++ 0b00000#5 ++ 0b000110#6) = .ok (.srlv 19 10 5) := by decide

/-- BREAK to TGEIU, in the order of R112: the word written out field by field. -/
theorem test_decode_trap_one :
    decode (0b000000#6 ++ 0b10100000000000000101#20 ++ 0b001101#6) = .ok (.breakpoint 0xA0005) ∧
    decode (0b000000#6 ++ 0b10100000000000000101#20 ++ 0b001100#6) = .ok (.syscall 0xA0005) ∧
    decode (0b000000#6 ++ 0b00101#5 ++ 0b01010#5 ++ 0b1000000101#10 ++ 0b110100#6) = .ok (.teq 5 10 517) ∧
    decode (0b000001#6 ++ 0b00101#5 ++ 0b01100#5 ++ 0b1000000000000101#16) = .ok (.teqi 5 0x8005) ∧
    decode (0b000000#6 ++ 0b00101#5 ++ 0b01010#5 ++ 0b1000000101#10 ++ 0b110000#6) = .ok (.tge 5 10 517) ∧
    decode (0b000001#6 ++ 0b00101#5 ++ 0b01000#5 ++ 0b1000000000000101#16) = .ok (.tgei 5 0x8005) ∧
    decode (0b000001#6 ++ 0b00101#5 ++ 0b01001#5 ++ 0b1000000000000101#16) = .ok (.tgeiu 5 0x8005) := by decide

/-- TGEU to TNE, in the order of R112: the word written out field by field. -/
theorem test_decode_trap_two :
    decode (0b000000#6 ++ 0b00101#5 ++ 0b01010#5 ++ 0b1000000101#10 ++ 0b110001#6) = .ok (.tgeu 5 10 517) ∧
    decode (0b000000#6 ++ 0b00101#5 ++ 0b01010#5 ++ 0b1000000101#10 ++ 0b110010#6) = .ok (.tlt 5 10 517) ∧
    decode (0b000001#6 ++ 0b00101#5 ++ 0b01010#5 ++ 0b1000000000000101#16) = .ok (.tlti 5 0x8005) ∧
    decode (0b000001#6 ++ 0b00101#5 ++ 0b01011#5 ++ 0b1000000000000101#16) = .ok (.tltiu 5 0x8005) ∧
    decode (0b000000#6 ++ 0b00101#5 ++ 0b01010#5 ++ 0b1000000101#10 ++ 0b110011#6) = .ok (.tltu 5 10 517) ∧
    decode (0b000000#6 ++ 0b00101#5 ++ 0b01010#5 ++ 0b1000000101#10 ++ 0b110110#6) = .ok (.tne 5 10 517) := by decide
/-- The words that 95_test_vectors.md part 3 lists as unlisted. -/
theorem test_decode_refuses_unlisted_words :
    [0x00001010#32, 0x00001012#32, 0x00201801#32, 0x040E0000#32, 0x00221860#32, 0x0022081A#32, 0x00201011#32,
      0x3C220001#32, 0x1C210002#32, 0x18010002#32, 0x00200048#32, 0x0021F809#32, 0x42000018#32, 0x0000003F#32,
      0x00421842#32, 0x00221886#32, 0x7C2110A0#32, 0x7C011020#32, 0x04320002#32].map (fun w => (decode w).toBool) =
      List.replicate 19 false := by decide

/-- Bytes in either order, the first at the lowest address, and the rest given back; too few are refused (R62, R100). -/
theorem test_decode_bytes :
    decodeBytes .big [0x00, 0x22, 0x18, 0x20, 0x77] = .ok (.add 3 1 2, [0x77]) ∧
    decodeBytes .little [0x20, 0x18, 0x22, 0x00] = .ok (.add 3 1 2, []) ∧
    decodeBytes .big [0x00, 0x22, 0x18] = .error .truncated := by decide

theorem test_decode_table_word :
    decodeTableWord 32 0x00221820 = some (.add 3 1 2) ∧ decodeTableWord 32 0xFC220000 = some (.sd 2 0 1) ∧
    decodeTableWord 32 0x00001010 = none := by decide

/-! ## The common state of 95_test_vectors.md part 2 -/

/-- Its parameters; text may be fetched from the 4 KiB at 1000 and from A0000000 up, data is the 8 bytes at 2000. -/
def vectorParams (e : Endian) : Params :=
  { Config.resetParams with
    endian := e
    memmap := [⟨0x1000, 0x1000, true, false, true⟩, ⟨0x2000, 8, true, true, false⟩,
      ⟨0xA0000000, 0x20000000, true, false, true⟩] }

/-- Every register but register 0, HI and LO hold AAAAAAAA, but for the registers given. -/
def vectorState (e : Endian) (given : List (Reg × Word)) : State :=
  given.foldl (fun s p => writeReg s p.1 p.2)
    { State.reset with
      regs := (Vector.replicate 32 0xAAAAAAAA#32).set 0 0#32
      hi := 0xAAAAAAAA, lo := 0xAAAAAAAA, pc := 0x1000, npc := 0x1004
      mem := [(0x2000, 0x80), (0x2001, 0xFF), (0x2002, 0x7F), (0x2003, 0x01), (0x2004, 0xF0), (0x2005, 0x0D),
        (0x2006, 0xBE), (0x2007, 0xEF)]
      params := vectorParams e }

/-- One step of the word, placed at pc. -/
def runWord (s : State) (w : Nat) : Result := step (s.withFetchWord 32 w)

/-- What a step answers, of a next state in which no exception has been raised. -/
def answer {α : Type} (r : Result) (f : State → α) : Option α :=
  match r with
  | .next t    => if t.outcome.isNone then some (f t) else none
  | .fault _   => none
  | .refused _ => none

/-- The exception a step has raised, and its epc. -/
def raised (r : Result) : Option (Cause × Word) :=
  match r with
  | .next t    => t.outcome.map (fun o => (o.cause, o.epc))
  | .fault _   => none
  | .refused _ => none

/-! ## One step of each instruction, from 95_test_vectors.md part 2 -/

/-- `ADD r3,r1,r2` with x[1] = 00000005, x[2] = FFFFFFFD. -/
theorem test_add_writes :
    answer (runWord (vectorState .big [(1, 0x00000005), (2, 0xFFFFFFFD)]) 0x00221820)
      (fun t => readReg t 3) = some 0x00000002 := by decide

/-- `ADD r3,r1,r2` with x[1] = 7FFFFFFF, x[2] = 00000001. -/
theorem test_add_raises :
    raised (runWord (vectorState .big [(1, 0x7FFFFFFF), (2, 0x00000001)]) 0x00221820) =
      some (.integerOverflow, 0x1000) := by decide

/-- `ADDI r2,r1,-1` with x[1] = 80000000. -/
theorem test_addi_raises :
    raised (runWord (vectorState .big [(1, 0x80000000)]) 0x2022FFFF) = some (.integerOverflow, 0x1000) := by decide

/-- `ADDI r2,r1,-1` with x[1] = 00000000. -/
theorem test_addi_writes :
    answer (runWord (vectorState .big [(1, 0x00000000)]) 0x2022FFFF)
      (fun t => readReg t 2) = some 0xFFFFFFFF := by decide

/-- `ADDIU r2,r1,-1` with x[1] = 80000000. -/
theorem test_addiu_writes :
    answer (runWord (vectorState .big [(1, 0x80000000)]) 0x2422FFFF)
      (fun t => readReg t 2) = some 0x7FFFFFFF := by decide

/-- `ADDIU r2,r1,-32768` with x[1] = 00000000. -/
theorem test_addiu_writes_again :
    answer (runWord (vectorState .big [(1, 0x00000000)]) 0x24228000)
      (fun t => readReg t 2) = some 0xFFFF8000 := by decide

/-- `ADDU r3,r1,r2` with x[1] = FFFFFFFF, x[2] = 00000001. -/
theorem test_addu_writes :
    answer (runWord (vectorState .big [(1, 0xFFFFFFFF), (2, 0x00000001)]) 0x00221821)
      (fun t => readReg t 3) = some 0x00000000 := by decide

/-- `ADDU r3,r1,r2` with x[1] = 7FFFFFFF, x[2] = 00000001. -/
theorem test_addu_writes_again :
    answer (runWord (vectorState .big [(1, 0x7FFFFFFF), (2, 0x00000001)]) 0x00221821)
      (fun t => readReg t 3) = some 0x80000000 := by decide

/-- `CLO r2,r1` with x[1] = FFFFFFFF. -/
theorem test_clo_writes :
    answer (runWord (vectorState .big [(1, 0xFFFFFFFF)]) 0x70221021)
      (fun t => readReg t 2) = some 0x00000020 := by decide

/-- `CLO r2,r1` with x[1] = 7FFFFFFF. -/
theorem test_clo_writes_again :
    answer (runWord (vectorState .big [(1, 0x7FFFFFFF)]) 0x70221021)
      (fun t => readReg t 2) = some 0x00000000 := by decide

/-- `CLZ r2,r1` with x[1] = 00000000. -/
theorem test_clz_writes :
    answer (runWord (vectorState .big [(1, 0x00000000)]) 0x70221020)
      (fun t => readReg t 2) = some 0x00000020 := by decide

/-- `CLZ r2,r1` with x[1] = 80000000. -/
theorem test_clz_writes_again :
    answer (runWord (vectorState .big [(1, 0x80000000)]) 0x70221020)
      (fun t => readReg t 2) = some 0x00000000 := by decide

/-- `DIV r1,r2` with x[1] = 00000007, x[2] = FFFFFFFE. -/
theorem test_div_writes_hi_lo :
    answer (runWord (vectorState .big [(1, 0x00000007), (2, 0xFFFFFFFE)]) 0x0022001A)
      (fun t => (t.hi, t.lo)) = some (0x00000001, 0xFFFFFFFD) := by decide

/-- `DIV r1,r2` with x[1] = 00000000, x[2] = 00000007. -/
theorem test_div_writes_hi_lo_again :
    answer (runWord (vectorState .big [(1, 0x00000000), (2, 0x00000007)]) 0x0022001A)
      (fun t => (t.hi, t.lo)) = some (0x00000000, 0x00000000) := by decide

/-- `DIVU r1,r2` with x[1] = FFFFFFF9, x[2] = 00000002. -/
theorem test_divu_writes_hi_lo :
    answer (runWord (vectorState .big [(1, 0xFFFFFFF9), (2, 0x00000002)]) 0x0022001B)
      (fun t => (t.hi, t.lo)) = some (0x00000001, 0x7FFFFFFC) := by decide

/-- `DIVU r1,r2` with x[1] = 00000007, x[2] = 00000000. -/
theorem test_divu_zero_divisor :
    answer (runWord (vectorState .big [(1, 0x00000007), (2, 0x00000000)]) 0x0022001B)
      (fun t => (readReg t 3, t.pc)) = some (0xAAAAAAAA, 0x00001004) := by decide

/-- `MULT r1,r2` with x[1] = FFFFFFFF, x[2] = FFFFFFFF. -/
theorem test_mult_writes_hi_lo :
    answer (runWord (vectorState .big [(1, 0xFFFFFFFF), (2, 0xFFFFFFFF)]) 0x00220018)
      (fun t => (t.hi, t.lo)) = some (0x00000000, 0x00000001) := by decide

/-- `MULT r1,r2` with x[1] = 80000000, x[2] = 80000000. -/
theorem test_mult_writes_hi_lo_again :
    answer (runWord (vectorState .big [(1, 0x80000000), (2, 0x80000000)]) 0x00220018)
      (fun t => (t.hi, t.lo)) = some (0x40000000, 0x00000000) := by decide

/-- `MULTU r1,r2` with x[1] = FFFFFFFF, x[2] = FFFFFFFF. -/
theorem test_multu_writes_hi_lo :
    answer (runWord (vectorState .big [(1, 0xFFFFFFFF), (2, 0xFFFFFFFF)]) 0x00220019)
      (fun t => (t.hi, t.lo)) = some (0xFFFFFFFE, 0x00000001) := by decide

/-- `MUL r3,r1,r2` with x[1] = 00010000, x[2] = 00010000. -/
theorem test_mul_writes :
    answer (runWord (vectorState .big [(1, 0x00010000), (2, 0x00010000)]) 0x70221802)
      (fun t => (readReg t 3, t.hi, t.lo)) = some (0x00000000, 0x00000001, 0x00000000) := by decide

/-- `MUL r3,r1,r2` with x[1] = FFFFFFFE, x[2] = 00000003. -/
theorem test_mul_writes_again :
    answer (runWord (vectorState .big [(1, 0xFFFFFFFE), (2, 0x00000003)]) 0x70221802)
      (fun t => (readReg t 3, t.hi, t.lo)) = some (0xFFFFFFFA, 0xFFFFFFFF, 0xFFFFFFFA) := by decide

/-- `MADD r1,r2` with x[1] = FFFFFFFF, x[2] = 00000002. -/
theorem test_madd_writes_hi_lo :
    answer (runWord { vectorState .big [(1, 0xFFFFFFFF), (2, 0x00000002)] with
        hi := 0x00000000, lo := 0x00000001 } 0x70220000)
      (fun t => (t.hi, t.lo)) = some (0xFFFFFFFF, 0xFFFFFFFF) := by decide

/-- `MADD r1,r2` with x[1] = 7FFFFFFF, x[2] = 7FFFFFFF. -/
theorem test_madd_writes_hi_lo_again :
    answer (runWord { vectorState .big [(1, 0x7FFFFFFF), (2, 0x7FFFFFFF)] with
        hi := 0x7FFFFFFF, lo := 0xFFFFFFFF } 0x70220000)
      (fun t => (t.hi, t.lo)) = some (0xBFFFFFFF, 0x00000000) := by decide

/-- `MADDU r1,r2` with x[1] = FFFFFFFF, x[2] = 00000002. -/
theorem test_maddu_writes_hi_lo :
    answer (runWord { vectorState .big [(1, 0xFFFFFFFF), (2, 0x00000002)] with
        hi := 0x00000000, lo := 0x00000001 } 0x70220001)
      (fun t => (t.hi, t.lo)) = some (0x00000001, 0xFFFFFFFF) := by decide

/-- `MADDU r1,r2` with x[1] = FFFFFFFF, x[2] = FFFFFFFF. -/
theorem test_maddu_writes_hi_lo_again :
    answer (runWord { vectorState .big [(1, 0xFFFFFFFF), (2, 0xFFFFFFFF)] with
        hi := 0xFFFFFFFF, lo := 0xFFFFFFFF } 0x70220001)
      (fun t => (t.hi, t.lo)) = some (0xFFFFFFFE, 0x00000000) := by decide

/-- `MSUB r1,r2` with x[1] = 00000003, x[2] = 00000004. -/
theorem test_msub_writes_hi_lo :
    answer (runWord { vectorState .big [(1, 0x00000003), (2, 0x00000004)] with
        hi := 0x00000000, lo := 0x00000005 } 0x70220004)
      (fun t => (t.hi, t.lo)) = some (0xFFFFFFFF, 0xFFFFFFF9) := by decide

/-- `MSUBU r1,r2` with x[1] = FFFFFFFF, x[2] = 00000002. -/
theorem test_msubu_writes_hi_lo :
    answer (runWord { vectorState .big [(1, 0xFFFFFFFF), (2, 0x00000002)] with
        hi := 0x00000000, lo := 0x00000001 } 0x70220005)
      (fun t => (t.hi, t.lo)) = some (0xFFFFFFFE, 0x00000003) := by decide

/-- `SEB r2,r1` with x[1] = 12345680. -/
theorem test_seb_writes :
    answer (runWord (vectorState .big [(1, 0x12345680)]) 0x7C011420)
      (fun t => readReg t 2) = some 0xFFFFFF80 := by decide

/-- `SEB r2,r1` with x[1] = FFFFFF7F. -/
theorem test_seb_writes_again :
    answer (runWord (vectorState .big [(1, 0xFFFFFF7F)]) 0x7C011420)
      (fun t => readReg t 2) = some 0x0000007F := by decide

/-- `SEH r2,r1` with x[1] = 12348000. -/
theorem test_seh_writes :
    answer (runWord (vectorState .big [(1, 0x12348000)]) 0x7C011620)
      (fun t => readReg t 2) = some 0xFFFF8000 := by decide

/-- `SEH r2,r1` with x[1] = FFFF7FFF. -/
theorem test_seh_writes_again :
    answer (runWord (vectorState .big [(1, 0xFFFF7FFF)]) 0x7C011620)
      (fun t => readReg t 2) = some 0x00007FFF := by decide

/-- `SLT r3,r1,r2` with x[1] = FFFFFFFF, x[2] = 00000001. -/
theorem test_slt_writes :
    answer (runWord (vectorState .big [(1, 0xFFFFFFFF), (2, 0x00000001)]) 0x0022182A)
      (fun t => readReg t 3) = some 0x00000001 := by decide

/-- `SLT r3,r1,r2` with x[1] = 80000000, x[2] = 7FFFFFFF. -/
theorem test_slt_writes_again :
    answer (runWord (vectorState .big [(1, 0x80000000), (2, 0x7FFFFFFF)]) 0x0022182A)
      (fun t => readReg t 3) = some 0x00000001 := by decide

/-- `SLTU r3,r1,r2` with x[1] = FFFFFFFF, x[2] = 00000001. -/
theorem test_sltu_writes :
    answer (runWord (vectorState .big [(1, 0xFFFFFFFF), (2, 0x00000001)]) 0x0022182B)
      (fun t => readReg t 3) = some 0x00000000 := by decide

/-- `SLTI r2,r1,-1` with x[1] = FFFFFFFE. -/
theorem test_slti_writes :
    answer (runWord (vectorState .big [(1, 0xFFFFFFFE)]) 0x2822FFFF)
      (fun t => readReg t 2) = some 0x00000001 := by decide

/-- `SLTI r2,r1,-1` with x[1] = 00000000. -/
theorem test_slti_writes_again :
    answer (runWord (vectorState .big [(1, 0x00000000)]) 0x2822FFFF)
      (fun t => readReg t 2) = some 0x00000000 := by decide

/-- `SLTIU r2,r1,-1` with x[1] = 00000005. -/
theorem test_sltiu_writes :
    answer (runWord (vectorState .big [(1, 0x00000005)]) 0x2C22FFFF)
      (fun t => readReg t 2) = some 0x00000001 := by decide

/-- `SLTIU r2,r1,1` with x[1] = 00000000. -/
theorem test_sltiu_writes_again :
    answer (runWord (vectorState .big [(1, 0x00000000)]) 0x2C220001)
      (fun t => readReg t 2) = some 0x00000001 := by decide

/-- `SUB r3,r1,r2` with x[1] = 80000000, x[2] = 00000001. -/
theorem test_sub_raises :
    raised (runWord (vectorState .big [(1, 0x80000000), (2, 0x00000001)]) 0x00221822) =
      some (.integerOverflow, 0x1000) := by decide

/-- `SUB r3,r1,r2` with x[1] = 00000005, x[2] = 00000007. -/
theorem test_sub_writes :
    answer (runWord (vectorState .big [(1, 0x00000005), (2, 0x00000007)]) 0x00221822)
      (fun t => readReg t 3) = some 0xFFFFFFFE := by decide

/-- `SUBU r3,r1,r2` with x[1] = 80000000, x[2] = 00000001. -/
theorem test_subu_writes :
    answer (runWord (vectorState .big [(1, 0x80000000), (2, 0x00000001)]) 0x00221823)
      (fun t => readReg t 3) = some 0x7FFFFFFF := by decide

/-- `SUBU r3,r1,r2` with x[1] = 00000000, x[2] = 80000000. -/
theorem test_subu_writes_again :
    answer (runWord (vectorState .big [(1, 0x00000000), (2, 0x80000000)]) 0x00221823)
      (fun t => readReg t 3) = some 0x80000000 := by decide

/-- `B +3` with nothing given. -/
theorem test_b_taken :
    answer (runWord (vectorState .big []) 0x10000003)
      (fun t => (t.pc, t.npc)) = some (0x00001004, 0x00001010) := by decide

/-- `B -1` with nothing given. -/
theorem test_b_taken_again :
    answer (runWord (vectorState .big []) 0x1000FFFF)
      (fun t => (t.pc, t.npc)) = some (0x00001004, 0x00001000) := by decide

/-- `BAL +3` with nothing given. -/
theorem test_bal_taken :
    answer (runWord (vectorState .big []) 0x04110003)
      (fun t => (readReg t 31, t.pc, t.npc)) = some (0x00001008, 0x00001004, 0x00001010) := by decide

/-- `BEQ r1,r2,+4` with x[1] = 00000005, x[2] = 00000005. -/
theorem test_beq_taken :
    answer (runWord (vectorState .big [(1, 0x00000005), (2, 0x00000005)]) 0x10220004)
      (fun t => (t.pc, t.npc)) = some (0x00001004, 0x00001014) := by decide

/-- `BEQ r1,r2,+4` with x[1] = 00000005, x[2] = 00000006. -/
theorem test_beq_not_taken :
    answer (runWord (vectorState .big [(1, 0x00000005), (2, 0x00000006)]) 0x10220004)
      (fun t => (t.pc, t.npc)) = some (0x00001004, 0x00001008) := by decide

/-- `BNE r1,r2,-2` with x[1] = 00000005, x[2] = 00000006. -/
theorem test_bne_taken :
    answer (runWord (vectorState .big [(1, 0x00000005), (2, 0x00000006)]) 0x1422FFFE)
      (fun t => (t.pc, t.npc)) = some (0x00001004, 0x00000FFC) := by decide

/-- `BNE r1,r2,-2` with x[1] = 00000005, x[2] = 00000005. -/
theorem test_bne_not_taken :
    answer (runWord (vectorState .big [(1, 0x00000005), (2, 0x00000005)]) 0x1422FFFE)
      (fun t => (t.pc, t.npc)) = some (0x00001004, 0x00001008) := by decide

/-- `BGEZ r1,+2` with x[1] = 00000000. -/
theorem test_bgez_taken :
    answer (runWord (vectorState .big [(1, 0x00000000)]) 0x04210002)
      (fun t => (t.pc, t.npc)) = some (0x00001004, 0x0000100C) := by decide

/-- `BGEZ r1,+2` with x[1] = 80000000. -/
theorem test_bgez_not_taken :
    answer (runWord (vectorState .big [(1, 0x80000000)]) 0x04210002)
      (fun t => (t.pc, t.npc)) = some (0x00001004, 0x00001008) := by decide

/-- `BGEZAL r1,+2` with x[1] = 00000001. -/
theorem test_bgezal_taken :
    answer (runWord (vectorState .big [(1, 0x00000001)]) 0x04310002)
      (fun t => (readReg t 31, t.pc, t.npc)) = some (0x00001008, 0x00001004, 0x0000100C) := by decide

/-- `BGEZAL r1,+2` with x[1] = FFFFFFFF. -/
theorem test_bgezal_not_taken :
    answer (runWord (vectorState .big [(1, 0xFFFFFFFF)]) 0x04310002)
      (fun t => (readReg t 31, t.pc, t.npc)) = some (0x00001008, 0x00001004, 0x00001008) := by decide

/-- `BGTZ r1,+2` with x[1] = 00000000. -/
theorem test_bgtz_not_taken :
    answer (runWord (vectorState .big [(1, 0x00000000)]) 0x1C200002)
      (fun t => (t.pc, t.npc)) = some (0x00001004, 0x00001008) := by decide

/-- `BGTZ r1,+2` with x[1] = 00000001. -/
theorem test_bgtz_taken :
    answer (runWord (vectorState .big [(1, 0x00000001)]) 0x1C200002)
      (fun t => (t.pc, t.npc)) = some (0x00001004, 0x0000100C) := by decide

/-- `BLEZ r1,+2` with x[1] = 00000000. -/
theorem test_blez_taken :
    answer (runWord (vectorState .big [(1, 0x00000000)]) 0x18200002)
      (fun t => (t.pc, t.npc)) = some (0x00001004, 0x0000100C) := by decide

/-- `BLEZ r1,+2` with x[1] = 7FFFFFFF. -/
theorem test_blez_not_taken :
    answer (runWord (vectorState .big [(1, 0x7FFFFFFF)]) 0x18200002)
      (fun t => (t.pc, t.npc)) = some (0x00001004, 0x00001008) := by decide

/-- `BLTZ r1,+2` with x[1] = FFFFFFFF. -/
theorem test_bltz_taken :
    answer (runWord (vectorState .big [(1, 0xFFFFFFFF)]) 0x04200002)
      (fun t => (t.pc, t.npc)) = some (0x00001004, 0x0000100C) := by decide

/-- `BLTZ r1,+2` with x[1] = 00000000. -/
theorem test_bltz_not_taken :
    answer (runWord (vectorState .big [(1, 0x00000000)]) 0x04200002)
      (fun t => (t.pc, t.npc)) = some (0x00001004, 0x00001008) := by decide

/-- `BLTZAL r1,-4` with x[1] = 80000000. -/
theorem test_bltzal_taken :
    answer (runWord (vectorState .big [(1, 0x80000000)]) 0x0430FFFC)
      (fun t => (readReg t 31, t.pc, t.npc)) = some (0x00001008, 0x00001004, 0x00000FF4) := by decide

/-- `BLTZAL r1,-4` with x[1] = 00000000. -/
theorem test_bltzal_not_taken :
    answer (runWord (vectorState .big [(1, 0x00000000)]) 0x0430FFFC)
      (fun t => (readReg t 31, t.pc, t.npc)) = some (0x00001008, 0x00001004, 0x00001008) := by decide

/-- `J 0x0000800` with nothing given. -/
theorem test_j_taken :
    answer (runWord (vectorState .big []) 0x08000800)
      (fun t => (t.pc, t.npc)) = some (0x00001004, 0x00002000) := by decide

/-- `J 0x0000400` with nothing given. -/
theorem test_j_taken_again :
    answer (runWord { vectorState .big [] with pc := 0xAFFFFFFC, npc := 0xB0000000 } 0x08000400)
      (fun t => (t.pc, t.npc)) = some (0xB0000000, 0xB0001000) := by decide

/-- `JAL 0x0000800` with nothing given. -/
theorem test_jal_taken :
    answer (runWord (vectorState .big []) 0x0C000800)
      (fun t => (readReg t 31, t.pc, t.npc)) = some (0x00001008, 0x00001004, 0x00002000) := by decide

/-- `JR r1` with x[1] = 00002000. -/
theorem test_jr_taken :
    answer (runWord (vectorState .big [(1, 0x00002000)]) 0x00200008)
      (fun t => (t.pc, t.npc)) = some (0x00001004, 0x00002000) := by decide

/-- `JR r1` with x[1] = 00002002. -/
theorem test_jr_taken_again :
    answer (runWord (vectorState .big [(1, 0x00002002)]) 0x00200008)
      (fun t => (t.pc, t.npc)) = some (0x00001004, 0x00002002) := by decide

/-- `JR.HB r1` with x[1] = 00002000. -/
theorem test_jr_hb_taken :
    answer (runWord (vectorState .big [(1, 0x00002000)]) 0x00200408)
      (fun t => (t.pc, t.npc)) = some (0x00001004, 0x00002000) := by decide

/-- `JALR r1` with x[1] = 00002000. -/
theorem test_jalr_taken :
    answer (runWord (vectorState .big [(1, 0x00002000)]) 0x0020F809)
      (fun t => (readReg t 31, t.pc, t.npc)) = some (0x00001008, 0x00001004, 0x00002000) := by decide

/-- `JALR r0,r1` with x[1] = 00002000. -/
theorem test_jalr_taken_again :
    answer (runWord (vectorState .big [(1, 0x00002000)]) 0x00200009)
      (fun t => (t.pc, t.npc)) = some (0x00001004, 0x00002000) := by decide

/-- `JALR.HB r1` with x[1] = 00002000. -/
theorem test_jalr_hb_taken :
    answer (runWord (vectorState .big [(1, 0x00002000)]) 0x0020FC09)
      (fun t => (readReg t 31, t.pc, t.npc)) = some (0x00001008, 0x00001004, 0x00002000) := by decide

/-- `NOP` with nothing given. -/
theorem test_nop_advances :
    answer (runWord (vectorState .big []) 0x00000000)
      (fun t => (readReg t 3, t.pc)) = some (0xAAAAAAAA, 0x00001004) := by decide

/-- `SSNOP` with nothing given. -/
theorem test_ssnop_advances :
    answer (runWord (vectorState .big []) 0x00000040)
      (fun t => (readReg t 3, t.pc)) = some (0xAAAAAAAA, 0x00001004) := by decide

/-- `EHB` with nothing given. -/
theorem test_ehb_advances :
    answer (runWord (vectorState .big []) 0x000000C0)
      (fun t => (readReg t 3, t.pc)) = some (0xAAAAAAAA, 0x00001004) := by decide

/-- `LB r2,0(r1)` with x[1] = 00002000. -/
theorem test_lb_writes :
    answer (runWord (vectorState .big [(1, 0x00002000)]) 0x80220000)
      (fun t => readReg t 2) = some 0xFFFFFF80 := by decide

/-- `LB r2,-1(r1)` with x[1] = 00002001. -/
theorem test_lb_writes_little :
    answer (runWord (vectorState .little [(1, 0x00002001)]) 0x8022FFFF)
      (fun t => readReg t 2) = some 0xFFFFFF80 := by decide

/-- `LBU r2,0(r1)` with x[1] = 00002000. -/
theorem test_lbu_writes :
    answer (runWord (vectorState .big [(1, 0x00002000)]) 0x90220000)
      (fun t => readReg t 2) = some 0x00000080 := by decide

/-- `LBU r2,0(r1)` with x[1] = 00002000. -/
theorem test_lbu_writes_little :
    answer (runWord (vectorState .little [(1, 0x00002000)]) 0x90220000)
      (fun t => readReg t 2) = some 0x00000080 := by decide

/-- `LH r2,0(r1)` with x[1] = 00002000. -/
theorem test_lh_writes_little :
    answer (runWord (vectorState .little [(1, 0x00002000)]) 0x84220000)
      (fun t => readReg t 2) = some 0xFFFFFF80 := by decide

/-- `LH r2,1(r1)` with x[1] = 00002000. -/
theorem test_lh_raises :
    raised (runWord (vectorState .big [(1, 0x00002000)]) 0x84220001) = some (.addressErrorLoad, 0x1000) := by decide

/-- `LHU r2,0(r1)` with x[1] = 00002000. -/
theorem test_lhu_writes :
    answer (runWord (vectorState .big [(1, 0x00002000)]) 0x94220000)
      (fun t => readReg t 2) = some 0x000080FF := by decide

/-- `LHU r2,0(r1)` with x[1] = 00002000. -/
theorem test_lhu_writes_little :
    answer (runWord (vectorState .little [(1, 0x00002000)]) 0x94220000)
      (fun t => readReg t 2) = some 0x0000FF80 := by decide

/-- `LW r2,0(r1)` with x[1] = 00002000. -/
theorem test_lw_writes_little :
    answer (runWord (vectorState .little [(1, 0x00002000)]) 0x8C220000)
      (fun t => readReg t 2) = some 0x017FFF80 := by decide

/-- `LW r2,2(r1)` with x[1] = 00002000. -/
theorem test_lw_raises :
    raised (runWord (vectorState .big [(1, 0x00002000)]) 0x8C220002) = some (.addressErrorLoad, 0x1000) := by decide

/-- `LL r2,0(r1)` with x[1] = 00002000. -/
theorem test_ll_writes :
    answer (runWord (vectorState .big [(1, 0x00002000)]) 0xC0220000)
      (fun t => (readReg t 2, t.lladdr)) = some (0x80FF7F01, 0x2000) := by decide

/-- `LL r2,0(r1)` with x[1] = 00002000. -/
theorem test_ll_writes_little :
    answer (runWord (vectorState .little [(1, 0x00002000)]) 0xC0220000)
      (fun t => (readReg t 2, t.lladdr)) = some (0x017FFF80, 0x2000) := by decide

/-- `LWL r2,1(r1)` with x[2] = AABBCCDD, x[1] = 00002000. -/
theorem test_lwl_writes :
    answer (runWord (vectorState .big [(2, 0xAABBCCDD), (1, 0x00002000)]) 0x88220001)
      (fun t => readReg t 2) = some 0xFF7F01DD := by decide

/-- `LWL r2,1(r1)` with x[2] = AABBCCDD, x[1] = 00002000. -/
theorem test_lwl_writes_little :
    answer (runWord (vectorState .little [(2, 0xAABBCCDD), (1, 0x00002000)]) 0x88220001)
      (fun t => readReg t 2) = some 0xFF80CCDD := by decide

/-- `LWR r2,1(r1)` with x[2] = AABBCCDD, x[1] = 00002000. -/
theorem test_lwr_writes :
    answer (runWord (vectorState .big [(2, 0xAABBCCDD), (1, 0x00002000)]) 0x98220001)
      (fun t => readReg t 2) = some 0xAABB80FF := by decide

/-- `LWR r2,1(r1)` with x[2] = AABBCCDD, x[1] = 00002000. -/
theorem test_lwr_writes_little :
    answer (runWord (vectorState .little [(2, 0xAABBCCDD), (1, 0x00002000)]) 0x98220001)
      (fun t => readReg t 2) = some 0xAA017FFF := by decide

/-- `SB r2,1(r1)` with x[2] = AABBCCDD, x[1] = 00002000. -/
theorem test_sb_stores :
    answer (runWord (vectorState .big [(2, 0xAABBCCDD), (1, 0x00002000)]) 0xA0220001)
      (fun t => [0x00002001].map (memByte t)) = some [0xDD] := by decide

/-- `SB r2,1(r1)` with x[2] = AABBCCDD, x[1] = 00002000. -/
theorem test_sb_stores_little :
    answer (runWord (vectorState .little [(2, 0xAABBCCDD), (1, 0x00002000)]) 0xA0220001)
      (fun t => [0x00002001].map (memByte t)) = some [0xDD] := by decide

/-- `SH r2,2(r1)` with x[2] = AABBCCDD, x[1] = 00002000. -/
theorem test_sh_stores_little :
    answer (runWord (vectorState .little [(2, 0xAABBCCDD), (1, 0x00002000)]) 0xA4220002)
      (fun t => [0x00002002, 0x00002003].map (memByte t)) = some [0xDD, 0xCC] := by decide

/-- `SH r2,3(r1)` with x[2] = AABBCCDD, x[1] = 00002000. -/
theorem test_sh_raises :
    raised (runWord (vectorState .big [(2, 0xAABBCCDD), (1, 0x00002000)]) 0xA4220003) =
      some (.addressErrorStore, 0x1000) := by decide

/-- `SW r2,4(r1)` with x[2] = AABBCCDD, x[1] = 00002000. -/
theorem test_sw_stores_little :
    answer (runWord (vectorState .little [(2, 0xAABBCCDD), (1, 0x00002000)]) 0xAC220004)
      (fun t => [0x00002004, 0x00002005, 0x00002006, 0x00002007].map (memByte t)) =
        some [0xDD, 0xCC, 0xBB, 0xAA] := by decide

/-- `SW r2,5(r1)` with x[2] = AABBCCDD, x[1] = 00002000. -/
theorem test_sw_raises :
    raised (runWord (vectorState .big [(2, 0xAABBCCDD), (1, 0x00002000)]) 0xAC220005) =
      some (.addressErrorStore, 0x1000) := by decide

/-- `SWL r2,1(r1)` with x[2] = AABBCCDD, x[1] = 00002000. -/
theorem test_swl_stores :
    answer (runWord (vectorState .big [(2, 0xAABBCCDD), (1, 0x00002000)]) 0xA8220001)
      (fun t => [0x00002001, 0x00002002, 0x00002003].map (memByte t)) = some [0xAA, 0xBB, 0xCC] := by decide

/-- `SWL r2,1(r1)` with x[2] = AABBCCDD, x[1] = 00002000. -/
theorem test_swl_stores_little :
    answer (runWord (vectorState .little [(2, 0xAABBCCDD), (1, 0x00002000)]) 0xA8220001)
      (fun t => [0x00002000, 0x00002001].map (memByte t)) = some [0xBB, 0xAA] := by decide

/-- `SWR r2,1(r1)` with x[2] = AABBCCDD, x[1] = 00002000. -/
theorem test_swr_stores :
    answer (runWord (vectorState .big [(2, 0xAABBCCDD), (1, 0x00002000)]) 0xB8220001)
      (fun t => [0x00002000, 0x00002001].map (memByte t)) = some [0xCC, 0xDD] := by decide

/-- `SWR r2,1(r1)` with x[2] = AABBCCDD, x[1] = 00002000. -/
theorem test_swr_stores_little :
    answer (runWord (vectorState .little [(2, 0xAABBCCDD), (1, 0x00002000)]) 0xB8220001)
      (fun t => [0x00002001, 0x00002002, 0x00002003].map (memByte t)) = some [0xDD, 0xCC, 0xBB] := by decide

/-- `SC r2,0(r1)` with x[2] = AABBCCDD, x[1] = 00002000. -/
theorem test_sc_stores :
    answer (runWord { vectorState .big [(2, 0xAABBCCDD), (1, 0x00002000)] with
        llbit := true, lladdr := 0x00002000, params := { (vectorParams .big) with scDraw := false } } 0xE0220000)
      (fun t => (readReg t 2, [0x00002000, 0x00002001, 0x00002002, 0x00002003].map (memByte t))) =
        some (0x00000001, [0xAA, 0xBB, 0xCC, 0xDD]) := by decide

/-- `SC r2,4(r1)` with x[2] = AABBCCDD, x[1] = 00002000. -/
theorem test_sc_faults :
    stepKind (runWord { vectorState .big [(2, 0xAABBCCDD), (1, 0x00002000)] with llbit := true, lladdr := 0x00002000 } 0xE0220004) =
      .fault := by decide

/-- `PREF 0,0(r1)` with x[1] = DEAD0001. -/
theorem test_pref_advances :
    answer (runWord (vectorState .big [(1, 0xDEAD0001)]) 0xCC200000)
      (fun t => (readReg t 3, t.pc)) = some (0xAAAAAAAA, 0x00001004) := by decide

/-- `PREF 30,4(r1)` with x[1] = 00002000. -/
theorem test_pref_advances_again :
    answer (runWord (vectorState .big [(1, 0x00002000)]) 0xCC3E0004)
      (fun t => (readReg t 3, t.pc)) = some (0xAAAAAAAA, 0x00001004) := by decide

/-- `SYNC` with nothing given. -/
theorem test_sync_advances :
    answer (runWord (vectorState .big []) 0x0000000F)
      (fun t => (readReg t 3, t.pc)) = some (0xAAAAAAAA, 0x00001004) := by decide

/-- `SYNC 4` with nothing given. -/
theorem test_sync_advances_again :
    answer (runWord (vectorState .big []) 0x0000010F)
      (fun t => (readReg t 3, t.pc)) = some (0xAAAAAAAA, 0x00001004) := by decide

/-- `SYNCI 0(r1)` with x[1] = 00002001. -/
theorem test_synci_advances :
    answer (runWord (vectorState .big [(1, 0x00002001)]) 0x043F0000)
      (fun t => (t.pc, t.npc)) = some (0x00001004, 0x00001008) := by decide

/-- `SYNCI 0(r1)` with x[1] = 00003000. -/
theorem test_synci_is_stuck :
    stepKind (runWord (vectorState .big [(1, 0x00003000)]) 0x043F0000) = .stuck := by decide

/-- `SD r2,0(r1)` with x[1] = 00002000. -/
theorem test_sd_is_refused :
    stepKind (runWord (vectorState .big [(1, 0x00002000)]) 0xFC220000) = .refused := by decide

/-- `AND r3,r1,r2` with x[1] = FF00F0F0, x[2] = 0FF0FF00. -/
theorem test_and_writes :
    answer (runWord (vectorState .big [(1, 0xFF00F0F0), (2, 0x0FF0FF00)]) 0x00221824)
      (fun t => readReg t 3) = some 0x0F00F000 := by decide

/-- `OR r3,r1,r2` with x[1] = FF00F0F0, x[2] = 0FF0FF00. -/
theorem test_or_writes :
    answer (runWord (vectorState .big [(1, 0xFF00F0F0), (2, 0x0FF0FF00)]) 0x00221825)
      (fun t => readReg t 3) = some 0xFFF0FFF0 := by decide

/-- `OR r3,r1,r0` with x[1] = FF00F0F0. -/
theorem test_or_writes_again :
    answer (runWord (vectorState .big [(1, 0xFF00F0F0)]) 0x00201825)
      (fun t => readReg t 3) = some 0xFF00F0F0 := by decide

/-- `XOR r3,r1,r2` with x[1] = FF00F0F0, x[2] = 0FF0FF00. -/
theorem test_xor_writes :
    answer (runWord (vectorState .big [(1, 0xFF00F0F0), (2, 0x0FF0FF00)]) 0x00221826)
      (fun t => readReg t 3) = some 0xF0F00FF0 := by decide

/-- `NOR r3,r1,r2` with x[1] = FF00F0F0, x[2] = 0FF0FF00. -/
theorem test_nor_writes :
    answer (runWord (vectorState .big [(1, 0xFF00F0F0), (2, 0x0FF0FF00)]) 0x00221827)
      (fun t => readReg t 3) = some 0x000F000F := by decide

/-- `NOR r3,r1,r0` with x[1] = FF00F0F0. -/
theorem test_nor_writes_again :
    answer (runWord (vectorState .big [(1, 0xFF00F0F0)]) 0x00201827)
      (fun t => readReg t 3) = some 0x00FF0F0F := by decide

/-- `ANDI r2,r1,0xFFFF` with x[1] = FF00F0F0. -/
theorem test_andi_writes :
    answer (runWord (vectorState .big [(1, 0xFF00F0F0)]) 0x3022FFFF)
      (fun t => readReg t 2) = some 0x0000F0F0 := by decide

/-- `ANDI r2,r1,0x8000` with x[1] = FFFFFFFF. -/
theorem test_andi_writes_again :
    answer (runWord (vectorState .big [(1, 0xFFFFFFFF)]) 0x30228000)
      (fun t => readReg t 2) = some 0x00008000 := by decide

/-- `ORI r2,r1,0x8001` with x[1] = FF000000. -/
theorem test_ori_writes :
    answer (runWord (vectorState .big [(1, 0xFF000000)]) 0x34228001)
      (fun t => readReg t 2) = some 0xFF008001 := by decide

/-- `ORI r2,r0,0xFFFF` with nothing given. -/
theorem test_ori_writes_again :
    answer (runWord (vectorState .big []) 0x3402FFFF) (fun t => readReg t 2) = some 0x0000FFFF := by decide

/-- `XORI r2,r1,0xFFFF` with x[1] = FFFFFFFF. -/
theorem test_xori_writes :
    answer (runWord (vectorState .big [(1, 0xFFFFFFFF)]) 0x3822FFFF)
      (fun t => readReg t 2) = some 0xFFFF0000 := by decide

/-- `LUI r2,0x8001` with nothing given. -/
theorem test_lui_writes :
    answer (runWord (vectorState .big []) 0x3C028001) (fun t => readReg t 2) = some 0x80010000 := by decide

/-- `LUI r0,0x1234` with nothing given. -/
theorem test_lui_advances :
    answer (runWord (vectorState .big []) 0x3C001234)
      (fun t => (readReg t 3, t.pc)) = some (0xAAAAAAAA, 0x00001004) := by decide

/-- `EXT r2,r1,4,8` with x[1] = 12345678. -/
theorem test_ext_writes :
    answer (runWord (vectorState .big [(1, 0x12345678)]) 0x7C223900)
      (fun t => readReg t 2) = some 0x00000067 := by decide

/-- `(EXT with msbd=7, lsb=28)` with x[1] = 12345678. -/
theorem test_ext_faults :
    stepKind (runWord (vectorState .big [(1, 0x12345678)]) 0x7C223F00) = .fault := by decide

/-- `INS r2,r1,4,8` with x[1] = 000000AB, x[2] = FFFFFFFF. -/
theorem test_ins_writes :
    answer (runWord (vectorState .big [(1, 0x000000AB), (2, 0xFFFFFFFF)]) 0x7C225904)
      (fun t => readReg t 2) = some 0xFFFFFABF := by decide

/-- `(INS with msb=3, lsb=8)` with x[1] = 000000AB. -/
theorem test_ins_faults :
    stepKind (runWord (vectorState .big [(1, 0x000000AB)]) 0x7C221A04) = .fault := by decide

/-- `WSBH r2,r1` with x[1] = 11223344. -/
theorem test_wsbh_writes :
    answer (runWord (vectorState .big [(1, 0x11223344)]) 0x7C0110A0)
      (fun t => readReg t 2) = some 0x22114433 := by decide

/-- `WSBH r2,r1` with x[1] = FF00AA55. -/
theorem test_wsbh_writes_again :
    answer (runWord (vectorState .big [(1, 0xFF00AA55)]) 0x7C0110A0)
      (fun t => readReg t 2) = some 0x00FF55AA := by decide

/-- `MOVN r3,r1,r2` with x[1] = 11111111, x[2] = 00000001. -/
theorem test_movn_writes :
    answer (runWord (vectorState .big [(1, 0x11111111), (2, 0x00000001)]) 0x0022180B)
      (fun t => readReg t 3) = some 0x11111111 := by decide

/-- `MOVN r3,r1,r2` with x[1] = 11111111, x[2] = 00000000. -/
theorem test_movn_advances :
    answer (runWord (vectorState .big [(1, 0x11111111), (2, 0x00000000)]) 0x0022180B)
      (fun t => (readReg t 3, t.pc)) = some (0xAAAAAAAA, 0x00001004) := by decide

/-- `MOVZ r3,r1,r2` with x[1] = 11111111, x[2] = 00000000. -/
theorem test_movz_writes :
    answer (runWord (vectorState .big [(1, 0x11111111), (2, 0x00000000)]) 0x0022180A)
      (fun t => readReg t 3) = some 0x11111111 := by decide

/-- `MOVZ r3,r1,r2` with x[1] = 11111111, x[2] = 80000000. -/
theorem test_movz_advances :
    answer (runWord (vectorState .big [(1, 0x11111111), (2, 0x80000000)]) 0x0022180A)
      (fun t => (readReg t 3, t.pc)) = some (0xAAAAAAAA, 0x00001004) := by decide

/-- `MOVT r3,r1,3` with x[1] = 11111111. -/
theorem test_movt_writes :
    answer (runWord { vectorState .big [(1, 0x11111111)] with cc := 8 } 0x002D1801)
      (fun t => readReg t 3) = some 0x11111111 := by decide

/-- `MOVT r3,r1,0` with nothing given. -/
theorem test_movt_is_refused :
    stepKind (runWord { vectorState .big [] with params := { (vectorParams .big) with hasCc := false } } 0x00211801) =
      .refused := by decide

/-- `MTHI r1` with x[1] = 12345678. -/
theorem test_mthi_writes_hi_lo :
    answer (runWord { vectorState .big [(1, 0x12345678)] with hi := 0xAAAAAAAA, lo := 0xAAAAAAAA } 0x00200011)
      (fun t => (t.hi, t.lo)) = some (0x12345678, 0xAAAAAAAA) := by decide

/-- `MTHI r0` with nothing given. -/
theorem test_mthi_writes_hi_lo_again :
    answer (runWord (vectorState .big []) 0x00000011)
      (fun t => (t.hi, t.lo)) = some (0x00000000, 0xAAAAAAAA) := by decide

/-- `MTLO r1` with x[1] = 12345678. -/
theorem test_mtlo_writes_hi_lo :
    answer (runWord { vectorState .big [(1, 0x12345678)] with hi := 0xAAAAAAAA, lo := 0xAAAAAAAA } 0x00200013)
      (fun t => (t.hi, t.lo)) = some (0xAAAAAAAA, 0x12345678) := by decide

/-- `RDHWR r2,29` with nothing given. -/
theorem test_rdhwr_writes :
    answer (runWord { vectorState .big [] with

        params := { (vectorParams .big) with hwrena := 0x20000000, hwr := (Vector.replicate 32 none).set 29 (some 0xCAFE0000) } } 0x7C02E83B)
      (fun t => readReg t 2) = some 0xCAFE0000 := by decide

/-- `RDHWR r2,2` with nothing given. -/
theorem test_rdhwr_raises :
    raised (runWord { vectorState .big [] with params := { (vectorParams .big) with hwrena := 0x20000000 } } 0x7C02103B) =
      some (.reservedInstruction, 0x1000) := by decide

/-- `SLL r3,r2,1` with x[2] = 80000001. -/
theorem test_sll_writes :
    answer (runWord (vectorState .big [(2, 0x80000001)]) 0x00021840)
      (fun t => readReg t 3) = some 0x00000002 := by decide

/-- `SLL r3,r2,31` with x[2] = 80000001. -/
theorem test_sll_writes_again :
    answer (runWord (vectorState .big [(2, 0x80000001)]) 0x00021FC0)
      (fun t => readReg t 3) = some 0x80000000 := by decide

/-- `SRL r3,r2,1` with x[2] = 80000001. -/
theorem test_srl_writes :
    answer (runWord (vectorState .big [(2, 0x80000001)]) 0x00021842)
      (fun t => readReg t 3) = some 0x40000000 := by decide

/-- `SRL r3,r2,31` with x[2] = 80000001. -/
theorem test_srl_writes_again :
    answer (runWord (vectorState .big [(2, 0x80000001)]) 0x00021FC2)
      (fun t => readReg t 3) = some 0x00000001 := by decide

/-- `SRA r3,r2,1` with x[2] = 80000001. -/
theorem test_sra_writes :
    answer (runWord (vectorState .big [(2, 0x80000001)]) 0x00021843)
      (fun t => readReg t 3) = some 0xC0000000 := by decide

/-- `SRA r3,r2,4` with x[2] = 7FFFFFF0. -/
theorem test_sra_writes_again :
    answer (runWord (vectorState .big [(2, 0x7FFFFFF0)]) 0x00021903)
      (fun t => readReg t 3) = some 0x07FFFFFF := by decide

/-- `ROTR r3,r2,1` with x[2] = 80000001. -/
theorem test_rotr_writes :
    answer (runWord (vectorState .big [(2, 0x80000001)]) 0x00221842)
      (fun t => readReg t 3) = some 0xC0000000 := by decide

/-- `ROTR r3,r2,16` with x[2] = 80000001. -/
theorem test_rotr_writes_again :
    answer (runWord (vectorState .big [(2, 0x80000001)]) 0x00221C02)
      (fun t => readReg t 3) = some 0x00018000 := by decide

/-- `SLLV r3,r2,r1` with x[2] = 80000001, x[1] = 00000021. -/
theorem test_sllv_writes :
    answer (runWord (vectorState .big [(2, 0x80000001), (1, 0x00000021)]) 0x00221804)
      (fun t => readReg t 3) = some 0x00000002 := by decide

/-- `SLLV r3,r2,r1` with x[2] = 80000001, x[1] = FFFFFFFF. -/
theorem test_sllv_writes_again :
    answer (runWord (vectorState .big [(2, 0x80000001), (1, 0xFFFFFFFF)]) 0x00221804)
      (fun t => readReg t 3) = some 0x80000000 := by decide

/-- `SRLV r3,r2,r1` with x[2] = 80000001, x[1] = 00000004. -/
theorem test_srlv_writes :
    answer (runWord (vectorState .big [(2, 0x80000001), (1, 0x00000004)]) 0x00221806)
      (fun t => readReg t 3) = some 0x08000000 := by decide

/-- `SRLV r3,r2,r1` with x[2] = 80000001, x[1] = 00000024. -/
theorem test_srlv_writes_again :
    answer (runWord (vectorState .big [(2, 0x80000001), (1, 0x00000024)]) 0x00221806)
      (fun t => readReg t 3) = some 0x08000000 := by decide

/-- `SRAV r3,r2,r1` with x[2] = 80000001, x[1] = FFFFFFFF. -/
theorem test_srav_writes :
    answer (runWord (vectorState .big [(2, 0x80000001), (1, 0xFFFFFFFF)]) 0x00221807)
      (fun t => readReg t 3) = some 0xFFFFFFFF := by decide

/-- `SRAV r3,r2,r1` with x[2] = 80000001, x[1] = 00000008. -/
theorem test_srav_writes_again :
    answer (runWord (vectorState .big [(2, 0x80000001), (1, 0x00000008)]) 0x00221807)
      (fun t => readReg t 3) = some 0xFF800000 := by decide

/-- `ROTRV r3,r2,r1` with x[2] = 80000001, x[1] = 00000028. -/
theorem test_rotrv_writes :
    answer (runWord (vectorState .big [(2, 0x80000001), (1, 0x00000028)]) 0x00221846)
      (fun t => readReg t 3) = some 0x01800000 := by decide

/-- `ROTRV r3,r2,r1` with x[2] = 80000001, x[1] = 00000000. -/
theorem test_rotrv_writes_again :
    answer (runWord (vectorState .big [(2, 0x80000001), (1, 0x00000000)]) 0x00221846)
      (fun t => readReg t 3) = some 0x80000001 := by decide

/-- `BREAK` with nothing given. -/
theorem test_break_raises :
    raised (runWord (vectorState .big []) 0x0000000D) = some (.breakpoint, 0x1000) := by decide

/-- `BREAK 0x12345` with nothing given. -/
theorem test_break_raises_again :
    raised (runWord (vectorState .big []) 0x0048D14D) = some (.breakpoint, 0x1000) := by decide

/-- `SYSCALL` with nothing given. -/
theorem test_syscall_raises :
    raised (runWord (vectorState .big []) 0x0000000C) = some (.systemCall, 0x1000) := by decide

/-- `SYSCALL 0xFFFFF` with nothing given. -/
theorem test_syscall_raises_again :
    raised (runWord (vectorState .big []) 0x03FFFFCC) = some (.systemCall, 0x1000) := by decide

/-- `TEQ r1,r2` with x[1] = 00000005, x[2] = 00000005. -/
theorem test_teq_raises :
    raised (runWord (vectorState .big [(1, 0x00000005), (2, 0x00000005)]) 0x00220034) =
      some (.trap, 0x1000) := by decide

/-- `TEQ r1,r2` with x[1] = 00000005, x[2] = 00000006. -/
theorem test_teq_advances :
    answer (runWord (vectorState .big [(1, 0x00000005), (2, 0x00000006)]) 0x00220034)
      (fun t => (readReg t 3, t.pc)) = some (0xAAAAAAAA, 0x00001004) := by decide

/-- `TNE r1,r2` with x[1] = 00000005, x[2] = 00000006. -/
theorem test_tne_raises :
    raised (runWord (vectorState .big [(1, 0x00000005), (2, 0x00000006)]) 0x00220036) =
      some (.trap, 0x1000) := by decide

/-- `TNE r1,r2` with x[1] = 00000005, x[2] = 00000005. -/
theorem test_tne_advances :
    answer (runWord (vectorState .big [(1, 0x00000005), (2, 0x00000005)]) 0x00220036)
      (fun t => (readReg t 3, t.pc)) = some (0xAAAAAAAA, 0x00001004) := by decide

/-- `TGE r1,r2` with x[1] = FFFFFFFF, x[2] = 00000001. -/
theorem test_tge_advances :
    answer (runWord (vectorState .big [(1, 0xFFFFFFFF), (2, 0x00000001)]) 0x00220030)
      (fun t => (readReg t 3, t.pc)) = some (0xAAAAAAAA, 0x00001004) := by decide

/-- `TGE r1,r2` with x[1] = 00000001, x[2] = FFFFFFFF. -/
theorem test_tge_raises :
    raised (runWord (vectorState .big [(1, 0x00000001), (2, 0xFFFFFFFF)]) 0x00220030) =
      some (.trap, 0x1000) := by decide

/-- `TGEU r1,r2` with x[1] = FFFFFFFF, x[2] = 00000001. -/
theorem test_tgeu_raises :
    raised (runWord (vectorState .big [(1, 0xFFFFFFFF), (2, 0x00000001)]) 0x00220031) =
      some (.trap, 0x1000) := by decide

/-- `TGEU r1,r2` with x[1] = 00000001, x[2] = FFFFFFFF. -/
theorem test_tgeu_advances :
    answer (runWord (vectorState .big [(1, 0x00000001), (2, 0xFFFFFFFF)]) 0x00220031)
      (fun t => (readReg t 3, t.pc)) = some (0xAAAAAAAA, 0x00001004) := by decide

/-- `TLT r1,r2` with x[1] = FFFFFFFF, x[2] = 00000001. -/
theorem test_tlt_raises :
    raised (runWord (vectorState .big [(1, 0xFFFFFFFF), (2, 0x00000001)]) 0x00220032) =
      some (.trap, 0x1000) := by decide

/-- `TLT r1,r2` with x[1] = 00000001, x[2] = FFFFFFFF. -/
theorem test_tlt_advances :
    answer (runWord (vectorState .big [(1, 0x00000001), (2, 0xFFFFFFFF)]) 0x00220032)
      (fun t => (readReg t 3, t.pc)) = some (0xAAAAAAAA, 0x00001004) := by decide

/-- `TLTU r1,r2` with x[1] = FFFFFFFF, x[2] = 00000001. -/
theorem test_tltu_advances :
    answer (runWord (vectorState .big [(1, 0xFFFFFFFF), (2, 0x00000001)]) 0x00220033)
      (fun t => (readReg t 3, t.pc)) = some (0xAAAAAAAA, 0x00001004) := by decide

/-- `TLTU r1,r2` with x[1] = 00000001, x[2] = FFFFFFFF. -/
theorem test_tltu_raises :
    raised (runWord (vectorState .big [(1, 0x00000001), (2, 0xFFFFFFFF)]) 0x00220033) =
      some (.trap, 0x1000) := by decide

/-- `TEQI r1,-1` with x[1] = FFFFFFFF. -/
theorem test_teqi_raises :
    raised (runWord (vectorState .big [(1, 0xFFFFFFFF)]) 0x042CFFFF) = some (.trap, 0x1000) := by decide

/-- `TEQI r1,-1` with x[1] = 0000FFFF. -/
theorem test_teqi_advances :
    answer (runWord (vectorState .big [(1, 0x0000FFFF)]) 0x042CFFFF)
      (fun t => (t.pc, t.npc)) = some (0x00001004, 0x00001008) := by decide

/-- `TGEI r1,-1` with x[1] = FFFFFFFE. -/
theorem test_tgei_advances :
    answer (runWord (vectorState .big [(1, 0xFFFFFFFE)]) 0x0428FFFF)
      (fun t => (t.pc, t.npc)) = some (0x00001004, 0x00001008) := by decide

/-- `TGEI r1,-1` with x[1] = 00000000. -/
theorem test_tgei_raises :
    raised (runWord (vectorState .big [(1, 0x00000000)]) 0x0428FFFF) = some (.trap, 0x1000) := by decide

/-- `TGEIU r1,-1` with x[1] = FFFFFFFE. -/
theorem test_tgeiu_advances :
    answer (runWord (vectorState .big [(1, 0xFFFFFFFE)]) 0x0429FFFF)
      (fun t => (t.pc, t.npc)) = some (0x00001004, 0x00001008) := by decide

/-- `TGEIU r1,-1` with x[1] = FFFFFFFF. -/
theorem test_tgeiu_raises :
    raised (runWord (vectorState .big [(1, 0xFFFFFFFF)]) 0x0429FFFF) = some (.trap, 0x1000) := by decide

/-- `TLTI r1,-1` with x[1] = FFFFFFFE. -/
theorem test_tlti_raises :
    raised (runWord (vectorState .big [(1, 0xFFFFFFFE)]) 0x042AFFFF) = some (.trap, 0x1000) := by decide

/-- `TLTI r1,-1` with x[1] = 00000000. -/
theorem test_tlti_advances :
    answer (runWord (vectorState .big [(1, 0x00000000)]) 0x042AFFFF)
      (fun t => (t.pc, t.npc)) = some (0x00001004, 0x00001008) := by decide

/-- `TLTIU r1,-1` with x[1] = 00000005. -/
theorem test_tltiu_raises :
    raised (runWord (vectorState .big [(1, 0x00000005)]) 0x042BFFFF) = some (.trap, 0x1000) := by decide

/-- `TLTIU r1,-1` with x[1] = FFFFFFFF. -/
theorem test_tltiu_advances :
    answer (runWord (vectorState .big [(1, 0xFFFFFFFF)]) 0x042BFFFF)
      (fun t => (t.pc, t.npc)) = some (0x00001004, 0x00001008) := by decide
/-! ## Steps that are no instruction's own, from 95_test_vectors.md part 4 -/

/-- P4: the exception is in a delay slot, and epc is the branch. -/
theorem test_exception_in_delay_slot :
    raised (runWord { vectorState .big [(1, 0x7FFFFFFF)] with pc := 0x100C, npc := 0x1014, ds := true } 0x20220001) =
      some (.integerOverflow, 0x1008) := by decide

/-- P6(a): a branch in a delay slot. -/
theorem test_branch_in_delay_slot_faults :
    stepKind (runWord { vectorState .big [] with pc := 0x1004, npc := 0x1010, ds := true } 0x10000001) = .fault := by
  decide

/-- P8: the fetch at a misaligned pc. -/
theorem test_misaligned_fetch_raises :
    raised (step { vectorState .big [] with pc := 0x2002, npc := 0x2006 }) = some (.addressErrorFetch, 0x2002) := by
  decide

/-- P7: the fetch of a word that a store has written. -/
theorem test_stale_fetch_faults :
    step { vectorState .big [] with pc := 0x1010, npc := 0x1014, stale := [0x1010] } = .fault (.staleFetch 0x1010) := rfl

/-- With no delay slots a taken branch goes to its target at once, and the link is pc + 4 (41_branch_jump.md R184). -/
theorem test_no_delay_slots :
    answer (runWord { vectorState .big [] with params := { vectorParams .big with delaySlots := false } } 0x04110003)
      (fun t => (readReg t 31, t.pc)) = some (0x1004, 0x1010) := by decide

/-- From reset, with nothing placed, the memory at the reset vector reads as NOP; and a placed word runs. -/
theorem test_reset_runs :
    answer (step State.reset) (fun t => t.pc) = some 0xBFC00004 ∧
    answer (runWord State.reset 0x24018000) (fun t => readReg t 1) = some 0xFFFF8000 := by decide

/-! ## For every statement with hypotheses, states and operands that meet them, at the boundary of each clause -/

/-- A state whose one data word is at 2000, a register 1 that points to it, and a word placed at pc. -/
def wordState (w : Nat) : State := (vectorState .big [(1, 0x2000)]).withFetchWord 32 w

/-- A branch's delay slot. -/
def slotState : State := { vectorState .big [] with pc := 0x1004, npc := 0x1010, ds := true }

/-- The invariant, of a state with memory, a reservation and no delay slot. -/
theorem wordState_inv : Inv { wordState 0x00221821 with llbit := true, lladdr := 0x2000 } :=
  ⟨by decide, by decide, by decide, fun _ _ => by decide, fun _ => by decide, nofun⟩

theorem witness_DecodeOfEncode :
    [Instr.sll 0 0 2, .beq 0 1 0xFFFF, .bgezal 1 0x8000, .sync 31, .j 0x3FFFFFF, .breakpoint 0xFFFFF].map
      Instr.wellFormed = [true, true, true, true, true, true] := by decide

theorem witness_EncodeOfDecode :
    decode 0xFFFFFFFF#32 = .ok (.sd 31 0xFFFF 31) ∧ decode 0x00000000#32 = .ok .nop := by decide

theorem witness_DecodesExactlyTheTable : decode 0x003D1801#32 = .ok (.movt 3 1 7) := by decide

theorem witness_TableRowsDisjoint :
    tableRow (.add 0 0 0) ∈ opcodeTable ∧ tableRow .nop ∈ opcodeTable ∧ tableRow (.add 0 0 0) ≠ tableRow .nop ∧
    (tableRow (.add 0 0 0)).aliasOf ≠ some (tableRow .nop).mnemonic ∧
    (tableRow .nop).aliasOf ≠ some (tableRow (.add 0 0 0)).mnemonic := by decide

theorem witness_StepRunsDecodedInstruction :
    ∃ s : State, s.outcome = none ∧ s.pc.toNat % 4 = 0 ∧ admitsAll s .exec s.pc 4 = true ∧
      (wordAddr s.pc).toNat ∉ s.stale ∧
      decode (joinWord s.params.endian (memByte s s.pc) (memByte s (s.pc + 1#32)) (memByte s (s.pc + 2#32))
        (memByte s (s.pc + 3#32))) = .ok (.addu 3 1 2) ∧ (Instr.addu 3 1 2).wellFormed = true :=
  ⟨wordState 0x00221821, by decide⟩

theorem witness_StepStopsInOrder_ended :
    ∃ s : State, s.outcome.isSome = true :=
  ⟨{ State.reset with outcome := some ⟨.trap, none, 0, false, none⟩ }, by decide⟩

theorem witness_StepStopsInOrder_misaligned :
    ∃ s : State, s.outcome = none ∧ s.pc.toNat % 4 ≠ 0 := ⟨{ State.reset with pc := 0xFFFFFFFF }, by decide⟩

theorem witness_StepStopsInOrder_notAdmitted :
    ∃ s : State, s.outcome = none ∧ s.pc.toNat % 4 = 0 ∧ admitsAll s .exec s.pc 4 = false :=
  ⟨{ vectorState .big [] with pc := 0x2000 }, by decide⟩

theorem witness_StepStopsInOrder_stale :
    ∃ s : State, s.outcome = none ∧ s.pc.toNat % 4 = 0 ∧ admitsAll s .exec s.pc 4 = true ∧
      (wordAddr s.pc).toNat ∈ s.stale := ⟨{ vectorState .big [] with stale := [0x1000] }, by decide⟩

theorem witness_StepStopsInOrder_unlisted :
    ∃ s : State, s.outcome = none ∧ s.pc.toNat % 4 = 0 ∧ admitsAll s .exec s.pc 4 = true ∧
      (wordAddr s.pc).toNat ∉ s.stale ∧ decode (memWord s s.pc) = .error .unlistedSpecial :=
  ⟨wordState 0x00001010, by decide⟩

theorem witness_PlacedWordRunsNext :
    ∃ s : State, Memory.wf s.mem = true ∧ s.outcome = none ∧ s.pc.toNat % 4 = 0 ∧ admitsAll s .exec s.pc 4 = true ∧
      s.stale = [0x1000, 0x2000] ∧ decode (BitVec.ofNat 32 0x00221820) = .ok (.add 3 1 2) :=
  ⟨{ vectorState .big [] with stale := [0x1000, 0x2000] }, by decide⟩

theorem witness_StepKeepsInv : ∃ s t : State, Inv s ∧ step s = .next t := ⟨_, _, wordState_inv, rfl⟩

theorem witness_ParametersAndConditionCodesNeverChange : ∃ s t : State, step s = .next t := ⟨State.reset, _, rfl⟩

/-- A step that stores: SB to 2001. -/
theorem witness_WrittenWordsStayStale :
    ∃ s t : State, step s = .next t ∧ memByte t 0x2001 ≠ memByte s 0x2001 ∧ 0x2004 ∈ s.stale :=
  ⟨{ wordState 0xA0220001 with stale := [0x2004] }, _, rfl, by decide, by decide⟩

/-- And a state whose pc is in a stale word and from which a step still has a next state: pc is misaligned. -/
theorem witness_WrittenWordsStayStale_ahead :
    ∃ s t u : State, step s = .next t ∧ (wordAddr t.pc).toNat ∈ t.stale ∧ step t = .next u :=
  ⟨{ wordState 0x00000000 with npc := 0x1006, stale := [0x1004] }, _, _, rfl, by decide, rfl⟩

theorem witness_HiLoNeverLeak_next : ∃ s t : State, step s = .next t := ⟨wordState 0x70220000, _, rfl⟩

theorem witness_HiLoNeverLeak_fault : ∃ (s : State) (f : Fault), step s = .fault f := ⟨slotState.withFetchWord 32 0x10000001, _, rfl⟩

theorem witness_HiLoNeverLeak_refused : ∃ (s : State) (r : Refusal), step s = .refused r :=
  ⟨wordState 0xFC220000, _, rfl⟩

theorem witness_ExceptionsArePrecise :
    ∃ (s t : State) (o : Trapped), s.outcome = none ∧ step s = .next t ∧ t.outcome = some o ∧ o.bd = true :=
  ⟨slotState.withFetchWord 32 0x0000000C, _, _, by decide, rfl, rfl, by decide⟩

theorem witness_CauseIsTheInstructions :
    ∃ (s t : State) (o : Trapped), s.outcome = none ∧ exec (.lw 2 1 1) s = .next t ∧ t.outcome = some o ∧
      o.cause = .addressErrorLoad := ⟨vectorState .big [(1, 0x2000)], _, _, by decide, rfl, rfl, by decide⟩

theorem witness_OnlyDestinationChanges :
    ∃ (s t : State), exec (.addu 3 1 2) s = .next t ∧ destReg (.addu 3 1 2) ≠ some 4#5 :=
  ⟨vectorState .big [], _, rfl, by decide⟩

theorem witness_OnlyTheListedInstructionsWrite :
    ∃ (s t : State), exec (.addu 3 1 2) s = .next t ∧ isStore (.addu 3 1 2) = false ∧
      writesHiLo (.addu 3 1 2) = false ∧ writesReservation (.addu 3 1 2) = false :=
  ⟨vectorState .big [], _, rfl, by decide⟩

theorem witness_SequentialAdvance :
    ∃ (s t : State), isTransfer (.addu 3 1 2) = false ∧ exec (.addu 3 1 2) s = .next t ∧ t.outcome = none :=
  ⟨slotState, _, by decide, rfl, by decide⟩

theorem witness_DelaySlotThenTarget :
    ∃ s t u : State, s.params.delaySlots = true ∧ s.npc = s.pc + 4#32 ∧ TransfersTo s t none True 0x1014#32 ∧
      exec (.addu 3 1 2) t = .next u ∧ u.outcome = none :=
  ⟨vectorState .big [], _, _, by decide, by decide, transfer_spec _ true True _ (by simp), rfl, by decide⟩

/-- Register 1 holds the largest value and register 2 the smallest: sums and differences at both ends of the range. -/
theorem witness_AddAddiSub :
    ∃ s : State, (readReg s 1).toInt + (readReg s 0).toInt = 2 ^ 31 - 1 ∧
      (readReg s 2).toInt + (readReg s 0).toInt = -2 ^ 31 ∧ (readReg s 1).toInt + (readReg s 3).toInt = 2 ^ 31 ∧
      (readReg s 2).toInt + (0xFFFF#16 : Half).toInt = -2 ^ 31 - 1 ∧
      (readReg s 2).toInt - (readReg s 3).toInt = -2 ^ 31 - 1 :=
  ⟨vectorState .big [(1, 0x7FFFFFFF), (2, 0x80000000), (3, 1)], by decide⟩

theorem witness_Divide :
    ∃ s : State, readReg s 1 = 0x80000000#32 ∧ readReg s 2 ≠ 0#32 ∧ readReg s 0 = 0#32 :=
  ⟨vectorState .big [(1, 0x80000000), (2, 0xFFFFFFFF)], by decide⟩

theorem witness_SignedDivisionTable :
    ∃ s : State, readReg s 1 = BitVec.ofInt 32 (-2147483648) ∧ readReg s 2 = BitVec.ofInt 32 (-1) ∧
      readReg s 3 = BitVec.ofInt 32 7 ∧ readReg s 4 = BitVec.ofInt 32 2 ∧ readReg s 5 = BitVec.ofInt 32 (-7) ∧
      readReg s 6 = BitVec.ofInt 32 (-2) ∧ readReg s 7 = BitVec.ofInt 32 3 ∧ readReg s 0 = 0#32 :=
  ⟨vectorState .big [(1, 0x80000000), (2, 0xFFFFFFFF), (3, 7), (4, 2), (5, 0xFFFFFFF9), (6, 0xFFFFFFFE), (7, 3)],
    by decide⟩

theorem witness_MultiplyAccumulate :
    ∃ (s : State) (acc x : Int), acc = s.hi.toNat * 2 ^ 32 + s.lo.toNat ∧
      x = acc + (readReg s 1).toInt * (readReg s 2).toInt :=
  ⟨vectorState .big [(1, 0x80000000), (2, 0xFFFFFFFF)], _, _, rfl, rfl⟩

theorem witness_MultiplyToHiLo :
    ∃ (s : State) (x y : Int), x = (readReg s 1).toInt * (readReg s 2).toInt ∧
      y = (readReg s 1).toNat * (readReg s 2).toNat := ⟨vectorState .big [(1, 0x80000000)], _, _, rfl, rfl⟩

theorem witness_MulToRegister :
    ∃ (s : State) (x : Int), x = (readReg s 1).toInt * (readReg s 2).toInt ∧ s.params.mulHilo = .product :=
  ⟨vectorState .big [], _, rfl, by decide⟩

theorem witness_MulToRegister_unpredictable : ∃ s : State, s.params.mulHilo = .unpredictable :=
  ⟨{ vectorState .big [] with params := { vectorParams .big with mulHilo := .unpredictable } }, by decide⟩

theorem witness_ConditionalBranches : ∃ s : State, ¬(s.params.delaySlots = true ∧ s.ds = true) :=
  ⟨vectorState .big [], by decide⟩

theorem witness_LinkingBranches :
    ∃ s : State, ¬(s.params.delaySlots = true ∧ s.ds = true) ∧ (30#5 : Reg) ≠ 31#5 :=
  ⟨{ slotState with params := { slotState.params with delaySlots := false } }, by decide⟩

theorem witness_BranchTarget : ∃ s : State, s.pc.toNat % 4 = 0 := ⟨{ vectorState .big [] with pc := 0xFFFFFFFC }, by decide⟩

theorem witness_JumpsAndTheirTarget : ∃ s : State, ¬(s.params.delaySlots = true ∧ s.ds = true) :=
  ⟨{ vectorState .big [] with pc := 0xAFFFFFFC }, by decide⟩

theorem witness_JumpRegister :
    ∃ s : State, ¬(s.params.delaySlots = true ∧ s.ds = true) ∧ (0#5 : Reg) ≠ 1#5 := ⟨vectorState .big [], by decide⟩

theorem witness_LinkValue :
    ∃ (s t : State), linkReg (.jalr 0 1) = some 0#5 ∧ exec (.jalr 0 1) s = .next t :=
  ⟨vectorState .big [], _, by decide, rfl⟩

theorem witness_LinkValue_not_taken :
    ∃ (s t : State), linkReg (.bltzal 0 5) = some 31#5 ∧ exec (.bltzal 0 5) s = .next t :=
  ⟨vectorState .big [], _, by decide, rfl⟩

theorem witness_TransferInDelaySlotFaults_inSlot :
    ∃ s : State, isTransfer (.jr 1) = true ∧ s.params.delaySlots = true ∧ s.ds = true := ⟨slotState, by decide⟩

theorem witness_TransferInDelaySlotFaults_setsDs :
    ∃ s t : State, isTransfer (.bne 1 1 0) = true ∧ s.params.delaySlots = true ∧ exec (.bne 1 1 0) s = .next t :=
  ⟨vectorState .big [], _, by decide, by decide, rfl⟩

theorem witness_TransferInDelaySlotFaults_noSlots :
    ∃ s : State, isTransfer (.jr 1) = true ∧ s.params.delaySlots = false ∧ s.ds = true :=
  ⟨{ slotState with params := { slotState.params with delaySlots := false } }, by decide⟩

/-- Fields just outside their range, registers that differ and that agree, a state outside a delay slot. -/
theorem witness_ConstraintViolationsFault :
    (3#5 : Reg) ≠ 2#5 ∧ 31 < (1#5 : BitVec 5).toNat + (31#5 : BitVec 5).toNat ∧
    (3#5 : BitVec 5).toNat < (4#5 : BitVec 5).toNat ∧
    ¬((vectorState .big []).params.delaySlots = true ∧ (vectorState .big []).ds = true) ∧
    (Instr.ext 1 2 31 0).constraintsHold = true ∧ (Instr.bgezal 30 0).constraintsHold = true := by decide

/-- The last byte that `MEMMAP` lists, and the first it does not. -/
theorem witness_NoEffectInstructions :
    ∃ s : State, present s (effectiveAddr s 7 1) = true ∧ present s (effectiveAddr s 8 1) = false :=
  ⟨vectorState .big [(1, 0x2000)], by decide⟩

theorem witness_SubwordLoads :
    ∃ s : State, ∃ ea ea' : Word, ea = BitVec.ofInt 32 ((readReg s 1).toNat + (0xFFFF#16 : Half).toInt) ∧
      admitsAll s .read ea 1 = true ∧ ea' = BitVec.ofInt 32 ((readReg s 1).toNat + (0xFFFE#16 : Half).toInt) ∧
      ea'.toNat % 2 = 0 ∧ admitsAll s .read ea' 2 = true := ⟨vectorState .big [(1, 0x2008)], _, _, rfl, by decide, rfl, by decide⟩

theorem witness_WordLoads :
    ∃ s : State, ∃ ea v : Word, ea = effectiveAddr s 4 1 ∧ ea.toNat % 4 = 0 ∧ admitsAll s .read ea 4 = true ∧
      v = joinWord s.params.endian (memByte s ea) (memByte s (ea + 1#32)) (memByte s (ea + 2#32)) (memByte s (ea + 3#32)) :=
  ⟨vectorState .big [(1, 0x2000)], _, _, rfl, by decide, by decide, rfl⟩

theorem witness_LoadLeftAndRight :
    ∃ s : State, ∃ ea : Word, ea = effectiveAddr s 7 1 ∧ admitsAll s .read (wordAddr ea) 4 = true :=
  ⟨vectorState .little [(1, 0x2000)], _, rfl, by decide⟩

theorem witness_UnalignedPair :
    ∃ s : State, ∃ a : Word, a = readReg s 1 ∧ (2#5 : Reg) ≠ 0#5 ∧ (2#5 : Reg) ≠ 1#5 ∧ Memory.wf s.mem = true ∧
      admitsAll s .read (wordAddr a) 4 = true ∧ admitsAll s .read (wordAddr (a + 3#32)) 4 = true ∧
      admitsAll s .write (wordAddr a) 4 = true ∧ admitsAll s .write (wordAddr (a + 3#32)) 4 = true :=
  ⟨vectorState .little [(1, 0x2003)], _, rfl, by decide⟩

theorem witness_AlignedStores :
    ∃ s : State, ∃ ea v : Word, Memory.wf s.mem = true ∧ ea = effectiveAddr s 4 1 ∧ v = readReg s 2 ∧
      ea.toNat % 4 = 0 ∧ ea.toNat % 2 = 0 ∧ admitsAll s .write ea 4 = true ∧ admitsAll s .write ea 2 = true ∧
      admitsAll s .write ea 1 = true := ⟨vectorState .big [(1, 0x2000)], _, _, by decide, rfl, rfl, by decide⟩

theorem witness_StoreLeftAndRight :
    ∃ s : State, ∃ ea a v w : Word, ∃ k : Nat, Memory.wf s.mem = true ∧ ea = effectiveAddr s 7 1 ∧ a = wordAddr ea ∧
      k = ea.toNat % 4 ∧ v = readReg s 2 ∧ w = memWord s a ∧ admitsAll s .write a 4 = true :=
  ⟨vectorState .big [(1, 0x2000)], _, _, _, _, _, by decide, rfl, rfl, rfl, rfl, rfl, by decide⟩

theorem witness_StoreConditional_elsewhere :
    ∃ s : State, ∃ ea : Word, Memory.wf s.mem = true ∧ ea = effectiveAddr s 4 1 ∧ ea.toNat % 4 = 0 ∧ s.llbit = true ∧
      ea ≠ s.lladdr :=
  ⟨{ vectorState .big [(1, 0x2000)] with llbit := true, lladdr := 0x2000 }, _, by decide, rfl, by decide⟩

theorem witness_StoreConditional_none :
    ∃ s : State, ∃ ea : Word, Memory.wf s.mem = true ∧ ea = effectiveAddr s 4 1 ∧ ea.toNat % 4 = 0 ∧ s.llbit = false ∧
      admitsAll s .write ea 4 = true := ⟨vectorState .big [(1, 0x2000)], _, by decide, rfl, by decide⟩

theorem witness_StoreConditional_held :
    ∃ s : State, ∃ ea : Word, Memory.wf s.mem = true ∧ ea = effectiveAddr s 4 1 ∧ ea.toNat % 4 = 0 ∧ s.llbit = true ∧
      ea = s.lladdr ∧ admitsAll s .write ea 4 = true ∧ s.params.scDraw = true :=
  ⟨{ vectorState .big [(1, 0x2000)] with llbit := true, lladdr := 0x2004 }, _, by decide, rfl, by decide⟩

theorem witness_StoreConditional_certain :
    ∃ s : State, ∃ ea : Word, Memory.wf s.mem = true ∧ ea = effectiveAddr s 4 1 ∧ ea.toNat % 4 = 0 ∧ s.llbit = true ∧
      ea = s.lladdr ∧ admitsAll s .write ea 4 = true ∧ s.params.scDraw = false :=
  ⟨{ vectorState .big [(1, 0x2000)] with
      llbit := true, lladdr := 0x2004, params := { vectorParams .big with scDraw := false } }, _, by decide, rfl, by decide⟩

/-- An address that is even and no multiple of 4, and one that is odd. -/
theorem witness_MisalignedAccessRaises :
    ∃ s : State, ∃ ea ea' : Word, ea = effectiveAddr s 2 1 ∧ ea.toNat % 4 ≠ 0 ∧ ea.toNat % 2 = 0 ∧
      ea' = effectiveAddr s 3 1 ∧ ea'.toNat % 2 ≠ 0 := ⟨vectorState .big [(1, 0x2000)], _, _, rfl, by decide, by decide, rfl, by decide⟩

/-- The first address past the data, which no access may touch. -/
theorem witness_InadmissibleAccessIsStuck :
    ∃ s : State, ∃ ea : Word, ea = effectiveAddr s 8 1 ∧ ea.toNat % 4 = 0 ∧ ea.toNat % 2 = 0 ∧ wordAddr ea = ea ∧
      admitsAll s .read ea 1 = false ∧ admitsAll s .read ea 2 = false ∧ admitsAll s .read ea 4 = false ∧
      admitsAll s .write ea 1 = false ∧ admitsAll s .write ea 2 = false ∧ admitsAll s .write ea 4 = false ∧
      (s.llbit = true → ea = s.lladdr) :=
  ⟨{ vectorState .big [(1, 0x2000)] with llbit := true, lladdr := 0x2008 }, _, rfl, by decide⟩

theorem witness_ByteOrder : ∃ s t : State, Memory.wf s.mem = true ∧ 1 < 2 ∧ 3 < 4 ∧ step s = .next t :=
  ⟨wordState 0x00221821, _, by decide, by decide, by decide, rfl⟩

theorem witness_MixedWidthReads :
    ∃ s t : State, ∃ a : Word, Memory.wf s.mem = true ∧ a.toNat % 4 = 0 ∧
      t = storeBytes s a (splitWord s.params.endian 0x11223344#32) ∧ 3 < 4 :=
  ⟨vectorState .little [], _, 0xFFFFFFFC#32, by decide, by decide, rfl, by decide⟩

theorem witness_LogicalBitByBit :
    ∃ (s : State) (a b : Word), a = readReg s 1 ∧ b = readReg s 2 := ⟨vectorState .big [], _, _, rfl, rfl⟩

theorem witness_BitFields :
    (0#5 : BitVec 5).toNat + (31#5 : BitVec 5).toNat ≤ 31 ∧ (31#5 : BitVec 5).toNat ≤ (31#5 : BitVec 5).toNat := by decide

theorem witness_ConditionalMoves :
    ∃ s : State, readReg s 1 ≠ 0#32 ∧ readReg s 0 = 0#32 ∧ s.params.hasCc = true ∧ s.cc.getLsbD 7 = true ∧
      s.cc.getLsbD 0 = false := ⟨{ vectorState .big [] with cc := 0x80 }, by decide⟩

theorem witness_ConditionalMoves_noCc : ∃ s : State, s.params.hasCc = false :=
  ⟨{ vectorState .big [] with params := { vectorParams .big with hasCc := false } }, by decide⟩

theorem witness_ReadHardwareRegister :
    ∃ s : State, s.params.hwrena.getLsbD 29 = true ∧ s.params.hwr[29] = some 0xCAFE0000#32 ∧
      s.params.hwrena.getLsbD 0 = true ∧ s.params.hwr[0] = none ∧ s.params.hwrena.getLsbD 31 = false :=
  ⟨{ vectorState .big [] with params := { vectorParams .big with
      hwrena := 0x20000001, hwr := (Vector.replicate 32 none).set 29 (some 0xCAFE0000) } }, by decide⟩

theorem witness_ShiftsAndRotates :
    ∃ (s : State) (x : Word) (n : Nat), x = readReg s 2 ∧ n = (readReg s 1).toNat % 32 ∧ n = 31 :=
  ⟨vectorState .big [(1, 0xFFFFFFFF)], _, _, rfl, rfl, by decide⟩

/-- Equal operands, where the conditions of the comparisons change. -/
theorem witness_TrapsRaiseOnTheirCondition :
    ∃ (s : State) (a b : Word) (i : Int), a = readReg s 1 ∧ b = readReg s 2 ∧ i = (0xFFFF#16 : Half).toInt ∧ a = b ∧
      a.toInt ≥ b.toInt ∧ ¬a.toInt < b.toInt ∧ a.toInt = i ∧ (a.toNat : Int) ≥ i % 2 ^ 32 :=
  ⟨vectorState .big [(1, 0xFFFFFFFF), (2, 0xFFFFFFFF)], _, _, _, rfl, rfl, rfl, by decide⟩

end Sys2Proof.Tests
end

/-! # The architectural state (10_state.md): what the spec says of register 0 -/

section
namespace Sys2Proof.Machine

/-- Settles O20: a conjunction of the register file's two laws about register 0, the read law and the write law (R31). -/
theorem registerZero : Obligations.RegisterZero :=
  fun s v => ⟨readReg_zero s, writeReg_zero s v⟩

end Sys2Proof.Machine
end

/-! # Byte order (20_memory.md R61) -/

section
namespace Sys2Proof

/-! ## The bytes of a joined and of a split value, for both orders -/

/-- The bytes of two in a row, counted from the right. -/
theorem append_two_byte (b : Nat → Byte) (k : Nat) (hk : k < 2) : (b 1 ++ b 0).extractLsb' (8 * k) 8 = b k :=
  match k, hk with
  | 0, _ => slice_right _ _
  | 1, _ => (slice_left _ _ 8 8 (by decide)).trans BitVec.extractLsb'_eq_self

/-- The bytes of four in a row, counted from the right. -/
theorem append_four_byte (b : Nat → Byte) (k : Nat) (hk : k < 4) :
    (b 3 ++ b 2 ++ b 1 ++ b 0).extractLsb' (8 * k) 8 = b k :=
  match k, hk with
  | 0, _ => slice_right _ _
  | 1, _ => (slice_left _ _ 8 8 (by decide)).trans (slice_right _ _)
  | 2, _ => (slice_left _ _ 16 8 (by decide)).trans ((slice_left _ _ 8 8 (by decide)).trans (slice_right _ _))
  | 3, _ => (slice_left _ _ 24 8 (by decide)).trans
      ((slice_left _ _ 16 8 (by decide)).trans ((slice_left _ _ 8 8 (by decide)).trans BitVec.extractLsb'_eq_self))

/-- Byte `k` of a joined halfword stands where the order puts it: big is little with the addresses reversed (R61,
MemRead). -/
theorem joinHalf_byte (e : Endian) (b : Nat → Byte) (k : Nat) (hk : k < 2) :
    (joinHalf e (b 0) (b 1)).extractLsb' (8 * (if e = .big then 1 - k else k)) 8 = b k := by
  cases e with
  | little => exact append_two_byte b k hk
  | big =>
    have reversed := append_two_byte (fun j => b (1 - j)) (1 - k) (by omega)
    rwa [Nat.sub_sub_self (Nat.le_of_lt_succ hk)] at reversed

/-- Byte `k` of a joined word stands where the order puts it (R61, MemRead). -/
theorem joinWord_byte (e : Endian) (b : Nat → Byte) (k : Nat) (hk : k < 4) :
    (joinWord e (b 0) (b 1) (b 2) (b 3)).extractLsb' (8 * (if e = .big then 3 - k else k)) 8 = b k := by
  cases e with
  | little => exact append_four_byte b k hk
  | big =>
    have reversed := append_four_byte (fun j => b (3 - j)) (3 - k) (by omega)
    rwa [Nat.sub_sub_self (Nat.le_of_lt_succ hk)] at reversed

@[simp] theorem splitHalf_length (e : Endian) (v : Half) : (splitHalf e v).length = 2 := by cases e <;> rfl

@[simp] theorem splitWord_length (e : Endian) (v : Word) : (splitWord e v).length = 4 := by cases e <;> rfl

/-- Byte `k` of a split halfword is taken from where the order puts it, read off the list place by place (R61,
MemWrite). -/
theorem splitHalf_byte (e : Endian) (v : Half) (k : Nat) (hk : k < 2) :
    (splitHalf e v)[k]? = some (v.extractLsb' (8 * (if e = .big then 1 - k else k)) 8) := by
  cases e <;> interval_cases k <;> rfl

/-- Byte `k` of a split word is taken from where the order puts it (R61, MemWrite). -/
theorem splitWord_byte (e : Endian) (v : Word) (k : Nat) (hk : k < 4) :
    (splitWord e v)[k]? = some (v.extractLsb' (8 * (if e = .big then 3 - k else k)) 8) := by
  cases e <;> interval_cases k <;> rfl

end Sys2Proof

namespace Sys2Proof.Machine

/-! ## Reads and writes of memory -/

/-- The bytes of a halfword read, each by its address (R61, MemRead). -/
theorem memHalf_byte (s : State) (a : Word) (k : Nat) (hk : k < 2) :
    (memHalf s a).extractLsb' (8 * (if s.params.endian = .big then 1 - k else k)) 8 =
      memByte s (a + BitVec.ofNat 32 k) := by
  simpa [memHalf] using joinHalf_byte s.params.endian (fun j => memByte s (a + BitVec.ofNat 32 j)) k hk

/-- The bytes of a word read, each by its address (R61, MemRead). -/
theorem memWord_byte (s : State) (a : Word) (k : Nat) (hk : k < 4) :
    (memWord s a).extractLsb' (8 * (if s.params.endian = .big then 3 - k else k)) 8 =
      memByte s (a + BitVec.ofNat 32 k) := by
  simpa [memWord] using joinWord_byte s.params.endian (fun j => memByte s (a + BitVec.ofNat 32 j)) k hk

/-- A stored byte reads back. -/
theorem memByte_storeByte_same (s : State) (a : Word) (b : Byte) (hm : Memory.wf s.mem = true) :
    memByte (storeByte s a b) a = b :=
  readByte_writeByte_same a.toNat b s.mem hm

/-- The bytes of a halfword store, each by its address (R61, MemWrite). -/
theorem memByte_storeHalf (s : State) (a : Word) (e : Endian) (h : Half) (k : Nat) (hm : Memory.wf s.mem = true)
    (hk : k < 2) :
    memByte (storeBytes s a (splitHalf e h)) (a + BitVec.ofNat 32 k) =
      h.extractLsb' (8 * (if e = .big then 1 - k else k)) 8 := by
  have hread := memByte_storeBytes_same s a (splitHalf e h) hm (by simp) k (by simpa using hk)
  exact Option.some.inj (hread.symm.trans (splitHalf_byte e h k hk))

/-- The bytes of a word store, each by its address (R61, MemWrite). -/
theorem memByte_storeWord (s : State) (a : Word) (e : Endian) (w : Word) (k : Nat) (hm : Memory.wf s.mem = true)
    (hk : k < 4) :
    memByte (storeBytes s a (splitWord e w)) (a + BitVec.ofNat 32 k) =
      w.extractLsb' (8 * (if e = .big then 3 - k else k)) 8 := by
  have hread := memByte_storeBytes_same s a (splitWord e w) hm (by simp) k (by simpa using hk)
  exact Option.some.inj (hread.symm.trans (splitWord_byte e w k hk))

/-! ## No step switches a parameter -/

/-- Whatever an instruction has done, the parameters are as before (R5). -/
theorem Effect.params_eq {i : Instr} {s t : State} (h : Effect i s t) : t.params = s.params := by
  cases h with
  | raised c w b may why addr eq => rw [eq]
  | advanced u seq changes eq => rw [eq, advance_params, changes.params]
  | transferred u c target tr slot link changes eq => rw [eq, transfer_params, changes.params]

/-- A step keeps the parameters: it raises at the fetch, or runs an instruction (R5, R42). -/
theorem step_params {s t : State} (h : step s = .next t) : t.params = s.params := by
  obtain ⟨-, ⟨-, raised⟩ | ⟨-, -, i, -, run⟩⟩ := step_next h
  · rw [raised]
  · exact (exec_effect i s t run).params_eq

/-- Settles O51: a read joins and a write splits at the same places, and no step changes the parameters (R61). -/
theorem byteOrder : Obligations.ByteOrder := by
  refine ⟨fun s a k => ⟨memHalf_byte s a k, memWord_byte s a k⟩, fun s a b h w k hm => ⟨?_, ?_, ?_⟩, fun s t hstep => ?_⟩
  · exact memByte_storeByte_same s a b hm
  · exact memByte_storeHalf s a s.params.endian h k hm
  · exact memByte_storeWord s a s.params.endian w k hm
  · rw [step_params hstep]

end Sys2Proof.Machine
end

/-! # The constraints on fields (30_encoding.md R115): why an instruction can fault -/

section
namespace Sys2Proof.Machine

/-- What an instruction that faults has met (R181, R115, R66, R231, R238). -/
inductive FaultReason (i : Instr) (s : State) : Fault → Prop where
  | inSlot (tr : isTransfer i = true) (slot : inDelaySlot s = true) : FaultReason i s .branchInDelaySlot
  | link (broken : i.constraintsHold = false) : FaultReason i s .linkRegisterIsSource
  | count (broken : i.constraintsHold = false) : FaultReason i s .countRegistersDiffer
  | field (broken : i.constraintsHold = false) : FaultReason i s .bitFieldOutOfRange
  | load (ea : Word) (n : Nat) (denied : admitsAll s .read ea n = false) : FaultReason i s (.loadNotAdmitted ea)
  | store (ea : Word) (n : Nat) (denied : admitsAll s .write ea n = false) : FaultReason i s (.storeNotAdmitted ea)
  | synci (ea : Word) (absent : present s ea = false) : FaultReason i s (.synciNotAdmitted ea)
  | reservation (held : s.llbit = true) : FaultReason i s .scAddressMismatch

/-! ## What each shared operation can fault with -/

/-- A result that has a next state is no fault. -/
theorem ne_fault_of_next {r : Result} {P : State → Prop} {f : Fault} (hr : ∃ t, r = .next t ∧ P t) : r ≠ .fault f := by
  rintro rfl
  obtain ⟨t, ht, -⟩ := hr
  cases ht

theorem countLeading_fault {s : State} {b : Bool} {rd rs rt : Reg} {f : Fault}
    (h : countLeading s b rd rs rt = .fault f) : rt ≠ rd ∧ f = .countRegistersDiffer := by
  unfold countLeading at h
  split at h
  · next differ => cases h; exact ⟨differ, rfl⟩
  · cases h

/-- A load whose access completes faults only where `MEMMAP` stops it (R66). -/
theorem checkedLoad_next_fault {i : Instr} {s t : State} {ea : Word} {n : Nat} {f : Fault}
    (h : checkedLoad s ea n (.next t) = .fault f) : FaultReason i s f := by
  unfold checkedLoad at h
  split at h
  · cases h
  · split at h
    · cases h
    · next denied => cases h; exact .load ea n (eq_false_of_ne_true denied)

/-- A store whose access completes faults only where `MEMMAP` stops it (R66). -/
theorem checkedStore_next_fault {i : Instr} {s t : State} {ea : Word} {n : Nat} {f : Fault}
    (h : checkedStore s ea n (.next t) = .fault f) : FaultReason i s f := by
  unfold checkedStore at h
  split at h
  · cases h
  · split at h
    · cases h
    · next denied => cases h; exact .store ea n (eq_false_of_ne_true denied)

/-- A branch or jump faults in a delay slot, or as its own rule does (R181). -/
theorem controlTransfer_rule_fault {i : Instr} {s : State} {k : Result} {f : Fault} (tr : isTransfer i = true)
    (h : controlTransfer s k = .fault f) (hk : k = .fault f → FaultReason i s f) : FaultReason i s f := by
  unfold controlTransfer at h
  split at h
  · next slot => cases h; exact .inSlot tr slot
  · exact hk h

/-- A transfer whose rule completes faults in a delay slot only (R181). -/
theorem controlTransfer_next_fault {i : Instr} {s t : State} {f : Fault} (tr : isTransfer i = true)
    (h : controlTransfer s (.next t) = .fault f) : FaultReason i s f :=
  controlTransfer_rule_fault tr h nofun

theorem branchLinkOn_fault {i : Instr} {s : State} {rs : Reg} {c : Bool} {off : Half} {f : Fault}
    (tr : isTransfer i = true) (broken : rs = 31#5 → i.constraintsHold = false)
    (h : branchLinkOn s rs c off = .fault f) : FaultReason i s f := by
  refine controlTransfer_rule_fault tr h (fun hk => ?_)
  split at hk
  · next source => cases hk; exact .link (broken source)
  · exact controlTransfer_next_fault tr hk

theorem jumpLinkReg_fault {i : Instr} {s : State} {rd rs : Reg} {f : Fault}
    (tr : isTransfer i = true) (broken : rd = rs → i.constraintsHold = false)
    (h : jumpLinkReg s rd rs = .fault f) : FaultReason i s f := by
  refine controlTransfer_rule_fault tr h (fun hk => ?_)
  split at hk
  · next source => cases hk; exact .link (broken source)
  · cases hk

/-- SC faults on a reservation for another address, or where `MEMMAP` stops it (R231). -/
theorem execSc_fault {i : Instr} {s : State} {rt base : Reg} {off : Half} {f : Fault}
    (h : execSc rt off base s = .fault f) : FaultReason i s f := by
  unfold execSc at h
  dsimp only at h
  split at h
  · cases h
  · split at h
    · next mismatch => cases h; exact .reservation mismatch.1
    · split at h
      · split at h <;> cases h
      · next denied => cases h; exact .store _ 4 (eq_false_of_ne_true denied)

/-! ## Why any instruction faults -/

/-- Everything that an instruction which faults can have met. -/
theorem exec_fault (i : Instr) (s : State) (f : Fault) (h : exec i s = .fault f) : FaultReason i s f := by
  cases i <;> dsimp only [exec] at h
  case clo rd rs rt | clz rd rs rt =>
    obtain ⟨hne, rfl⟩ := countLeading_fault h
    exact .count (by simpa [Instr.constraintsHold] using hne)
  case ext =>
    unfold execExt at h
    split at h
    · cases h; exact .field (by simp only [Instr.constraintsHold, decide_eq_false_iff_not]; omega)
    · cases h
  case ins =>
    unfold execIns at h
    split at h
    · cases h; exact .field (by simp only [Instr.constraintsHold, decide_eq_false_iff_not]; omega)
    · cases h
  case bgezal | bltzal => exact branchLinkOn_fault rfl (by rintro rfl; rfl) h
  case jalr | jalrHb => exact jumpLinkReg_fault rfl (by rintro rfl; simp [Instr.constraintsHold]) h
  case b | bal | beq | bgez | bgtz | blez | bltz | bne | j | jal | jr | jrHb => exact controlTransfer_next_fault rfl h
  case sc => exact execSc_fault h
  case synci =>
    unfold execSynci at h
    dsimp only at h
    split at h
    · cases h
    · next absent => cases h; exact .synci _ (eq_false_of_ne_true absent)
  case lb | lbu | lh | lhu | ll | lw | lwl | lwr => exact checkedLoad_next_fault h
  case sb | sh | sw | swl | swr => exact checkedStore_next_fault h
  case div | divu =>
    dsimp only [execDiv, execDivu] at h
    split at h <;> cases h
  case rdhwr =>
    unfold execRdhwr at h
    split at h <;> cases h
  case movt =>
    unfold execMovt at h
    split at h
    · exact absurd h (ne_fault_of_next (moveIf_spec _ _ _ _ _ Iff.rfl))
    · cases h
  case movn | movz => exact absurd h (ne_fault_of_next (moveIf_spec _ _ _ _ _ Iff.rfl))
  case add | addi => exact absurd h (ne_fault_of_next (addTrapping_spec ..))
  case sub => exact absurd h (ne_fault_of_next (subTrapping_spec ..))
  case teq | teqi | tge | tgei | tgeiu | tgeu | tlt | tlti | tltiu | tltu | tne =>
    exact absurd h (ne_fault_of_next (trapIf_spec _ _ _ Iff.rfl))
  case addiu | addu | seb | seh | slt | slti | sltiu | sltu | subu | and | andi | lui | nor | or | ori | xor | xori |
      wsbh | rotr | rotrv | sll | sllv | sra | srav | srl | srlv | madd | maddu | msub | msubu | mul | mult | multu |
      mthi | mtlo | ehb | nop | ssnop | pref | sync => cases h
  case breakpoint | syscall | sd => cases h

/-- An instruction that faults on its fields breaks their constraint (R115). -/
theorem FaultReason.broken {i : Instr} {s : State} {f : Fault} (h : FaultReason i s f)
    (hf : f = .countRegistersDiffer ∨ f = .bitFieldOutOfRange ∨ f = .linkRegisterIsSource) :
    i.constraintsHold = false := by
  cases h with
  | link broken | count broken | field broken => exact broken
  | inSlot | load | store | synci | reservation => simp at hf

/-! ## A broken constraint faults (R115) -/

theorem countLeading_broken (s : State) (b : Bool) (rd rs rt : Reg) (h : rt ≠ rd) :
    countLeading s b rd rs rt = .fault .countRegistersDiffer := if_pos h

theorem execExt_broken (s : State) (rt rs : Reg) (m l : BitVec 5) (h : 31 < l.toNat + m.toNat) :
    execExt rt rs m l s = .fault .bitFieldOutOfRange := if_pos (Nat.succ_lt_succ h)

theorem execIns_broken (s : State) (rt rs : Reg) (m l : BitVec 5) (h : m.toNat < l.toNat) :
    execIns rt rs m l s = .fault .bitFieldOutOfRange := if_pos h

theorem jumpLinkReg_broken (s : State) (rs : Reg) (h : inDelaySlot s = false) :
    jumpLinkReg s rs rs = .fault .linkRegisterIsSource :=
  (controlTransfer_run s _ h).trans (if_pos rfl)

theorem branchLinkOn_broken (s : State) (c : Bool) (off : Half) (h : inDelaySlot s = false) :
    branchLinkOn s 31#5 c off = .fault .linkRegisterIsSource :=
  (controlTransfer_run s _ h).trans (if_pos rfl)

/-- Settles O40: each broken constraint takes the faulting branch of its rule, and the converse is read off the reasons an
instruction can fault (R115). -/
theorem constraintViolationsFault : Obligations.ConstraintViolationsFault := by
  refine ⟨fun s rd rs rt h => ⟨?_, ?_⟩, fun s rt rs m l => ⟨?_, ?_⟩, fun s rs off hslot => ?_, fun i s hc => ?_⟩
  · exact countLeading_broken s true rd rs rt h
  · exact countLeading_broken s false rd rs rt h
  · exact execExt_broken s rt rs m l
  · exact execIns_broken s rt rs m l
  · have hs : inDelaySlot s = false := by simpa [inDelaySlot] using hslot
    exact ⟨jumpLinkReg_broken s rs hs, jumpLinkReg_broken s rs hs, branchLinkOn_broken s _ off hs,
      branchLinkOn_broken s _ off hs⟩
  · have keeps (f : Fault) (hf : f = .countRegistersDiffer ∨ f = .bitFieldOutOfRange ∨ f = .linkRegisterIsSource) :
        exec i s ≠ .fault f := fun h => by
      simp [(exec_fault i s f h).broken hf] at hc
    exact ⟨keeps _ (.inl rfl), keeps _ (.inr (.inl rfl)), keeps _ (.inr (.inr rfl))⟩

end Sys2Proof.Machine
end

/-! # Branch and jump (41_branch_jump.md R181, R183, R184) -/

section
namespace Sys2Proof.Machine

/-! ## The delay slot -/

/-- The model's test for a delay slot, in the words of R181. -/
theorem inDelaySlot_iff (s : State) : inDelaySlot s = true ↔ s.params.delaySlots = true ∧ s.ds = true := by
  simp [inDelaySlot]

/-- A transfer sets ds, taken or not (R180). -/
theorem transfer_ds (s : State) (c : Bool) (target : Word) (h : s.params.delaySlots = true) :
    (transfer s c target).ds = true := by
  simp [transfer, h]

/-! ## What holds of each branch and jump, and of no other instruction -/

/-- Each of the sixteen looks at the delay slot before its own rule (R42 step 6, R181). -/
theorem exec_eq_controlTransfer {i : Instr} (s : State) (tr : isTransfer i = true) :
    ∃ k, exec i s = controlTransfer s k := by
  cases i
  case b | bal | beq | bgez | bgezal | bgtz | blez | bltz | bltzal | bne | j | jal | jalr | jalrHb | jr | jrHb =>
    exact ⟨_, rfl⟩
  all_goals cases tr

/-- None of the sixteen raises an exception (R350). -/
theorem mayRaise_of_isTransfer {i : Instr} (c : Cause) (tr : isTransfer i = true) : mayRaise i c = false := by
  cases i
  case b | bal | beq | bgez | bgezal | bgtz | blez | bltz | bltzal | bne | j | jal | jalr | jalrHb | jr | jrHb => rfl
  all_goals cases tr

/-- An instruction that links is a branch or jump (R184). -/
theorem isTransfer_of_linkReg {i : Instr} {d : Reg} (h : linkReg i = some d) : isTransfer i = true := by
  cases i
  case bal | bgezal | bltzal | jal | jalr | jalrHb => rfl
  all_goals cases h

/-- A branch or jump that reaches a next state has written its link, if it has one, to the old state, and has transferred
control from there (R180, R184). -/
theorem exec_transfer_next {i : Instr} {s t : State} (tr : isTransfer i = true) (h : exec i s = .next t) :
    ∃ u c target, t = transfer u c target ∧ u.params = s.params ∧
      ∀ d, linkReg i = some d → u = writeReg s d (linkValue s) := by
  cases exec_effect i s t h with
  | raised c w b may why addr eq => simp [mayRaise_of_isTransfer c tr] at may
  | advanced u seq changes eq => simp [tr] at seq
  | transferred u c target tr slot link changes eq => exact ⟨u, c, target, eq, changes.params, link⟩

/-! ## The target of J and JAL -/

/-- Three parts side by side, each read back. -/
theorem slice_three {l m n : Nat} (x : BitVec l) (y : BitVec m) (z : BitVec n) :
    (x ++ y ++ z).extractLsb' (n + m) l = x ∧ (x ++ y ++ z).extractLsb' n m = y ∧
      (x ++ y ++ z).extractLsb' 0 n = z := by
  refine ⟨?_, ?_, slice_right _ _⟩
  · rw [slice_left _ _ _ _ (Nat.le_add_right n m), Nat.add_sub_cancel_left, slice_left _ _ _ _ le_rfl, Nat.sub_self,
      BitVec.extractLsb'_eq_self]
  · rw [slice_left _ _ _ _ le_rfl, Nat.sub_self, slice_right]

/-- The fields of the target of J and JAL: the region, the index and two zeros (R183). -/
theorem jumpTarget_fields (s : State) (index : BitVec 26) :
    (jumpTarget s index).extractLsb' 28 4 = (s.pc + 4#32).extractLsb' 28 4 ∧
      (jumpTarget s index).extractLsb' 2 26 = index ∧ (jumpTarget s index).extractLsb' 0 2 = 0#2 :=
  slice_three ((s.pc + 4#32).extractLsb' 28 4) index 0#2

/-- What JAL does outside a delay slot (R196). -/
theorem execJal_spec (s : State) (index : BitVec 26) (h : inDelaySlot s = false) :
    ∃ t, execJal index s = .next t ∧ TransfersTo s t (some (31#5, linkValue s)) True (jumpTarget s index) :=
  ⟨_, controlTransfer_run s _ h, transfer_link_spec s _ _ true True _ (by simp)⟩

/-! ## The obligations -/

/-- Settles O36: the target is `jumpTarget`, whose fields are the three of R183, and both jumps go there. -/
theorem jumpsAndTheirTarget : Obligations.JumpsAndTheirTarget := by
  intro s index
  obtain ⟨region, field, aligned⟩ := jumpTarget_fields s index
  refine ⟨jumpTarget s index, region, field, aligned, fun hslot => ?_⟩
  have outside : inDelaySlot s = false := eq_false_of_ne_true (mt (inDelaySlot_iff s).mp hslot)
  exact ⟨jumpTo_spec s _ outside, execJal_spec s index outside⟩

/-- Settles O38: the transfer leaves the registers as the write of the link has left them (R184). (`linkValue` itself
is the model's function.) -/
theorem linkValue_holds : Obligations.LinkValue := by
  intro i d s t hlink h
  obtain ⟨u, c, target, rfl, -, wrote⟩ := exec_transfer_next (isTransfer_of_linkReg hlink) h
  rw [wrote d hlink, readReg_transfer, readReg_writeReg]
  by_cases hd : d = 0#5 <;> simp [hd, linkValue]

/-- Settles O39: in a slot every transfer answers `controlTransfer`'s fault; a transfer that completes sets ds; and the only
reason for that fault is a delay slot, which there is none of without delay slots (R181). -/
theorem transferInDelaySlotFaults : Obligations.TransferInDelaySlotFaults := by
  intro i s tr
  refine ⟨fun slots ds => ?_, fun slots t h => ?_, fun noSlots h => ?_⟩
  · obtain ⟨k, run⟩ := exec_eq_controlTransfer s tr
    rw [run, controlTransfer_fault s k ((inDelaySlot_iff s).mpr ⟨slots, ds⟩)]
  · obtain ⟨u, c, target, rfl, params, -⟩ := exec_transfer_next tr h
    exact transfer_ds u c target (params ▸ slots)
  · cases exec_fault i s _ h with
    | inSlot _ slot => simp [inDelaySlot, noSlots] at slot

end Sys2Proof.Machine
end

/-! # The logical instructions (44_logical.md R259 to R267) -/

section
namespace Sys2Proof.Machine

/-! ## The bits of the immediates -/

/-- The zero-extended immediate: its own 16 bits, and zeros above them (R107). -/
theorem zextImm_bit (imm : Half) (k : Nat) (hk : k < 32) :
    (zextImm imm).getLsbD k = (decide (k < 16) && imm.getLsbD k) := by
  rw [zextImm, BitVec.getLsbD_setWidth]
  by_cases low : k < 16
  · simp [hk, low]
  · simp [low, BitVec.getLsbD_of_ge imm k (Nat.le_of_not_lt low)]

/-- The upper immediate: zeros, and above them the 16 bits of the immediate (R107). -/
theorem upperImm_bit (imm : Half) (k : Nat) :
    (upperImm imm).getLsbD k = (decide (16 ≤ k) && imm.getLsbD (k - 16)) := by
  rw [upperImm, BitVec.getLsbD_append]
  by_cases low : k < 16
  · simp [low]
  · simp [low, Nat.le_of_not_lt low]

/-! ## Completing with a value that is known bit by bit -/

/-- An instruction that completes with a value whose bits are `f` writes those bits, and nothing else (R31, R35). -/
theorem completeReg_bits (s : State) (d : Reg) {w : Word} {f : Nat → Bool}
    (bits : ∀ k : Nat, k < 32 → w.getLsbD k = f k) :
    ∃ v t, completeReg s d w = .next t ∧ WritesReg s t d v ∧ ∀ k : Nat, k < 32 → v.getLsbD k = f k := by
  obtain ⟨t, run, writes⟩ := completeReg_spec s d w
  exact ⟨w, t, run, writes, bits⟩

/-- Settles O54: each of the eight completes with the value of its rule, whose bits are those of the operation on the
operands' bits (R260 to R267). -/
theorem logicalBitByBit : Obligations.LogicalBitByBit := by
  rintro s d rs rt imm _ _ rfl rfl
  refine ⟨completeReg_bits s d fun k hk => ?and, completeReg_bits s d fun k hk => ?or,
    completeReg_bits s d fun k hk => ?xor, completeReg_bits s d fun k hk => ?nor,
    completeReg_bits s d fun k hk => ?andi, completeReg_bits s d fun k hk => ?ori,
    completeReg_bits s d fun k hk => ?xori, completeReg_bits s d fun k _ => ?lui⟩
  case and => exact BitVec.getLsbD_and
  case or => exact BitVec.getLsbD_or
  case xor => exact BitVec.getLsbD_xor
  case nor => rw [BitVec.getLsbD_not, BitVec.getLsbD_or, decide_eq_true hk, Bool.true_and]
  case andi => rw [BitVec.getLsbD_and, zextImm_bit imm k hk, Bool.and_left_comm, Bool.and_assoc]
  case ori => rw [BitVec.getLsbD_or, zextImm_bit imm k hk]
  case xori => rw [BitVec.getLsbD_xor, zextImm_bit imm k hk]
  case lui => exact upperImm_bit imm k

end Sys2Proof.Machine
end

/-! # The conditional moves (46_move.md R289 to R292) -/

section
namespace Sys2Proof.Machine

/-- What MOVN does: its condition is that `rt` is not zero (R290). -/
theorem execMovn_spec (s : State) (rd rs rt : Reg) :
    ∃ t, execMovn rd rs rt s = .next t ∧ (readReg s rt ≠ 0#32 → WritesReg s t rd (readReg s rs)) ∧
      (readReg s rt = 0#32 → OnlyAdvances s t) := by
  obtain ⟨t, run, moved, kept⟩ := moveIf_spec s _ (readReg s rt ≠ 0#32) rd rs bne_iff_ne
  exact ⟨t, run, moved, fun zero => kept (not_not_intro zero)⟩

/-- What MOVZ does: its condition is that `rt` is zero (R292). -/
theorem execMovz_spec (s : State) (rd rs rt : Reg) :
    ∃ t, execMovz rd rs rt s = .next t ∧ (readReg s rt = 0#32 → WritesReg s t rd (readReg s rs)) ∧
      (readReg s rt ≠ 0#32 → OnlyAdvances s t) :=
  moveIf_spec s _ (readReg s rt = 0#32) rd rs beq_iff_eq

/-- What MOVT does where the condition codes exist: its condition is the bit of CC it names (R291). -/
theorem execMovt_spec (s : State) (rd rs : Reg) (cc : BitVec 3) (hasCc : s.params.hasCc = true) :
    ∃ t, execMovt rd rs cc s = .next t ∧ (s.cc.getLsbD cc.toNat = true → WritesReg s t rd (readReg s rs)) ∧
      (s.cc.getLsbD cc.toNat = false → OnlyAdvances s t) := by
  obtain ⟨t, run, moved, kept⟩ := moveIf_spec s (readCc s cc) (s.cc.getLsbD cc.toNat = true) rd rs Iff.rfl
  exact ⟨t, (if_pos hasCc).trans run, moved, fun clear => kept (ne_true_of_eq_false clear)⟩

/-- Where the condition codes do not exist MOVT is refused, with the record of R356 (R291, R353(c)). -/
theorem execMovt_noCc (s : State) (rd rs : Reg) (cc : BitVec 3) (noCc : s.params.hasCc = false) :
    execMovt rd rs cc s =
      .refused (.noConditionCodes (expectedRecord s .reservedInstruction (some .noCc) none)) := by
  rw [execMovt, if_neg (ne_true_of_eq_false noCc), trapRecord_eq]

/-- Settles O56: the three are one conditional move under their own conditions, and MOVT first asks whether the condition
codes exist (R289 to R292). -/
theorem conditionalMoves : Obligations.ConditionalMoves := fun s rd rs rt cc =>
  ⟨execMovn_spec s rd rs rt, execMovz_spec s rd rs rt, execMovt_spec s rd rs cc, execMovt_noCc s rd rs cc⟩

end Sys2Proof.Machine
end

/-! # The encoding (30_encoding.md): the decoder and the encoder undo each other, over exactly the words of the table -/

section
namespace Sys2Proof

/-! ## Which decoder a word goes to (R108) -/

theorem decode_special {w : Word} (op : opcodeOf w = 0b000000#6) : decode w = decodeSpecial w := if_pos op

theorem decode_regimm {w : Word} (op : opcodeOf w = 0b000001#6) : decode w = decodeRegimm w := by simp [decode, op]

theorem decode_special2 {w : Word} (op : opcodeOf w = 0b011100#6) : decode w = decodeSpecial2 w := by simp [decode, op]

theorem decode_special3 {w : Word} (op : opcodeOf w = 0b011111#6) : decode w = decodeSpecial3 w := by simp [decode, op]

/-! ## The encoder's words decode (R101, R112, R113) -/

/-- A word of SLL is a word of one of the three idioms exactly where its fields are (R113). -/
theorem isSllIdiom_iff (rd rt : Reg) (sa : BitVec 5) :
    isSllIdiom rd rt sa = true ↔ encode (.sll rd rt sa) = 0x00000000#32 ∨ encode (.sll rd rt sa) = 0x00000040#32 ∨
      encode (.sll rd rt sa) = 0x000000C0#32 := by
  have fields (k : BitVec 5) : encode (.sll rd rt sa) = encode (.sll 0 0 k) ↔ rd = 0#5 ∧ rt = 0#5 ∧ sa = k := by
    constructor
    · intro same
      exact ⟨by simpa [encode] using congrArg rdOf same, by simpa [encode] using congrArg rtOf same,
        by simpa [encode] using congrArg saOf same⟩
    · rintro ⟨rfl, rfl, rfl⟩
      rfl
  have nop : encode (.sll 0 0 0) = 0x00000000#32 := by decide
  have ssnop : encode (.sll 0 0 1) = 0x00000040#32 := by decide
  have ehb : encode (.sll 0 0 3) = 0x000000C0#32 := by decide
  rw [← nop, ← ssnop, ← ehb, fields, fields, fields]
  simp [isSllIdiom, and_assoc, or_assoc, ← and_or_left]

theorem decodeSll_encode {rd rt : Reg} {sa : BitVec 5} (wf : isSllIdiom rd rt sa = false) :
    decodeSll (encode (.sll rd rt sa)) = .ok (.sll rd rt sa) := by
  have other := mt (isSllIdiom_iff rd rt sa).mpr (ne_true_of_eq_false wf)
  push Not at other
  obtain ⟨notNop, notSsnop, notEhb⟩ := other
  rw [decodeSll, if_neg notNop, if_neg notSsnop, if_neg notEhb]
  simp [encode, keepIf]

/-- Settles O1, decoder by decoder: a field of the format is what the encoder put there, so each test that the word
meets on its way is decided by a constant. The three rows that share words with another row are taken first (R113). -/
theorem decodeOfEncode : Obligations.DecodeOfEncode := by
  intro i wf
  cases i
  case sll =>
    rw [decode_special (by simp [encode]), decodeSpecial]
    simp only [encode, functOf_encodeR, if_true]
    exact decodeSll_encode (by simpa [Instr.wellFormed] using wf)
  case beq rs rt off =>
    have notB : ¬(rs = 0#5 ∧ rt = 0#5) := by simpa [Instr.wellFormed, imp_iff_not_or] using wf
    simp only [decode, encode, opcodeOf_encodeI, rsOf_encodeI, rtOf_encodeI, immOf_encodeI, if_neg notB]
    rfl
  case bgezal rs off =>
    have notBal : rs ≠ 0#5 := by simpa [Instr.wellFormed] using wf
    simp [decode, decodeRegimm, encode, notBal]
  case nop | ssnop | ehb => decide
  case bal | bgez | bltz | bltzal | tgei | tgeiu | tlti | tltiu | teqi | synci =>
    rw [decode_regimm (by simp [encode])]
    simp [decodeRegimm, encode]
  case madd | maddu | mul | msub | msubu | clz | clo =>
    rw [decode_special2 (by simp [encode])]
    simp [decodeSpecial2, encode, keepIf]
  case ext | ins | wsbh | seb | seh | rdhwr =>
    rw [decode_special3 (by simp [encode])]
    simp [decodeSpecial3, decodeBshfl, encode, keepIf]
  case b | bne | blez | bgtz | j | jal | addi | addiu | slti | sltiu | andi | ori | xori | lui | lb | lh | lwl | lw | lbu |
      lhu | lwr | sb | sh | swl | sw | swr | ll | pref | sc | sd =>
    simp [decode, encode, keepIf]
  all_goals
    rw [decode_special (by simp [encode])]
    simp [decodeSpecial, decodeSrl, decodeSrlv, decodeJr, decodeJalr, encode, keepIf]

/-! ## A word that decodes is the encoding of what it decodes to (R112, R114) -/

theorem encodeR_of_fields {w : Word} {op : BitVec 6} {rs rt rd sa : BitVec 5} {fn : BitVec 6} (hop : opcodeOf w = op)
    (hrs : rsOf w = rs) (hrt : rtOf w = rt) (hrd : rdOf w = rd) (hsa : saOf w = sa) (hfn : functOf w = fn) :
    encodeR op rs rt rd sa fn = w := by
  subst hop hrs hrt hrd hsa hfn
  exact encodeR_fields w

theorem encodeI_of_fields {w : Word} {op : BitVec 6} {rs rt : BitVec 5} (hop : opcodeOf w = op) (hrs : rsOf w = rs)
    (hrt : rtOf w = rt) : encodeI op rs rt (immOf w) = w := by
  subst hop hrs hrt
  exact encodeI_fields w

theorem encodeJ_of_fields {w : Word} {op : BitVec 6} (hop : opcodeOf w = op) : encodeJ op (indexOf w) = w := by
  subst hop
  exact encodeJ_fields w

theorem encodeCode_of_fields {w : Word} {fn : BitVec 6} (hop : opcodeOf w = 0b000000#6) (hfn : functOf w = fn) :
    encodeCode (codeOf w) fn = w := by
  subst hfn
  exact encodeCode_fields w hop

theorem encodeTrap_of_fields {w : Word} {fn : BitVec 6} (hop : opcodeOf w = 0b000000#6) (hfn : functOf w = fn) :
    encodeTrap (rsOf w) (rtOf w) (trapCodeOf w) fn = w := by
  subst hfn
  exact encodeTrap_fields w hop

/-- The word is the instruction's own, and is read as it. -/
def IsWordOf (w : Word) (i : Instr) : Prop := encode i = w ∧ i.wellFormed = true

/-- A decoder's answer for a word accounts for every bit of it: the instruction, if there is one, is the word's. -/
def Sound (w : Word) (r : Except Rejection Instr) : Prop := ∀ i, r = .ok i → IsWordOf w i

theorem Sound.ite {w : Word} {c : Prop} [Decidable c] {a b : Except Rejection Instr} (ha : c → Sound w a)
    (hb : ¬c → Sound w b) : Sound w (if c then a else b) := by
  split
  · exact ha ‹_›
  · exact hb ‹_›

theorem Sound.ok {w : Word} {i : Instr} (h : IsWordOf w i) : Sound w (.ok i) := by
  rintro _ ⟨⟩
  exact h

theorem Sound.error {w : Word} (e : Rejection) : Sound w (.error e) := nofun

theorem Sound.keepIf {w : Word} {fixed : Bool} {i : Instr} (h : fixed = true → IsWordOf w i) :
    Sound w (keepIf fixed i) := by
  intro j hj
  obtain ⟨hf, rfl⟩ := keepIf_ok.mp hj
  exact h hf

theorem decodeSll_sound {w : Word} (op : opcodeOf w = 0b000000#6) (fn : functOf w = 0b000000#6) :
    Sound w (decodeSll w) := by
  refine .ite (fun e => .ok ⟨e.symm, rfl⟩) fun notNop => .ite (fun e => .ok ⟨e.symm, rfl⟩) fun notSsnop =>
    .ite (fun e => .ok ⟨e.symm, rfl⟩) fun notEhb => .keepIf fun fixed => ?_
  have word : encode (.sll (rdOf w) (rtOf w) (saOf w)) = w :=
    encodeR_of_fields op (eq_of_beq fixed) rfl rfl rfl fn
  have noIdiom : ¬isSllIdiom (rdOf w) (rtOf w) (saOf w) = true := by
    rw [isSllIdiom_iff, word]
    tauto
  exact ⟨word, by simpa [Instr.wellFormed] using noIdiom⟩

theorem decodeSrl_sound {w : Word} (op : opcodeOf w = 0b000000#6) (fn : functOf w = 0b000010#6) :
    Sound w (decodeSrl w) :=
  .ite (fun rs => .ok ⟨encodeR_of_fields op rs rfl rfl rfl fn, rfl⟩) fun _ =>
    .keepIf fun rs => ⟨encodeR_of_fields op (eq_of_beq rs) rfl rfl rfl fn, rfl⟩

theorem decodeSrlv_sound {w : Word} (op : opcodeOf w = 0b000000#6) (fn : functOf w = 0b000110#6) :
    Sound w (decodeSrlv w) :=
  .ite (fun sa => .ok ⟨encodeR_of_fields op rfl rfl rfl sa fn, rfl⟩) fun _ =>
    .keepIf fun sa => ⟨encodeR_of_fields op rfl rfl rfl (eq_of_beq sa) fn, rfl⟩

theorem decodeJr_sound {w : Word} (op : opcodeOf w = 0b000000#6) (fn : functOf w = 0b001000#6) :
    Sound w (decodeJr w) := by
  refine .ite (fun sa => .keepIf fun fixed => ?_) fun _ => .keepIf fun fixed => ?_
  all_goals
    refine ⟨encodeR_of_fields op ?_ ?_ ?_ ?_ fn, rfl⟩ <;> simp_all

theorem decodeJalr_sound {w : Word} (op : opcodeOf w = 0b000000#6) (fn : functOf w = 0b001001#6) :
    Sound w (decodeJalr w) := by
  refine .ite (fun sa => .keepIf fun fixed => ?_) fun _ => .keepIf fun fixed => ?_
  all_goals
    refine ⟨encodeR_of_fields op ?_ ?_ ?_ ?_ fn, rfl⟩ <;> simp_all

theorem decodeSpecial_sound {w : Word} (op : opcodeOf w = 0b000000#6) : Sound w (decodeSpecial w) := by
  refine .ite (decodeSll_sound op) fun _ => .ite (fun fn => ?movt) fun _ => .ite (decodeSrl_sound op) fun _ =>
    .ite (fun fn => ?sra) fun _ => .ite (fun fn => ?sllv) fun _ => .ite (decodeSrlv_sound op) fun _ =>
    .ite (fun fn => ?srav) fun _ => .ite (decodeJr_sound op) fun _ => .ite (decodeJalr_sound op) fun _ =>
    .ite (fun fn => ?movz) fun _ => .ite (fun fn => ?movn) fun _ => .ite (fun fn => ?syscall) fun _ =>
    .ite (fun fn => ?breakpoint) fun _ => .ite (fun fn => ?sync) fun _ => .ite (fun fn => ?mthi) fun _ =>
    .ite (fun fn => ?mtlo) fun _ => .ite (fun fn => ?mult) fun _ => .ite (fun fn => ?multu) fun _ =>
    .ite (fun fn => ?div) fun _ => .ite (fun fn => ?divu) fun _ => .ite (fun fn => ?add) fun _ =>
    .ite (fun fn => ?addu) fun _ => .ite (fun fn => ?sub) fun _ => .ite (fun fn => ?subu) fun _ =>
    .ite (fun fn => ?and) fun _ => .ite (fun fn => ?or) fun _ => .ite (fun fn => ?xor) fun _ =>
    .ite (fun fn => ?nor) fun _ => .ite (fun fn => ?slt) fun _ => .ite (fun fn => ?sltu) fun _ =>
    .ite (fun fn => ?tge) fun _ => .ite (fun fn => ?tgeu) fun _ => .ite (fun fn => ?tlt) fun _ =>
    .ite (fun fn => ?tltu) fun _ => .ite (fun fn => ?teq) fun _ => .ite (fun fn => ?tne) fun _ => .error _
  case movt =>
    refine .keepIf fun fixed => ⟨encodeCc_fields w op ?_ ?_ fn, rfl⟩ <;> simp_all
  case syscall | breakpoint => exact .ok ⟨encodeCode_of_fields op fn, rfl⟩
  case tge | tgeu | tlt | tltu | teq | tne => exact .ok ⟨encodeTrap_of_fields op fn, rfl⟩
  all_goals
    refine .keepIf fun fixed => ⟨encodeR_of_fields op ?_ ?_ ?_ ?_ fn, rfl⟩ <;> simp_all

theorem decodeRegimm_sound {w : Word} (op : opcodeOf w = 0b000001#6) : Sound w (decodeRegimm w) := by
  refine .ite (fun sel => ?bltz) fun _ => .ite (fun sel => ?bgez) fun _ => .ite (fun sel => ?tgei) fun _ =>
    .ite (fun sel => ?tgeiu) fun _ => .ite (fun sel => ?tlti) fun _ => .ite (fun sel => ?tltiu) fun _ =>
    .ite (fun sel => ?teqi) fun _ => .ite (fun sel => ?bltzal) fun _ =>
    .ite (fun sel => .ite (fun rs => ?bal) fun rs => ?bgezal) fun _ => .ite (fun sel => ?synci) fun _ => .error _
  case bal => exact .ok ⟨encodeI_of_fields op rs sel, rfl⟩
  case bgezal => exact .ok ⟨encodeI_of_fields op rfl sel, by simpa [Instr.wellFormed] using rs⟩
  all_goals exact .ok ⟨encodeI_of_fields op rfl sel, rfl⟩

theorem decodeSpecial2_sound {w : Word} (op : opcodeOf w = 0b011100#6) : Sound w (decodeSpecial2 w) := by
  refine .ite (fun fn => ?madd) fun _ => .ite (fun fn => ?maddu) fun _ => .ite (fun fn => ?mul) fun _ =>
    .ite (fun fn => ?msub) fun _ => .ite (fun fn => ?msubu) fun _ => .ite (fun fn => ?clz) fun _ =>
    .ite (fun fn => ?clo) fun _ => .error _
  all_goals
    refine .keepIf fun fixed => ⟨encodeR_of_fields op ?_ ?_ ?_ ?_ fn, rfl⟩ <;> simp_all

theorem decodeBshfl_sound {w : Word} (op : opcodeOf w = 0b011111#6) (fn : functOf w = 0b100000#6) :
    Sound w (decodeBshfl w) := by
  refine .ite (fun sel => ?wsbh) fun _ => .ite (fun sel => ?seb) fun _ => .ite (fun sel => ?seh) fun _ => .error _
  all_goals exact .keepIf fun rs => ⟨encodeR_of_fields op (eq_of_beq rs) rfl rfl sel fn, rfl⟩

theorem decodeSpecial3_sound {w : Word} (op : opcodeOf w = 0b011111#6) : Sound w (decodeSpecial3 w) := by
  refine .ite (fun fn => ?ext) fun _ => .ite (fun fn => ?ins) fun _ => .ite (decodeBshfl_sound op) fun _ =>
    .ite (fun fn => ?rdhwr) fun _ => .error _
  case ext | ins => exact .ok ⟨encodeR_of_fields op rfl rfl rfl rfl fn, rfl⟩
  case rdhwr =>
    refine .keepIf fun fixed => ⟨encodeR_of_fields op ?_ ?_ ?_ ?_ fn, rfl⟩ <;> simp_all

theorem decode_sound (w : Word) : Sound w (decode w) := by
  refine .ite decodeSpecial_sound fun _ => .ite decodeRegimm_sound fun _ => .ite (fun op => ?j) fun _ =>
    .ite (fun op => ?jal) fun _ => .ite (fun op => .ite (fun zero => ?b) fun zero => ?beq) fun _ =>
    .ite (fun op => ?bne) fun _ => .ite (fun op => ?blez) fun _ => .ite (fun op => ?bgtz) fun _ =>
    .ite (fun op => ?addi) fun _ => .ite (fun op => ?addiu) fun _ => .ite (fun op => ?slti) fun _ =>
    .ite (fun op => ?sltiu) fun _ => .ite (fun op => ?andi) fun _ => .ite (fun op => ?ori) fun _ =>
    .ite (fun op => ?xori) fun _ => .ite (fun op => ?lui) fun _ => .ite decodeSpecial2_sound fun _ =>
    .ite decodeSpecial3_sound fun _ => .ite (fun op => ?lb) fun _ => .ite (fun op => ?lh) fun _ =>
    .ite (fun op => ?lwl) fun _ => .ite (fun op => ?lw) fun _ => .ite (fun op => ?lbu) fun _ =>
    .ite (fun op => ?lhu) fun _ => .ite (fun op => ?lwr) fun _ => .ite (fun op => ?sb) fun _ =>
    .ite (fun op => ?sh) fun _ => .ite (fun op => ?swl) fun _ => .ite (fun op => ?sw) fun _ =>
    .ite (fun op => ?swr) fun _ => .ite (fun op => ?ll) fun _ => .ite (fun op => ?pref) fun _ =>
    .ite (fun op => ?sc) fun _ => .ite (fun op => ?sd) fun _ => .error _
  case j | jal => exact .ok ⟨encodeJ_of_fields op, rfl⟩
  case b => exact .ok ⟨encodeI_of_fields op zero.1 zero.2, rfl⟩
  case beq =>
    exact .ok ⟨encodeI_of_fields op rfl rfl, by simpa [Instr.wellFormed, imp_iff_not_or] using zero⟩
  case blez | bgtz => exact .keepIf fun rt => ⟨encodeI_of_fields op rfl (eq_of_beq rt), rfl⟩
  case lui => exact .keepIf fun rs => ⟨encodeI_of_fields op (eq_of_beq rs) rfl, rfl⟩
  all_goals exact .ok ⟨encodeI_of_fields op rfl rfl, rfl⟩

/-- Settles O2: each test of the decoder fixes a field, and the instruction it answers holds the other fields, so its
encoding puts the word together again (R112, R114). -/
theorem encodeOfDecode : Obligations.EncodeOfDecode := decode_sound

/-! ## The words that decode are the words of the table (R112) -/

/-- The encoder's word of an instruction is a word of its row of R112. -/
theorem tableRow_holds_encode (i : Instr) : (tableRow i).holds (encode i) := by
  cases i
  case add => exact Laws.TableRow.add ..
  case addi => exact Laws.TableRow.addi ..
  case addiu => exact Laws.TableRow.addiu ..
  case addu => exact Laws.TableRow.addu ..
  case clo => exact Laws.TableRow.clo ..
  case clz => exact Laws.TableRow.clz ..
  case div => exact Laws.TableRow.div ..
  case divu => exact Laws.TableRow.divu ..
  case madd => exact Laws.TableRow.madd ..
  case maddu => exact Laws.TableRow.maddu ..
  case msub => exact Laws.TableRow.msub ..
  case msubu => exact Laws.TableRow.msubu ..
  case mul => exact Laws.TableRow.mul ..
  case mult => exact Laws.TableRow.mult ..
  case multu => exact Laws.TableRow.multu ..
  case seb => exact Laws.TableRow.seb ..
  case seh => exact Laws.TableRow.seh ..
  case slt => exact Laws.TableRow.slt ..
  case slti => exact Laws.TableRow.slti ..
  case sltiu => exact Laws.TableRow.sltiu ..
  case sltu => exact Laws.TableRow.sltu ..
  case sub => exact Laws.TableRow.sub ..
  case subu => exact Laws.TableRow.subu ..
  case b => exact Laws.TableRow.b ..
  case bal => exact Laws.TableRow.bal ..
  case beq => exact Laws.TableRow.beq ..
  case bgez => exact Laws.TableRow.bgez ..
  case bgezal => exact Laws.TableRow.bgezal ..
  case bgtz => exact Laws.TableRow.bgtz ..
  case blez => exact Laws.TableRow.blez ..
  case bltz => exact Laws.TableRow.bltz ..
  case bltzal => exact Laws.TableRow.bltzal ..
  case bne => exact Laws.TableRow.bne ..
  case j => exact Laws.TableRow.j ..
  case jal => exact Laws.TableRow.jal ..
  case jalr => exact Laws.TableRow.jalr ..
  case jalrHb => exact Laws.TableRow.jalrHb ..
  case jr => exact Laws.TableRow.jr ..
  case jrHb => exact Laws.TableRow.jrHb ..
  case ehb => exact Laws.TableRow.ehb ..
  case nop => exact Laws.TableRow.nop ..
  case ssnop => exact Laws.TableRow.ssnop ..
  case lb => exact Laws.TableRow.lb ..
  case lbu => exact Laws.TableRow.lbu ..
  case lh => exact Laws.TableRow.lh ..
  case lhu => exact Laws.TableRow.lhu ..
  case ll => exact Laws.TableRow.ll ..
  case lw => exact Laws.TableRow.lw ..
  case lwl => exact Laws.TableRow.lwl ..
  case lwr => exact Laws.TableRow.lwr ..
  case pref => exact Laws.TableRow.pref ..
  case sb => exact Laws.TableRow.sb ..
  case sc => exact Laws.TableRow.sc ..
  case sh => exact Laws.TableRow.sh ..
  case sd => exact Laws.TableRow.sd ..
  case sw => exact Laws.TableRow.sw ..
  case swl => exact Laws.TableRow.swl ..
  case swr => exact Laws.TableRow.swr ..
  case sync => exact Laws.TableRow.sync ..
  case synci => exact Laws.TableRow.synci ..
  case and => exact Laws.TableRow.and ..
  case andi => exact Laws.TableRow.andi ..
  case lui => exact Laws.TableRow.lui ..
  case nor => exact Laws.TableRow.nor ..
  case or => exact Laws.TableRow.or ..
  case ori => exact Laws.TableRow.ori ..
  case xor => exact Laws.TableRow.xor ..
  case xori => exact Laws.TableRow.xori ..
  case ext => exact Laws.TableRow.ext ..
  case ins => exact Laws.TableRow.ins ..
  case wsbh => exact Laws.TableRow.wsbh ..
  case movn => exact Laws.TableRow.movn ..
  case movt => exact Laws.TableRow.movt ..
  case movz => exact Laws.TableRow.movz ..
  case mthi => exact Laws.TableRow.mthi ..
  case mtlo => exact Laws.TableRow.mtlo ..
  case rdhwr => exact Laws.TableRow.rdhwr ..
  case rotr => exact Laws.TableRow.rotr ..
  case rotrv => exact Laws.TableRow.rotrv ..
  case sll => exact Laws.TableRow.sll ..
  case sllv => exact Laws.TableRow.sllv ..
  case sra => exact Laws.TableRow.sra ..
  case srav => exact Laws.TableRow.srav ..
  case srl => exact Laws.TableRow.srl ..
  case srlv => exact Laws.TableRow.srlv ..
  case breakpoint => exact Laws.TableRow.breakpoint ..
  case syscall => exact Laws.TableRow.syscall ..
  case teq => exact Laws.TableRow.teq ..
  case teqi => exact Laws.TableRow.teqi ..
  case tge => exact Laws.TableRow.tge ..
  case tgei => exact Laws.TableRow.tgei ..
  case tgeiu => exact Laws.TableRow.tgeiu ..
  case tgeu => exact Laws.TableRow.tgeu ..
  case tlt => exact Laws.TableRow.tlt ..
  case tlti => exact Laws.TableRow.tlti ..
  case tltiu => exact Laws.TableRow.tltiu ..
  case tltu => exact Laws.TableRow.tltu ..
  case tne => exact Laws.TableRow.tne ..

/-- The row of every instruction is one of the 98 of R112: it does not depend on the operands. -/
theorem tableRow_mem (i : Instr) : tableRow i ∈ opcodeTable := by
  cases i <;> (simp only [tableRow]; decide)

/-- A field that a mask covers is read off the masked word. -/
theorem field_of_masked {w mask bits : Word} (h : w &&& mask = bits) (start len : Nat)
    (covered : mask.extractLsb' start len = BitVec.allOnes len) :
    w.extractLsb' start len = bits.extractLsb' start len := by
  rw [← h, BitVec.extractLsb'_and, covered, BitVec.and_allOnes]

/-- Every row of the table is the row of an instruction. -/
theorem exists_tableRow : ∀ r ∈ opcodeTable, ∃ i, tableRow i = r := by
  simp only [opcodeTable, rowsArithmetic, rowsBranch, rowsControl, rowsLoadStore, rowsLogic, rowsBitField, rowsMove,
    rowsShift, rowsTrap, List.forall_mem_append, List.forall_mem_cons, exists_apply_eq_apply, List.not_mem_nil,
    false_imp_iff, implies_true, and_true]

/-- The row some of whose words an instruction's own row takes (R113); any other row is its own. -/
def coreRow : Instr → Row
  | .b .. => tableRow (.beq 0 0 0)
  | .bal .. => tableRow (.bgezal 0 0)
  | .nop | .ssnop | .ehb => tableRow (.sll 0 0 0)
  | i => tableRow i

theorem aliasOf_coreRow (i : Instr) :
    coreRow i = tableRow i ∨ (tableRow i).aliasOf = some (coreRow i).mnemonic := by
  cases i
  case b | bal | nop | ssnop | ehb => exact .inr rfl
  all_goals exact .inl rfl

/-- SLL's function decodes where the unused field is 0: to one of the idioms, or to SLL (R113). -/
theorem decodeSll_core {w : Word} (rs : rsOf w = 0b00000#5) :
    (decodeSll w).map coreRow = .ok (tableRow (.sll 0 0 0)) := by
  unfold decodeSll
  split_ifs
  case neg => rw [keepIf_ok.mpr ⟨beq_iff_eq.mpr rs, rfl⟩]; rfl
  all_goals rfl

/-- A word of a row of R112 decodes, to an instruction of that row or of one that takes words of it: the mask of the
row covers the fields that the decoder tests on its way. The rows stand together by the fields that their masks cover. -/
theorem decodes_of_holds {i : Instr} {w : Word} (h : (tableRow i).holds w) :
    (decode w).map coreRow = .ok (tableRow i) ∨ (decode w).map tableRow = .ok (tableRow i) := by
  cases i <;> simp only [Row.holds, tableRow] at h
  case ehb | nop | ssnop =>
    have word : w = _ := (BitVec.and_allOnes (x := w)).symm.trans h
    subst word
    exact .inr rfl
  case sll =>
    have op := field_of_masked h 26 6 (by decide)
    have fn : functOf w = 0b000000#6 := field_of_masked h 0 6 (by decide)
    rw [decode_special op, decodeSpecial, if_pos fn]
    exact .inl (decodeSll_core (field_of_masked h 21 5 (by decide)))
  case b =>
    right
    have op := field_of_masked h 26 6 (by decide)
    have rs := field_of_masked h 21 5 (by decide)
    have rt := field_of_masked h 16 5 (by decide)
    simp [decode, Except.map, opcodeOf, rsOf, rtOf, op, rs, rt]
    rfl
  case bal =>
    right
    have op := field_of_masked h 26 6 (by decide)
    have rs := field_of_masked h 21 5 (by decide)
    have sel := field_of_masked h 16 5 (by decide)
    simp [decode, decodeRegimm, Except.map, opcodeOf, rsOf, rtOf, op, rs, sel]
    rfl
  all_goals left
  case beq =>
    have op := field_of_masked h 26 6 (by decide)
    by_cases zero : rsOf w = 0b00000#5 ∧ rtOf w = 0b00000#5 <;>
    · simp [decode, Except.map, opcodeOf, op, zero]
      rfl
  case bgezal =>
    have op := field_of_masked h 26 6 (by decide)
    have sel := field_of_masked h 16 5 (by decide)
    by_cases zero : rsOf w = 0b00000#5 <;>
    · simp [decode, Except.map, decodeRegimm, opcodeOf, rtOf, op, sel, zero]
      rfl
  case bgez | bltz | bltzal | tgei | tgeiu | tlti | tltiu | teqi | synci | blez | bgtz =>
    have op := field_of_masked h 26 6 (by decide)
    have rt := field_of_masked h 16 5 (by decide)
    simp [decode, Except.map, decodeRegimm, keepIf, opcodeOf, rtOf, op, rt]
    rfl
  case lui =>
    have op := field_of_masked h 26 6 (by decide)
    have rs := field_of_masked h 21 5 (by decide)
    simp [decode, Except.map, keepIf, opcodeOf, rsOf, op, rs]
    rfl
  case breakpoint | syscall | tge | tgeu | tlt | tltu | teq | tne | ext | ins =>
    have op := field_of_masked h 26 6 (by decide)
    have fn := field_of_masked h 0 6 (by decide)
    simp [decode, Except.map, decodeSpecial, decodeSpecial3, opcodeOf, functOf, op, fn]
    rfl
  case sra | srl | rotr =>
    have op := field_of_masked h 26 6 (by decide)
    have rs := field_of_masked h 21 5 (by decide)
    have fn := field_of_masked h 0 6 (by decide)
    simp [decode, Except.map, decodeSpecial, decodeSrl, keepIf, opcodeOf, rsOf, functOf, op, rs, fn]
    rfl
  case wsbh | seb | seh | rdhwr =>
    have op := field_of_masked h 26 6 (by decide)
    have rs := field_of_masked h 21 5 (by decide)
    have sa := field_of_masked h 6 5 (by decide)
    have fn := field_of_masked h 0 6 (by decide)
    simp [decode, Except.map, decodeSpecial3, decodeBshfl, keepIf, opcodeOf, rsOf, saOf, functOf, op, rs, sa, fn]
    rfl
  case add | addu | sub | subu | and | or | xor | nor | slt | sltu | movn | movz | sllv | srlv | srav | rotrv | mul |
      clz | clo =>
    have op := field_of_masked h 26 6 (by decide)
    have sa := field_of_masked h 6 5 (by decide)
    have fn := field_of_masked h 0 6 (by decide)
    simp [decode, Except.map, decodeSpecial, decodeSrlv, decodeSpecial2, keepIf, opcodeOf, saOf, functOf, op, sa, fn]
    rfl
  case movt =>
    have op := field_of_masked h 26 6 (by decide)
    have tf := field_of_masked h 16 2 (by decide)
    have sa := field_of_masked h 6 5 (by decide)
    have fn := field_of_masked h 0 6 (by decide)
    simp [decode, Except.map, decodeSpecial, keepIf, opcodeOf, tfOf, saOf, functOf, op, tf, sa, fn]
    rfl
  case jalr | jalrHb =>
    have op := field_of_masked h 26 6 (by decide)
    have rt := field_of_masked h 16 5 (by decide)
    have sa := field_of_masked h 6 5 (by decide)
    have fn := field_of_masked h 0 6 (by decide)
    simp [decode, Except.map, decodeSpecial, decodeJalr, keepIf, opcodeOf, rtOf, saOf, functOf, op, rt, sa, fn]
    rfl
  case div | divu | mult | multu | madd | maddu | msub | msubu =>
    have op := field_of_masked h 26 6 (by decide)
    have rd := field_of_masked h 11 5 (by decide)
    have sa := field_of_masked h 6 5 (by decide)
    have fn := field_of_masked h 0 6 (by decide)
    simp [decode, Except.map, decodeSpecial, decodeSpecial2, keepIf, opcodeOf, rdOf, saOf, functOf, op, rd, sa, fn]
    rfl
  case mthi | mtlo | jr | jrHb =>
    have op := field_of_masked h 26 6 (by decide)
    have rt := field_of_masked h 16 5 (by decide)
    have rd := field_of_masked h 11 5 (by decide)
    have sa := field_of_masked h 6 5 (by decide)
    have fn := field_of_masked h 0 6 (by decide)
    simp [decode, Except.map, decodeSpecial, decodeJr, keepIf, opcodeOf, rtOf, rdOf, saOf, functOf, op, rt, rd, sa, fn]
    rfl
  case sync =>
    have op := field_of_masked h 26 6 (by decide)
    have rs := field_of_masked h 21 5 (by decide)
    have rt := field_of_masked h 16 5 (by decide)
    have rd := field_of_masked h 11 5 (by decide)
    have fn := field_of_masked h 0 6 (by decide)
    simp [decode, Except.map, decodeSpecial, keepIf, opcodeOf, rsOf, rtOf, rdOf, functOf, op, rs, rt, rd, fn]
    rfl
  all_goals
    have op := field_of_masked h 26 6 (by decide)
    simp [decode, Except.map, opcodeOf, op]
    rfl

/-- The same, with the instruction: the row is its own or the one that its own takes words of. -/
theorem exists_decode_of_holds {i : Instr} {w : Word} (h : (tableRow i).holds w) :
    ∃ j, decode w = .ok j ∧ (tableRow i = coreRow j ∨ tableRow i = tableRow j) := by
  have row := decodes_of_holds h
  cases run : decode w with
  | error e => rw [run] at row; rcases row with row | row <;> cases row
  | ok j =>
    rw [run] at row
    exact ⟨j, rfl, row.imp (fun e => (Except.ok.inj e).symm) fun e => (Except.ok.inj e).symm⟩

/-- Settles O3: a word that decodes is the encoding of its instruction, hence a word of that row; and a word of a row is
decoded by the fields that the row's mask covers (R112, R114, R116). -/
theorem decodesExactlyTheTable : Obligations.DecodesExactlyTheTable := by
  have row (w : Word) (i : Instr) (h : decode w = .ok i) : (tableRow i).holds w :=
    (decode_sound w i h).1 ▸ tableRow_holds_encode i
  refine ⟨fun w => ⟨fun ⟨i, h⟩ => ⟨_, tableRow_mem i, row w i h⟩, fun ⟨r, hr, h⟩ => ?_⟩, row⟩
  obtain ⟨i, rfl⟩ := exists_tableRow r hr
  obtain ⟨j, run, -⟩ := exists_decode_of_holds h
  exact ⟨j, run⟩

/-! ## No word stands in two rows (R113) -/

/-- The fixed bits of a row lie under its mask. -/
theorem bits_under_mask (i : Instr) : (tableRow i).bits &&& (tableRow i).mask = (tableRow i).bits := by
  have word : encode i &&& (tableRow i).mask = (tableRow i).bits := tableRow_holds_encode i
  rw [← word, BitVec.and_assoc, BitVec.and_self]

/-- Two rows that agree wherever both fix a bit have a word in common. -/
theorem holds_both {r q : Row} (hr : r.bits &&& r.mask = r.bits) (hq : q.bits &&& q.mask = q.bits)
    (agree : ∀ b : Nat, b < 32 → r.mask.getLsbD b = true → q.mask.getLsbD b = true →
      r.bits.getLsbD b = q.bits.getLsbD b) :
    r.holds (r.bits ||| q.bits) ∧ q.holds (r.bits ||| q.bits) := by
  have bit {x : Row} (hx : x.bits &&& x.mask = x.bits) (b : Nat) :
      (x.bits.getLsbD b && x.mask.getLsbD b) = x.bits.getLsbD b := by rw [← BitVec.getLsbD_and, hx]
  constructor <;>
  · apply BitVec.eq_of_getLsbD_eq
    intro b hb
    have same := agree b hb
    have inR := bit hr b
    have inQ := bit hq b
    rw [BitVec.getLsbD_and, BitVec.getLsbD_or]
    grind

/-- Settles O4: two rows that agree wherever both fix a bit have a word in common, which decodes to an instruction whose
row, or the row that its own takes words of, is each of the two. The other two clauses are read off the table (R113). -/
theorem tableRowsDisjoint : Obligations.TableRowsDisjoint := by
  refine ⟨fun r hr q hq ne notAlias notAlias' => ?_, rfl, by decide⟩
  obtain ⟨i, rfl⟩ := exists_tableRow r hr
  obtain ⟨k, rfl⟩ := exists_tableRow q hq
  by_contra none
  push Not at none
  obtain ⟨inRow, inRow'⟩ := holds_both (bits_under_mask i) (bits_under_mask k) none
  obtain ⟨j, run, rowI⟩ := exists_decode_of_holds inRow
  obtain ⟨j', run', rowK⟩ := exists_decode_of_holds inRow'
  obtain rfl : j = j' := Except.ok.inj (run.symm.trans run')
  have core := aliasOf_coreRow j
  grind

/-- Settles O5: the decoder evaluated at each of the words. -/
theorem decodesTheSpecWords : Obligations.DecodesTheSpecWords := by
  unfold Obligations.DecodesTheSpecWords
  decide

end Sys2Proof
end

/-! # The step (10_state.md): the invariant, the stale words, precise exceptions, and who writes what -/

section
namespace Sys2Proof.Machine

/-! ## The invariant is kept -/

/-- A store keeps the canonical form of memory, and nothing else writes it. -/
theorem Changes.keeps_memWf {i : Instr} {s u : State} (hc : Changes i s u) (h : Memory.wf s.mem = true) :
    Memory.wf u.mem = true := by
  rcases hc.mem with ⟨mem, -⟩ | ⟨-, a, bs, mem, -⟩
  · rwa [mem]
  · rw [mem]
    exact storeBytes_wf s a bs h

/-- A store keeps the canonical form of the stale set, and nothing else writes it. -/
theorem Changes.keeps_staleWf {i : Instr} {s u : State} (hc : Changes i s u) (h : staleWf s.stale = true) :
    staleWf u.stale = true := by
  rcases hc.mem with ⟨-, stale⟩ | ⟨-, a, bs, -, stale⟩
  · rwa [stale]
  · rw [stale]
    exact storeBytes_staleWf s a bs h

/-- A reservation that an instruction leaves is the old one, or is LL's, at an aligned address (R225). -/
theorem Changes.keeps_reservation {i : Instr} {s u : State} (hc : Changes i s u)
    (h : s.llbit = true → s.lladdr.toNat % 4 = 0) (held : u.llbit = true) : u.lladdr.toNat % 4 = 0 := by
  rcases hc.reserved with ⟨bit, addr⟩ | ⟨-, gone, -⟩ | ⟨-, aligned⟩
  · rw [addr]
    exact h (bit ▸ held)
  · simp [gone] at held
  · exact aligned

/-- What an instruction that raises nothing leaves, whatever it does to pc, npc and ds, as long as npc is pc + 4 outside a
delay slot. -/
theorem Changes.inv_moved {i : Instr} {s u t : State} (hc : Changes i s u) (h : Inv s) (running : s.outcome = Option.none)
    (regs : t.regs = u.regs) (mem : t.mem = u.mem) (stale : t.stale = u.stale) (llbit : t.llbit = u.llbit)
    (lladdr : t.lladdr = u.lladdr) (outcome : t.outcome = u.outcome)
    (sequential : t.params.delaySlots = true → t.ds = false → t.npc = t.pc + 4#32) : Inv t where
  regZero := by
    simp only [regs]
    exact hc.keeps_regZero h.regZero
  mem := mem ▸ hc.keeps_memWf h.mem
  stale := stale ▸ hc.keeps_staleWf h.stale
  sequential := sequential
  reservation held := lladdr ▸ hc.keeps_reservation h.reservation (llbit ▸ held)
  outcome o ended := by simp [outcome, hc.outcome, running] at ended

/-- An exception names the instruction at pc or the branch before it, and changes nothing else (R356). -/
theorem Inv.trapped {s : State} (h : Inv s) (c : Cause) (w : Option Why) (b : Option Word) :
    Inv { s with outcome := some (trapRecord s c w b) } where
  regZero := h.regZero
  mem := h.mem
  stale := h.stale
  sequential := h.sequential
  reservation := h.reservation
  outcome := by
    rintro _ ⟨⟩
    exact ⟨rfl, rfl⟩

/-- An instruction that starts from a state of the invariant leaves one. -/
theorem Effect.keeps_inv {i : Instr} {s t : State} (h : Effect i s t) (inv : Inv s) (running : s.outcome = none) :
    Inv t := by
  cases h with
  | raised c w b may why addr eq =>
    rw [eq]
    exact inv.trapped c w b
  | advanced u seq changes eq =>
    subst eq
    refine changes.inv_moved inv running (by simp) (by simp) (by simp) (by simp) (by simp) (by simp) fun slots _ => ?_
    simp only [advance_params] at slots
    simp [advance, slots]
  | transferred u c target tr slot link changes eq =>
    subst eq
    refine changes.inv_moved inv running (by simp) (by simp) (by simp) (by simp) (by simp) (by simp) fun slots ds => ?_
    simp only [transfer_params] at slots
    simp [transfer_ds u c target slots] at ds

/-- Settles O12: a step raises at the fetch or is the effect of an instruction, and each keeps the invariant. -/
theorem stepKeepsInv : Obligations.StepKeepsInv := by
  intro s t inv h
  obtain ⟨running, ⟨-, raised⟩ | ⟨-, -, i, -, run⟩⟩ := step_next h
  · rw [raised, ← trapRecord_eq]
    exact inv.trapped ..
  · exact (exec_effect i s t run).keeps_inv inv running

/-! ## The stale words (R39, R75) -/

/-- An instruction that changes a byte leaves its word stale, and no word stops being stale. -/
theorem Effect.written_stale {i : Instr} {s t : State} (h : Effect i s t) :
    (∀ a : Word, memByte t a ≠ memByte s a → (wordAddr a).toNat ∈ t.stale) ∧ ∀ n ∈ s.stale, n ∈ t.stale := by
  cases h with
  | raised c w b may why addr eq =>
    subst eq
    exact ⟨fun a changed => absurd rfl changed, fun n hn => hn⟩
  | advanced u seq changes eq =>
    subst eq
    simpa [memByte] using changes.written_stale
  | transferred u c target tr slot link changes eq =>
    subst eq
    simpa [memByte] using changes.written_stale

/-- A step that raises at the fetch changes the outcome alone, and so does every step from a stale word. -/
theorem step_of_stale {s t : State} (stale : (wordAddr s.pc).toNat ∈ s.stale) (h : step s = .next t) :
    t = { s with outcome := t.outcome } := by
  obtain ⟨-, ⟨-, raised⟩ | ⟨-, fresh, -⟩⟩ := step_next h
  · rw [raised]
  · exact absurd stale fresh

/-- Settles O14: the bytes and the stale set are written together, by stores alone, and the fetch stops at a stale word
(R39, R75, R397). -/
theorem writtenWordsStayStale : Obligations.WrittenWordsStayStale := by
  intro s t h
  have written : (∀ a : Word, memByte t a ≠ memByte s a → (wordAddr a).toNat ∈ t.stale) ∧
      ∀ n ∈ s.stale, n ∈ t.stale := by
    obtain ⟨-, ⟨-, raised⟩ | ⟨-, -, i, -, run⟩⟩ := step_next h
    · rw [raised]
      exact ⟨fun a changed => absurd rfl changed, fun n hn => hn⟩
    · exact (exec_effect i s t run).written_stale
  exact ⟨written.1, written.2, fun stale u next => step_of_stale stale next⟩

/-! ## Precise exceptions (R356, R357) -/

/-- An instruction that ends a run has taken one of its exceptions, and done nothing else. -/
theorem Effect.of_ended {i : Instr} {s t : State} {o : Trapped} (h : Effect i s t) (running : s.outcome = none)
    (ended : t.outcome = some o) :
    ∃ c w b, mayRaise i c = true ∧ w = (if c = .reservedInstruction then some .hwrDisabled else none) ∧
      (b.isSome = true ↔ c = .addressErrorLoad ∨ c = .addressErrorStore) ∧ o = trapRecord s c w b ∧
      t = { s with outcome := some o } := by
  cases h with
  | raised c w b may why addr eq =>
    subst eq
    cases ended
    exact ⟨c, w, b, may, why, addr, rfl, rfl⟩
  | advanced u seq changes eq => simp [eq, changes.outcome, running] at ended
  | transferred u c target tr slot link changes eq => simp [eq, changes.outcome, running] at ended

/-- Settles O16: a run ends by one record, made of the old state, and by nothing else (R356, R357). -/
theorem exceptionsArePrecise : Obligations.ExceptionsArePrecise := by
  intro s t o running h ended
  have record : ∃ c w b, o = trapRecord s c w b ∧ t = { s with outcome := some o } := by
    obtain ⟨-, ⟨-, raised⟩ | ⟨-, -, i, -, run⟩⟩ := step_next h
    · rw [TrapsWith, ← trapRecord_eq] at raised
      subst raised
      cases ended
      exact ⟨_, _, _, rfl, rfl⟩
    · obtain ⟨c, w, b, -, -, -, eq, same⟩ := (exec_effect i s t run).of_ended running ended
      exact ⟨c, w, b, eq, same⟩
  obtain ⟨c, w, b, rfl, same⟩ := record
  exact ⟨same, rfl, rfl⟩

/-- Settles O17: what an instruction can have raised is said once for all 98 (R350, R352, R353(d)). -/
theorem causeIsTheInstructions : Obligations.CauseIsTheInstructions := by
  intro i s t o running run ended
  obtain ⟨c, w, b, may, why, addr, rfl, -⟩ := (exec_effect i s t run).of_ended running ended
  exact ⟨may, addr, why⟩

/-! ## Who writes what (R44) -/

/-- What an instruction leaves of the registers it does not write, whatever it does to pc. -/
theorem Effect.readReg_other {i : Instr} {s t : State} (h : Effect i s t) (r : Reg) (other : destReg i ≠ some r) :
    readReg t r = readReg s r := by
  cases h with
  | raised c w b may why addr eq => rw [eq]; rfl
  | advanced u seq changes eq => rw [eq, readReg_advance, changes.readReg_other r other]
  | transferred u c target tr slot link changes eq => rw [eq, readReg_transfer, changes.readReg_other r other]

/-- Settles O18: the one register an instruction writes is its destination (R44). -/
theorem onlyDestinationChanges : Obligations.OnlyDestinationChanges :=
  fun i s t r run other => (exec_effect i s t run).readReg_other r other

/-- The pieces of the state that the listed instructions alone write (R44). -/
structure KeepsUnlisted (i : Instr) (s t : State) : Prop where
  memory      : isStore i = false → t.mem = s.mem ∧ t.stale = s.stale
  acc         : writesHiLo i = false → AccSame s t
  reservation : writesReservation i = false → ReservationSame s t
  cc          : t.cc = s.cc
  params      : t.params = s.params

theorem Changes.keepsUnlisted {i : Instr} {s u : State} (hc : Changes i s u) : KeepsUnlisted i s u where
  memory other := hc.mem.resolve_right (by simp [other])
  acc other := hc.acc.resolve_right (by simp [other])
  reservation other := hc.reserved.resolve_right (by simp [other])
  cc := hc.cc
  params := hc.params

theorem Effect.keepsUnlisted {i : Instr} {s t : State} (h : Effect i s t) : KeepsUnlisted i s t := by
  cases h with
  | raised c w b may why addr eq =>
    subst eq
    exact ⟨fun _ => ⟨rfl, rfl⟩, fun _ => ⟨rfl, rfl⟩, fun _ => ⟨rfl, rfl⟩, rfl, rfl⟩
  | advanced u seq changes eq =>
    obtain ⟨memory, acc, reservation, cc, params⟩ := changes.keepsUnlisted
    subst eq
    exact ⟨by simpa using memory, by simpa [AccSame] using acc, by simpa [ReservationSame] using reservation,
      by simpa using cc, by simpa using params⟩
  | transferred u c target tr slot link changes eq =>
    obtain ⟨memory, acc, reservation, cc, params⟩ := changes.keepsUnlisted
    subst eq
    exact ⟨by simpa using memory, by simpa [AccSame] using acc, by simpa [ReservationSame] using reservation,
      by simpa using cc, by simpa using params⟩

/-- Settles O19: an instruction that is not listed for a piece of the state leaves it, before pc moves and after (R44). -/
theorem onlyTheListedInstructionsWrite : Obligations.OnlyTheListedInstructionsWrite := by
  intro i s t run
  obtain ⟨memory, acc, reservation, cc, params⟩ := (exec_effect i s t run).keepsUnlisted
  exact ⟨memory, acc, reservation, cc, params⟩

/-- Settles O13: a step raises at the fetch, or is an instruction, and none writes a parameter or a condition code
(R5, R37, R40). -/
theorem parametersAndConditionCodesNeverChange : Obligations.ParametersAndConditionCodesNeverChange := by
  intro s t h
  refine ⟨step_params h, ?_⟩
  obtain ⟨-, ⟨-, raised⟩ | ⟨-, -, i, -, run⟩⟩ := step_next h
  · rw [raised]
  · exact (exec_effect i s t run).keepsUnlisted.cc

/-! ## The advance of pc (R35, R180) -/

/-- An instruction that goes on without an exception, and is no branch or jump, has advanced. -/
theorem Effect.advanced_of_running {i : Instr} {s t : State} (h : Effect i s t) (seq : isTransfer i = false)
    (running : t.outcome = none) : Advanced s t := by
  cases h with
  | raised c w b may why addr eq => simp [eq] at running
  | advanced u _ changes eq =>
    rw [eq]
    exact advanced_of changes.params changes.pc changes.npc
  | transferred u c target tr slot link changes eq => simp [seq] at tr

/-- Settles O21 (R35). -/
theorem sequentialAdvance : Obligations.SequentialAdvance :=
  fun i s t seq run running => (exec_effect i s t run).advanced_of_running seq running

/-- No branch or jump completes in a delay slot (R181). -/
theorem Effect.sequential_in_slot {i : Instr} {s t : State} (h : Effect i s t) (slot : inDelaySlot s = true)
    (running : t.outcome = none) : isTransfer i = false := by
  cases h with
  | raised c w b may why addr eq => simp [eq] at running
  | advanced u seq changes eq => exact seq
  | transferred u c target tr outside link changes eq => simp [slot] at outside

/-- Settles O22: the transfer sets ds, so the instruction after it is no branch or jump, and advances from the pc and npc
that the transfer has left (R180, R181). -/
theorem delaySlotThenTarget : Obligations.DelaySlotThenTarget := by
  intro s t u link taken target i slots sequential transfers run running
  obtain ⟨-, params, -⟩ := transfers.fixed
  have moved := transfers.pc
  rw [Transferred, if_pos slots] at moved
  obtain ⟨pc, npcTaken, npcNot, ds⟩ := moved
  have slot : inDelaySlot t = true := (inDelaySlot_iff t).mpr ⟨params ▸ slots, ds⟩
  have seq := (exec_effect i t u run).sequential_in_slot slot running
  have advanced := (exec_effect i t u run).advanced_of_running seq running
  rw [Advanced, if_pos (params ▸ slots)] at advanced
  obtain ⟨pc', npc', ds'⟩ := advanced
  refine ⟨pc.trans sequential, ds, seq, fun h => ?_, fun h => ?_, ds'⟩
  · rw [pc', npc', npcTaken h]
    exact ⟨rfl, rfl⟩
  · rw [pc', npc', npcNot h, sequential]
    exact ⟨by bv_omega, by bv_omega⟩

end Sys2Proof.Machine
end

/-! # HI and LO (10_state.md R33): they reach nothing but each other -/

section
namespace Sys2Proof.Machine

/-- The state with other values in HI and LO. -/
def withHiLo (s : State) (h l : Word) : State := { s with hi := h, lo := l }

/-- Two answers that differ in HI and LO alone. -/
inductive AgreeButHiLo : Result → Result → Prop where
  | next (t : State) (h l : Word) : AgreeButHiLo (.next t) (.next (withHiLo t h l))
  | fault (f : Fault) : AgreeButHiLo (.fault f) (.fault f)
  | refused (r : Refusal) : AgreeButHiLo (.refused r) (.refused r)

/-! ## The operations do not look at HI and LO -/

theorem advance_withHiLo (s : State) (h l : Word) : advance (withHiLo s h l) = withHiLo (advance s) h l := by
  unfold advance
  rw [apply_ite (withHiLo · h l)]
  rfl

theorem transfer_withHiLo (s : State) (h l : Word) (c : Bool) (a : Word) :
    transfer (withHiLo s h l) c a = withHiLo (transfer s c a) h l := by
  unfold transfer
  rw [apply_ite (withHiLo · h l)]
  rfl

theorem writeReg_withHiLo (s : State) (h l : Word) (d : Reg) (v : Word) :
    writeReg (withHiLo s h l) d v = withHiLo (writeReg s d v) h l := by
  unfold writeReg
  rw [apply_ite (withHiLo · h l)]
  rfl

theorem storeBytes_withHiLo (s : State) (h l : Word) (a : Word) (bs : List Byte) :
    storeBytes (withHiLo s h l) a bs = withHiLo (storeBytes s a bs) h l := by
  induction bs generalizing s a with
  | nil => rfl
  | cons b bs ih => exact ih (storeByte s a b) (a + 1#32)

theorem admitsAll_withHiLo (s : State) (h l : Word) (k : Access) (a : Word) (n : Nat) :
    admitsAll (withHiLo s h l) k a n = admitsAll s k a n := by
  induction n generalizing a with
  | zero => rfl
  | succ n ih => exact congrArg (admits s k a && ·) (ih (a + 1#32))

/-! ## The shapes of a meaning agree -/

theorem AgreeButHiLo.ite {c : Prop} [Decidable c] {a b a' b' : Result} (ha : AgreeButHiLo a a')
    (hb : AgreeButHiLo b b') : AgreeButHiLo (if c then a else b) (if c then a' else b') := by
  split
  · exact ha
  · exact hb

section
variable (s : State) (h l : Word)

theorem complete_agree : AgreeButHiLo (complete s) (complete (withHiLo s h l)) := by
  rw [complete, complete, advance_withHiLo]
  exact .next ..

/-- An instruction that writes HI and LO completes alike whatever it writes there. -/
theorem complete_hiLo_agree (h' l' : Word) :
    AgreeButHiLo (complete (withHiLo s h l)) (complete (withHiLo s h' l')) :=
  complete_agree (withHiLo s h l) h' l'

theorem completeReg_agree (d : Reg) (v : Word) :
    AgreeButHiLo (completeReg s d v) (completeReg (withHiLo s h l) d v) := by
  rw [completeReg, completeReg, writeReg_withHiLo]
  exact complete_agree ..

theorem takeException_agree (c : Cause) (w : Option Why) (b : Option Word) :
    AgreeButHiLo (takeException s c w b) (takeException (withHiLo s h l) c w b) := .next ..

theorem transfer_agree (c : Bool) (a : Word) :
    AgreeButHiLo (.next (transfer s c a)) (.next (transfer (withHiLo s h l) c a)) := by
  rw [transfer_withHiLo]
  exact .next ..

theorem transfer_link_agree (d : Reg) (v : Word) (c : Bool) (a : Word) :
    AgreeButHiLo (.next (transfer (writeReg s d v) c a)) (.next (transfer (writeReg (withHiLo s h l) d v) c a)) := by
  rw [writeReg_withHiLo]
  exact transfer_agree ..

theorem controlTransfer_agree {k k' : Result} (hk : AgreeButHiLo k k') :
    AgreeButHiLo (controlTransfer s k) (controlTransfer (withHiLo s h l) k') := .ite (.fault _) hk

theorem checkedLoad_agree (ea : Word) (n : Nat) {k k' : Result} (hk : AgreeButHiLo k k') :
    AgreeButHiLo (checkedLoad s ea n k) (checkedLoad (withHiLo s h l) ea n k') := by
  rw [checkedLoad, checkedLoad, admitsAll_withHiLo]
  exact .ite (takeException_agree ..) (.ite hk (.fault _))

theorem checkedStore_agree (ea : Word) (n : Nat) {k k' : Result} (hk : AgreeButHiLo k k') :
    AgreeButHiLo (checkedStore s ea n k) (checkedStore (withHiLo s h l) ea n k') := by
  rw [checkedStore, checkedStore, admitsAll_withHiLo]
  exact .ite (takeException_agree ..) (.ite hk (.fault _))

theorem complete_storeBytes_agree (a : Word) (bs : List Byte) :
    AgreeButHiLo (complete (storeBytes s a bs)) (complete (storeBytes (withHiLo s h l) a bs)) := by
  rw [storeBytes_withHiLo]
  exact complete_agree ..

theorem addTrapping_agree (d : Reg) (a b : Word) :
    AgreeButHiLo (addTrapping s d a b) (addTrapping (withHiLo s h l) d a b) :=
  .ite (takeException_agree ..) (completeReg_agree ..)

theorem subTrapping_agree (d : Reg) (a b : Word) :
    AgreeButHiLo (subTrapping s d a b) (subTrapping (withHiLo s h l) d a b) :=
  .ite (takeException_agree ..) (completeReg_agree ..)

theorem trapIf_agree (c : Bool) : AgreeButHiLo (trapIf s c) (trapIf (withHiLo s h l) c) :=
  .ite (takeException_agree ..) (complete_agree ..)

theorem moveIf_agree (c : Bool) (rd rs : Reg) : AgreeButHiLo (moveIf s c rd rs) (moveIf (withHiLo s h l) c rd rs) :=
  .ite (completeReg_agree s h l rd _) (complete_agree ..)

theorem branchIf_agree (c : Bool) (off : Half) : AgreeButHiLo (branchIf s c off) (branchIf (withHiLo s h l) c off) :=
  controlTransfer_agree s h l (transfer_agree s h l c _)

theorem branchLinkIf_agree (c : Bool) (off : Half) :
    AgreeButHiLo (branchLinkIf s c off) (branchLinkIf (withHiLo s h l) c off) :=
  controlTransfer_agree s h l (transfer_link_agree s h l _ _ c _)

theorem branchLinkOn_agree (rs : Reg) (c : Bool) (off : Half) :
    AgreeButHiLo (branchLinkOn s rs c off) (branchLinkOn (withHiLo s h l) rs c off) :=
  controlTransfer_agree s h l (.ite (.fault _) (branchLinkIf_agree s h l c off))

theorem jumpLinkReg_agree (rd rs : Reg) :
    AgreeButHiLo (jumpLinkReg s rd rs) (jumpLinkReg (withHiLo s h l) rd rs) :=
  controlTransfer_agree s h l (.ite (.fault _) (transfer_link_agree s h l rd _ true _))

theorem finishSc_agree (rt : Reg) (ea old : Word) (ok : Bool) :
    AgreeButHiLo (finishSc s rt ea old ok) (finishSc (withHiLo s h l) rt ea old ok) := by
  cases ok with
  | false => exact completeReg_agree { s with llbit := false } h l rt _
  | true =>
    unfold finishSc
    simp only [if_true, storeBytes_withHiLo]
    exact completeReg_agree { storeBytes s ea _ with llbit := false } h l rt _

theorem execSc_agree (rt : Reg) (off : Half) (base : Reg) :
    AgreeButHiLo (execSc rt off base s) (execSc rt off base (withHiLo s h l)) := by
  unfold execSc
  dsimp only
  rw [admitsAll_withHiLo]
  refine .ite (takeException_agree ..) (.ite (.fault _) (.ite (.ite ?drawn ?certain) (.fault _)))
  case drawn => exact finishSc_agree (drawBit s).2 h l rt _ _ _
  case certain => exact finishSc_agree s h l rt _ _ _

theorem execMul_agree (rd rs rt : Reg) :
    AgreeButHiLo (execMul rd rs rt s) (execMul rd rs rt (withHiLo s h l)) := by
  unfold execMul
  have params : (withHiLo s h l).params.mulHilo = s.params.mulHilo := rfl
  dsimp only
  rw [params]
  cases s.params.mulHilo with
  | product => exact completeReg_agree (writeAcc s _) _ _ rd _
  | unpredictable => exact completeReg_agree (drawAcc s) _ _ rd _

theorem execRdhwr_agree (rt : Reg) (n : BitVec 5) :
    AgreeButHiLo (execRdhwr rt n s) (execRdhwr rt n (withHiLo s h l)) := by
  refine .ite ?_ (takeException_agree ..)
  unfold readHwr
  have params : (withHiLo s h l).params = s.params := rfl
  rw [params]
  cases s.params.hwr[n.toNat] with
  | some v => exact completeReg_agree s h l rt v
  | none => exact completeReg_agree (drawWord s).2 h l rt _

/-! ## Every instruction, and the step -/

/-- An instruction does the same whatever HI and LO hold, but for what it leaves in HI and LO (R33). -/
theorem exec_agree (i : Instr) : AgreeButHiLo (exec i s) (exec i (withHiLo s h l)) := by
  cases i
  case add | addi => exact addTrapping_agree s h l _ _ _
  case sub => exact subTrapping_agree s h l _ _ _
  case clo | clz => exact .ite (.fault _) (completeReg_agree s h l _ _)
  case div | divu => exact .ite (complete_agree (drawAcc s) _ _) (complete_hiLo_agree s _ _ _ _)
  case madd | maddu | msub | msubu | mult | multu | mthi | mtlo => exact complete_hiLo_agree s _ _ _ _
  case mul => exact execMul_agree s h l _ _ _
  case b | beq | bgez | bgtz | blez | bltz | bne => exact branchIf_agree s h l _ _
  case bal => exact branchLinkIf_agree s h l _ _
  case bgezal | bltzal => exact branchLinkOn_agree s h l _ _ _
  case j | jr | jrHb => exact controlTransfer_agree s h l (transfer_agree s h l _ _)
  case jal => exact controlTransfer_agree s h l (transfer_link_agree s h l _ _ _ _)
  case jalr | jalrHb => exact jumpLinkReg_agree s h l _ _
  case ehb | nop | ssnop | pref | sync => exact complete_agree s h l
  case synci => exact .ite (complete_agree s h l) (.fault _)
  case lb | lbu | lh | lhu | lw | lwl | lwr => exact checkedLoad_agree s h l _ _ (completeReg_agree s h l _ _)
  case ll => exact checkedLoad_agree s h l _ _ (completeReg_agree { s with llbit := true, lladdr := _ } h l _ _)
  case sb => exact checkedStore_agree s h l _ _ (complete_storeBytes_agree s h l _ [_])
  case sh | sw | swl | swr => exact checkedStore_agree s h l _ _ (complete_storeBytes_agree s h l _ _)
  case sc => exact execSc_agree s h l _ _ _
  case sd => exact .refused _
  case ext | ins => exact .ite (.fault _) (completeReg_agree s h l _ _)
  case movn | movz => exact moveIf_agree s h l _ _ _
  case movt => exact .ite (moveIf_agree s h l _ _ _) (.refused _)
  case rdhwr => exact execRdhwr_agree s h l _ _
  case breakpoint | syscall => exact takeException_agree s h l _ _ _
  case teq | teqi | tge | tgei | tgeiu | tgeu | tlt | tlti | tltiu | tltu | tne => exact trapIf_agree s h l _
  all_goals exact completeReg_agree s h l _ _

theorem step_agree : AgreeButHiLo (step s) (step (withHiLo s h l)) := by
  have sameFetch : fetch (withHiLo s h l) = fetch s := by
    unfold fetch
    rw [admitsAll_withHiLo]
    rfl
  unfold step
  rw [sameFetch]
  cases running : s.outcome with
  | some o =>
    have running' : (withHiLo s h l).outcome = some o := running
    rw [running']
    exact .fault _
  | none =>
    have running' : (withHiLo s h l).outcome = none := running
    rw [running']
    cases fetch s with
    | misaligned => exact takeException_agree s h l _ _ _
    | notAdmitted => exact .fault _
    | stale => exact .fault _
    | word w =>
      dsimp only
      cases decode w with
      | ok i => exact exec_agree s h l i
      | error reason => exact .refused _
end

/-- Settles O15: a step from a state with other values in HI and LO answers alike, but for HI and LO (R33). -/
theorem hiLoNeverLeak : Obligations.HiLoNeverLeak := by
  intro s h l
  have agree := step_agree s h l
  refine ⟨fun t run => ?_, fun f run => ?_, fun r run => ?_⟩
  all_goals
    rw [run] at agree
    generalize answer : step (withHiLo s h l) = other at agree
    cases agree
  · exact ⟨_, _, answer⟩
  · exact answer
  · exact answer

end Sys2Proof.Machine
end

/-! # The fetch and the reset state (10_state.md R42, R45; 70_reset_and_hazards.md) -/

section
namespace Sys2Proof

/-! ## A word by its bytes -/

/-- Two words with the same four bytes are the same. -/
theorem word_eq_of_bytes {x y : Word} (h : ∀ k : Nat, k < 4 → x.extractLsb' (8 * k) 8 = y.extractLsb' (8 * k) 8) :
    x = y := by
  apply BitVec.eq_of_getLsbD_eq
  intro b hb
  have bit := congrArg (BitVec.getLsbD · (b % 8)) (h (b / 8) (by omega))
  simpa [Nat.mod_lt, Nat.div_add_mod] using bit

end Sys2Proof

namespace Sys2Proof.Machine

/-- Two words of memory order that agree at each place are the same. -/
theorem word_eq_of_ordered_bytes (e : Endian) {x y : Word}
    (h : ∀ k : Nat, k < 4 → x.extractLsb' (8 * (if e = .big then 3 - k else k)) 8 =
      y.extractLsb' (8 * (if e = .big then 3 - k else k)) 8) : x = y := by
  apply word_eq_of_bytes
  intro k hk
  cases e with
  | little => exact h k hk
  | big => simpa [Nat.sub_sub_self (Nat.le_of_lt_succ hk)] using h (3 - k) (by omega)

/-- A word stored in the order of the machine reads back (R61). -/
theorem memWord_storeWord (s : State) (a w : Word) (hm : Memory.wf s.mem = true) :
    memWord (storeBytes s a (splitWord s.params.endian w)) a = w := by
  apply word_eq_of_ordered_bytes s.params.endian
  intro k hk
  have read := memWord_byte (storeBytes s a (splitWord s.params.endian w)) a k hk
  rw [storeBytes_params] at read
  rw [read, memByte_storeWord s a s.params.endian w k hm hk]

/-- What a word reads as depends on the bytes and on the byte order alone. -/
theorem memWord_congr {s t : State} (mem : t.mem = s.mem) (params : t.params = s.params) (a : Word) :
    memWord t a = memWord s a := by
  simp only [memWord, memByte, mem, params]

/-! ## The aligned word of an address -/

/-- The aligned word's address: the address with its two low bits cleared (R42). -/
theorem wordAddr_toNat (a : Word) : (wordAddr a).toNat = a.toNat / 4 * 4 := by
  have cleared : wordAddr a = a >>> 2 <<< 2 := by
    apply BitVec.eq_of_getLsbD_eq
    intro i hi
    simp only [wordAddr, BitVec.getLsbD_and, BitVec.getLsbD_shiftLeft, BitVec.getLsbD_ushiftRight]
    interval_cases i <;> simp
  rw [cleared, BitVec.toNat_shiftLeft, BitVec.toNat_ushiftRight, Nat.shiftRight_eq_div_pow, Nat.shiftLeft_eq]
  have := a.isLt
  omega

theorem wordAddr_of_aligned {a : Word} (h : a.toNat % 4 = 0) : wordAddr a = a := by
  apply BitVec.eq_of_toNat_eq
  rw [wordAddr_toNat]
  omega

/-! ## What a fetch answers (R42 steps 1 to 4) -/

section
variable {s : State}

theorem fetch_misaligned (h4 : s.pc.toNat % 4 ≠ 0) : fetch s = .misaligned := if_pos h4

theorem fetch_notAdmitted (h4 : s.pc.toNat % 4 = 0) (hm : admitsAll s .exec s.pc 4 = false) :
    fetch s = .notAdmitted := by
  simp [fetch, h4, hm]

theorem fetch_stale (h4 : s.pc.toNat % 4 = 0) (hm : admitsAll s .exec s.pc 4 = true)
    (stale : (wordAddr s.pc).toNat ∈ s.stale) : fetch s = .stale := by
  simp [fetch, h4, hm, stale]

theorem fetch_word (h4 : s.pc.toNat % 4 = 0) (hm : admitsAll s .exec s.pc 4 = true)
    (fresh : (wordAddr s.pc).toNat ∉ s.stale) : fetch s = .word (memWord s s.pc) := by
  simp [fetch, h4, hm, fresh]

/-- The step of a word that decodes is the instruction's meaning (R42). -/
theorem step_of_decode {i : Instr} (running : s.outcome = none) (h4 : s.pc.toNat % 4 = 0)
    (hm : admitsAll s .exec s.pc 4 = true) (fresh : (wordAddr s.pc).toNat ∉ s.stale)
    (word : decode (memWord s s.pc) = .ok i) : step s = exec i s := by
  simp only [step, running, fetch_word h4 hm fresh, word]

end

/-- Settles O7: `memWord` is the four bytes at pc in the order of the machine, and a word that decodes is run (R42). -/
theorem stepRunsDecodedInstruction : Obligations.StepRunsDecodedInstruction :=
  fun _ _ running h4 hm fresh word _ => step_of_decode running h4 hm fresh word

/-- Settles O8: each answer is the fetch's, or the decoder's, of the same case (R42, R355). -/
theorem stepStopsInOrder : Obligations.StepStopsInOrder := by
  intro s
  refine ⟨fun ended => ?_, fun running h4 => ?_, fun running h4 hm => ?_, fun running h4 hm stale => ?_,
    fun reason running h4 hm fresh unlisted => ?_⟩
  · obtain ⟨o, ho⟩ := Option.isSome_iff_exists.mp ended
    simp only [step, ho]
  · simp only [step, running, fetch_misaligned h4]
    exact takeException_spec s .addressErrorFetch none (some s.pc)
  · simp only [step, running, fetch_notAdmitted h4 hm]
  · simp only [step, running, fetch_stale h4 hm stale]
  · simp only [step, running, fetch_word h4 hm fresh, unlisted, refuseUnlisted, trapRecord_eq]

/-! ## A placed word (log 15) -/

/-- The memory after a store depends on the memory before it alone. -/
theorem storeBytes_mem_congr {s u : State} (h : u.mem = s.mem) (a : Word) (bs : List Byte) :
    (storeBytes u a bs).mem = (storeBytes s a bs).mem := by
  induction bs generalizing s u a with
  | nil => exact h
  | cons b bs ih => exact ih (by simp [h]) _

/-- Bytes placed from outside are in memory as stored ones are, and nothing else has changed. -/
theorem placeBytes_eq (s : State) (a : Word) (bs : List Byte) :
    placeBytes s a bs = { s with mem := (storeBytes s a bs).mem } := by
  induction bs generalizing s a with
  | nil => rfl
  | cons b bs ih =>
    rw [placeBytes, ih]
    congr 1
    exact storeBytes_mem_congr (s := storeByte s a b) (by rfl) (a + 1#32) bs

/-- What placing a word at an aligned pc does: memory as after a store of it, and the word is not stale. -/
theorem withFetchWord_eq (s : State) (w : Nat) (h4 : s.pc.toNat % 4 = 0) :
    s.withFetchWord 32 w = { s with
      mem := (storeBytes s s.pc (splitWord s.params.endian (BitVec.ofNat 32 w))).mem
      stale := removeAddr s.pc.toNat s.stale } := by
  have word : tableWord 32 w = BitVec.ofNat 32 w := BitVec.eq_of_toNat_eq (by simp [tableWord])
  rw [State.withFetchWord, placeWordAtPc, word, wordAddr_of_aligned h4, placeBytes_eq]

/-- The placed word reads back. -/
theorem memWord_withFetchWord (s : State) (w : Nat) (hm : Memory.wf s.mem = true) (h4 : s.pc.toNat % 4 = 0) :
    memWord (s.withFetchWord 32 w) s.pc = BitVec.ofNat 32 w := by
  have mem : (s.withFetchWord 32 w).mem = (storeBytes s s.pc (splitWord s.params.endian (BitVec.ofNat 32 w))).mem := by
    rw [withFetchWord_eq s w h4]
  have params : (s.withFetchWord 32 w).params = s.params := by rw [withFetchWord_eq s w h4]
  calc memWord (s.withFetchWord 32 w) s.pc
      = memWord (storeBytes s s.pc (splitWord s.params.endian (BitVec.ofNat 32 w))) s.pc :=
        memWord_congr mem (params.trans (storeBytes_params ..).symm) s.pc
    _ = BitVec.ofNat 32 w := memWord_storeWord s s.pc _ hm

/-- Settles O9: memory is as after a store of the word, so the fetch reads it back; the word is no longer stale; and
nothing else has changed. -/
theorem placedWordRunsNext : Obligations.PlacedWordRunsNext := by
  intro s w i hm running h4 exec word
  have read := memWord_withFetchWord s w hm h4
  rw [withFetchWord_eq s w h4] at read ⊢
  refine ⟨step_of_decode running h4 ?admitted ?fresh ?decodes, fun a outside => ?elsewhere, rfl, fun n => ?stale⟩
  case admitted => exact exec
  case fresh =>
    rw [wordAddr_of_aligned h4, mem_removeAddr]
    exact fun both => both.1 rfl
  case decodes =>
    exact (congrArg decode read).trans word
  case elsewhere =>
    exact memByte_storeBytes_ne s s.pc a _ (by simpa using outside)
  case stale => rw [mem_removeAddr, and_comm]

/-! ## The reset state (R45, R391) -/

/-- Settles O10: the reset state holds no reservation and no final outcome, and its npc is pc + 4. -/
theorem resetInv : Obligations.ResetInv where
  regZero := rfl
  mem := reset_mem_wf
  stale := rfl
  sequential _ _ := rfl
  reservation held := nomatch held
  outcome _ ended := nomatch ended

/-- Settles O11: the fields of the reset state, read off. -/
theorem resetValues : Obligations.ResetValues :=
  ⟨readReg_zero _, rfl, by decide, rfl, rfl, rfl, rfl⟩

/-! ## The five rows that take words of a core row (R112, R120) -/

/-- A shift of register 0 into register 0 completes with nothing written (R31). -/
theorem execSll_zero (sa : BitVec 5) (s : State) : execSll 0 0 sa s = complete s :=
  congrArg complete (writeReg_zero s _)

/-- The check for a delay slot made twice is the check made once (R181). -/
theorem controlTransfer_controlTransfer (s : State) (k : Result) :
    controlTransfer s (controlTransfer s k) = controlTransfer s k := by
  unfold controlTransfer
  split <;> rfl

/-- Settles O6: a shift into register 0 writes nothing, and the condition of the core branch holds of register 0. -/
theorem aliasesRunAsTheirCoreInstruction : Obligations.AliasesRunAsTheirCoreInstruction := by
  intro s off
  refine ⟨(execSll_zero 0 s).symm, (execSll_zero 1 s).symm, (execSll_zero 3 s).symm, ?_, ?_⟩
  · simp only [exec, execB, execBeq, beq_self_eq_true]
  · have zero : readReg s 0 = 0#32 := readReg_zero s
    have holds : geZero 0#32 = true := rfl
    have not31 : (0 : Reg) ≠ 31#5 := by decide
    simp only [exec, execBal, execBgezal, zero, holds, branchLinkOn, branchLinkIf, if_neg not31,
      controlTransfer_controlTransfer]

end Sys2Proof.Machine
end

/-! # The arithmetic instructions (40_arithmetic.md R140 to R165) and the moves to HI and LO (46_move.md R293, R294) -/

section
namespace Sys2Proof.Machine

/-! ## Words as residues of exact values -/

theorem ofInt_sub {n : Nat} (x y : Int) : BitVec.ofInt n (x - y) = BitVec.ofInt n x - BitVec.ofInt n y := by
  rw [Int.sub_eq_add_neg, BitVec.ofInt_add, BitVec.ofInt_neg, BitVec.sub_eq_add_neg]

/-- A word is the residue of its unsigned value. -/
theorem ofInt_toNat {n : Nat} (a : BitVec n) : BitVec.ofInt n (a.toNat : Int) = a := by
  rw [BitVec.ofInt_natCast, BitVec.ofNat_toNat, BitVec.setWidth_eq]

/-- The sign-extended immediate is the residue of its signed value (R107). -/
theorem sextImm_eq_ofInt (imm : Half) : sextImm imm = BitVec.ofInt 32 imm.toInt := rfl

@[simp] theorem sextImm_toInt (imm : Half) : (sextImm imm).toInt = imm.toInt :=
  BitVec.toInt_signExtend_of_le (by decide)

/-- The sign-extended immediate taken as unsigned (R160). -/
theorem sextImm_toNat (imm : Half) : ((sextImm imm).toNat : Int) = imm.toInt % 2 ^ 32 := by
  rw [sextImm_eq_ofInt, BitVec.toNat_ofInt]
  omega

/-! ## Adding and subtracting (R140 to R144, R162, R163) -/

/-- A trapping addition by its exact sum (R140, R141). -/
theorem addTrapping_exact (s : State) (d : Reg) (a b : Word) (x : Int) (hx : x = a.toInt + b.toInt) :
    (-2 ^ 31 ≤ x ∧ x ≤ 2 ^ 31 - 1 → ∃ t, addTrapping s d a b = .next t ∧ WritesReg s t d (BitVec.ofInt 32 x)) ∧
      (x < -2 ^ 31 ∨ 2 ^ 31 - 1 < x →
        ∃ t, addTrapping s d a b = .next t ∧ TrapsWith s t .integerOverflow none none) := by
  obtain ⟨t, run, traps, writes⟩ := addTrapping_spec s d a b
  have overflow := addOverflows_iff a b
  rw [← hx] at overflow
  have sum : BitVec.ofInt 32 x = a + b := by rw [hx, BitVec.ofInt_add, BitVec.ofInt_toInt, BitVec.ofInt_toInt]
  refine ⟨fun fits => ⟨t, run, ?_⟩, fun exceeds => ⟨t, run, traps (overflow.mpr (by omega))⟩⟩
  rw [sum]
  exact writes (eq_false_of_ne_true fun excess => by have := overflow.mp excess; omega)

/-- A trapping subtraction by its exact difference (R140, R162). -/
theorem subTrapping_exact (s : State) (d : Reg) (a b : Word) (x : Int) (hx : x = a.toInt - b.toInt) :
    (-2 ^ 31 ≤ x ∧ x ≤ 2 ^ 31 - 1 → ∃ t, subTrapping s d a b = .next t ∧ WritesReg s t d (BitVec.ofInt 32 x)) ∧
      (x < -2 ^ 31 ∨ 2 ^ 31 - 1 < x →
        ∃ t, subTrapping s d a b = .next t ∧ TrapsWith s t .integerOverflow none none) := by
  obtain ⟨t, run, traps, writes⟩ := subTrapping_spec s d a b
  have overflow := subOverflows_iff a b
  rw [← hx] at overflow
  have difference : BitVec.ofInt 32 x = a - b := by rw [hx, ofInt_sub, BitVec.ofInt_toInt, BitVec.ofInt_toInt]
  refine ⟨fun fits => ⟨t, run, ?_⟩, fun exceeds => ⟨t, run, traps (overflow.mpr (by omega))⟩⟩
  rw [difference]
  exact writes (eq_false_of_ne_true fun excess => by have := overflow.mp excess; omega)

/-- Settles O23: the overflow test is that the exact result leaves the range, and inside it the result mod 2^32 is exact
(R140, R141, R142, R162). -/
theorem addAddiSub : Obligations.AddAddiSub := fun s d rs rt imm =>
  ⟨fun x hx => addTrapping_exact s d _ _ x hx,
   fun x hx => addTrapping_exact s d _ (sextImm imm) x (hx.trans (by rw [sextImm_toInt])),
   fun x hx => subTrapping_exact s d _ _ x hx⟩

/-- An instruction that completes with a value, under another name of the value. -/
theorem completeReg_value (s : State) (d : Reg) {v w : Word} (h : v = w) :
    ∃ t, completeReg s d v = .next t ∧ WritesReg s t d w := h ▸ completeReg_spec s d v

/-- Settles O24: addition and subtraction of words are those of their values, mod 2^32 (R143, R144, R163). -/
theorem adduAddiuSubu : Obligations.AdduAddiuSubu := by
  refine fun s d rs rt imm => ⟨completeReg_value s d ?addu, completeReg_value s d ?addiu, completeReg_value s d ?subu⟩
  case addu => rw [BitVec.ofNat_add, BitVec.ofNat_toNat, BitVec.ofNat_toNat, BitVec.setWidth_eq, BitVec.setWidth_eq]
  case addiu => rw [BitVec.ofInt_add, ofInt_toNat, sextImm_eq_ofInt]
  case subu => rw [ofInt_sub, ofInt_toNat, ofInt_toNat]

/-! ## Counting (R145, R146) -/

/-- Settles O25: the run of leading bits, counted from bit 31 down. -/
theorem countLeading_holds : Obligations.CountLeading := by
  intro s rd rs b
  obtain ⟨short, run, stop⟩ := leadingRun_spec b (readReg s rs) 32
  refine ⟨leadingRun b (readReg s rs) 32, short, run, fun h => Bool.eq_not_of_ne (stop h), ?_⟩
  cases b
  · exact countLeading_spec s false rd rs
  · exact countLeading_spec s true rd rs

/-! ## Dividing (R147, R148, R165) -/

/-- What DIV does with a divisor that is not zero (R147). -/
theorem execDiv_spec (s : State) (rs rt : Reg) (h : readReg s rt ≠ 0#32) :
    ∃ t, execDiv rs rt s = .next t ∧
      WritesHiLo s t (BitVec.ofInt 32 ((readReg s rs).toInt.tmod (readReg s rt).toInt))
        (BitVec.ofInt 32 ((readReg s rs).toInt.tdiv (readReg s rt).toInt)) := by
  obtain ⟨t, run, writes⟩ := complete_hiLo_spec s _ _
  exact ⟨t, (if_neg h).trans run, writes⟩

/-- What DIVU does with a divisor that is not zero (R148). -/
theorem execDivu_spec (s : State) (rs rt : Reg) (h : readReg s rt ≠ 0#32) :
    ∃ t, execDivu rs rt s = .next t ∧
      WritesHiLo s t (BitVec.ofNat 32 ((readReg s rs).toNat % (readReg s rt).toNat))
        (BitVec.ofNat 32 ((readReg s rs).toNat / (readReg s rt).toNat)) := by
  obtain ⟨t, run, writes⟩ := complete_hiLo_spec s _ _
  exact ⟨t, (if_neg h).trans run, writes⟩

/-- DIV by zero leaves free values (R147). -/
theorem execDiv_zero (s : State) (rs rt : Reg) (h : readReg s rt = 0#32) :
    ∃ t, execDiv rs rt s = .next t ∧ FreesHiLo s t := by
  obtain ⟨t, run, frees⟩ := complete_drawAcc_spec s
  exact ⟨t, (if_pos h).trans run, frees⟩

/-- DIVU by zero leaves free values (R148). -/
theorem execDivu_zero (s : State) (rs rt : Reg) (h : readReg s rt = 0#32) :
    ∃ t, execDivu rs rt s = .next t ∧ FreesHiLo s t := by
  obtain ⟨t, run, frees⟩ := complete_drawAcc_spec s
  exact ⟨t, (if_pos h).trans run, frees⟩

theorem toInt_ne_zero {a : Word} (h : a ≠ 0#32) : a.toInt ≠ 0 :=
  fun zero => h (BitVec.toInt_inj.mp zero)

theorem toNat_pos {a : Word} (h : a ≠ 0#32) : 0 < a.toNat :=
  Nat.pos_of_ne_zero fun zero => h (BitVec.eq_of_toNat_eq zero)

/-- The remainder of a division toward zero has the sign of the dividend (R147). -/
theorem tmod_nonpos {a : Int} (b : Int) (h : a ≤ 0) : a.tmod b ≤ 0 := by
  have flipped := Int.tmod_nonneg b (Int.neg_nonneg.mpr h)
  rw [Int.neg_tmod] at flipped
  omega

/-- Settles O26: quotient and remainder are those of division toward zero, signed, and of division of naturals, unsigned
(R147, R148). -/
theorem divide : Obligations.Divide := by
  intro s rs rt
  refine ⟨fun h => ⟨_, _, ?_, ?_, fun pos => ?_, fun neg => ?_, execDiv_spec s rs rt h⟩,
    fun h => ⟨_, _, ?_, ?_, execDivu_spec s rs rt h⟩, execDiv_zero s rs rt, execDivu_zero s rs rt⟩
  · exact (Int.tdiv_mul_add_tmod _ _).symm
  · rw [Int.natAbs_tmod]
    exact Nat.mod_lt _ (Int.natAbs_pos.mpr (toInt_ne_zero h))
  · exact Int.tmod_nonneg _ pos
  · exact tmod_nonpos _ neg
  · exact (Nat.div_add_mod' _ _).symm
  · exact Nat.mod_lt _ (toNat_pos h)

/-- Settles O27: the rows are divisions toward zero; the equation of the exact values holds of the words mod 2^32
(R165). -/
theorem signedDivisionTable : Obligations.SignedDivisionTable := by
  intro s rs rt
  refine ⟨fun row hrow dividend divisor => ?_, execDiv_zero s rs rt, fun h => ?_⟩
  · have rows : BitVec.ofInt 32 row.2.1 ≠ 0#32 ∧
        BitVec.ofInt 32 ((BitVec.ofInt 32 row.1).toInt.tdiv (BitVec.ofInt 32 row.2.1).toInt) =
          BitVec.ofInt 32 row.2.2.1 ∧
        BitVec.ofInt 32 ((BitVec.ofInt 32 row.1).toInt.tmod (BitVec.ofInt 32 row.2.1).toInt) =
          BitVec.ofInt 32 row.2.2.2 := by
      clear dividend divisor
      revert row
      decide
    obtain ⟨nonzero, quotient, remainder⟩ := rows
    obtain ⟨t, run, writes⟩ := execDiv_spec s rs rt (divisor ▸ nonzero)
    rw [dividend, divisor, quotient, remainder] at writes
    exact ⟨t, run, writes.lo, writes.hi⟩
  · obtain ⟨t, run, writes⟩ := execDiv_spec s rs rt h
    refine ⟨t, run, ?_⟩
    have equation := congrArg (BitVec.ofInt 32) (Int.tdiv_mul_add_tmod (readReg s rs).toInt (readReg s rt).toInt)
    rw [BitVec.ofInt_add, BitVec.ofInt_mul, BitVec.ofInt_toInt, BitVec.ofInt_toInt] at equation
    rw [writes.lo, writes.hi]
    exact equation.symm

/-! ## Multiplying (R149 to R155) -/

/-- The high word of a 64-bit residue. -/
theorem high_ofInt (x : Int) : (BitVec.ofInt 64 x).extractLsb' 32 32 = BitVec.ofInt 32 (x / 2 ^ 32) := by
  apply BitVec.eq_of_toNat_eq
  rw [BitVec.extractLsb'_toNat, BitVec.toNat_ofInt, BitVec.toNat_ofInt, Nat.shiftRight_eq_div_pow]
  omega

/-- The low word of a 64-bit residue. -/
theorem low_ofInt (x : Int) : (BitVec.ofInt 64 x).extractLsb' 0 32 = BitVec.ofInt 32 x := by
  apply BitVec.eq_of_toNat_eq
  rw [BitVec.extractLsb'_toNat, BitVec.toNat_ofInt, BitVec.toNat_ofInt, Nat.shiftRight_zero]
  omega

/-- `HI || LO` as a value (R149). -/
theorem readAcc_eq_ofInt (s : State) : readAcc s = BitVec.ofInt 64 (s.hi.toNat * 2 ^ 32 + s.lo.toNat) := by
  apply BitVec.eq_of_toNat_eq
  rw [readAcc, BitVec.toNat_append, ← Nat.shiftLeft_add_eq_or_of_lt s.lo.isLt, Nat.shiftLeft_eq, BitVec.toNat_ofInt]
  have := s.hi.isLt
  have := s.lo.isLt
  omega

/-- The unsigned product as a residue (R150). -/
theorem unsignedProduct_eq_ofInt (a b : Word) : unsignedProduct a b = BitVec.ofInt 64 (a.toNat * b.toNat) := by
  rw [unsignedProduct, ← BitVec.ofInt_natCast, Int.natCast_mul]

/-- What a write of an exact value to HI and LO that completes does (R149, R154). -/
theorem complete_writeAcc_ofInt (s : State) {v : BitVec 64} {x : Int} (h : v = BitVec.ofInt 64 x) :
    ∃ t, complete (writeAcc s v) = .next t ∧ WritesHiLo s t (BitVec.ofInt 32 (x / 2 ^ 32)) (BitVec.ofInt 32 x) := by
  rw [← high_ofInt, ← low_ofInt, ← h]
  exact complete_writeAcc_spec s v

/-- Settles O28: the accumulator and the product are residues mod 2^64 of exact values, and so are their sum and
difference (R149 to R152). -/
theorem multiplyAccumulate : Obligations.MultiplyAccumulate := by
  rintro s rs rt _ rfl
  refine ⟨?madd, ?maddu, ?msub, ?msubu⟩
  case madd | msub =>
    rintro _ rfl
    exact complete_writeAcc_ofInt s (by simp only [readAcc_eq_ofInt, signedProduct, BitVec.ofInt_add, ofInt_sub])
  case maddu | msubu =>
    rintro _ rfl
    exact complete_writeAcc_ofInt s
      (by simp only [readAcc_eq_ofInt, unsignedProduct_eq_ofInt, BitVec.ofInt_add, ofInt_sub])

/-- Settles O29 (R154, R155). -/
theorem multiplyToHiLo : Obligations.MultiplyToHiLo := by
  refine fun s rs rt => ⟨?_, ?_⟩ <;> rintro _ rfl
  · exact complete_writeAcc_ofInt s rfl
  · exact complete_writeAcc_ofInt s (unsignedProduct_eq_ofInt _ _)

/-- What `completeReg` does from a state that another operation has left, seen from the state before that operation, when
the operation has changed no register, byte, parameter or pc. -/
theorem WritesReg.atLeast_of {s u t : State} {d : Reg} {v : Word} (h : WritesReg u t d v) (regs : u.regs = s.regs)
    (mem : u.mem = s.mem) (stale : u.stale = s.stale) (fixed : FixedSame s u) (pc : u.pc = s.pc) (npc : u.npc = s.npc) :
    WritesRegAtLeast s t d v where
  dest := h.dest
  others r hr := (h.others r hr).trans (readReg_congr regs r)
  mem := ⟨fun a => (h.mem.1 a).trans (by rw [memByte, memByte, mem]), h.mem.2.trans stale⟩
  fixed := by
    obtain ⟨cc, params, outcome⟩ := h.fixed
    obtain ⟨cc', params', outcome'⟩ := fixed
    exact ⟨cc.trans cc', params.trans params', outcome.trans outcome'⟩
  pc := by
    have advanced := h.pc
    obtain ⟨-, params, -⟩ := fixed
    simpa only [Advanced, params, pc, npc] using advanced

/-- Settles O30: the product is written, or HI and LO are drawn, before the low word of the product goes to `rd`
(R153). -/
theorem mulToRegister : Obligations.MulToRegister := by
  rintro s rd rs rt _ rfl
  have low : (signedProduct (readReg s rs) (readReg s rt)).extractLsb' 0 32 =
      BitVec.ofInt 32 ((readReg s rs).toInt * (readReg s rt).toInt) := low_ofInt _
  cases setting : s.params.mulHilo with
  | product =>
    obtain ⟨t, run, writes⟩ := completeReg_value (writeAcc s (signedProduct (readReg s rs) (readReg s rt))) rd low
    refine ⟨t, ?_, writes.atLeast_of rfl rfl rfl ⟨rfl, rfl, rfl⟩ rfl rfl, writes.reservation, fun _ => ?_, nofun⟩
    · simp only [exec, execMul, setting, run]
    · exact ⟨writes.acc.1.trans (high_ofInt _), writes.acc.2.trans low, writes.draws⟩
  | unpredictable =>
    obtain ⟨t, run, writes⟩ := completeReg_value (drawAcc s) rd low
    refine ⟨t, ?_, writes.atLeast_of rfl rfl rfl ⟨rfl, rfl, rfl⟩ rfl rfl, writes.reservation, nofun, fun _ => ?_⟩
    · simp only [exec, execMul, setting, run]
    · exact ⟨writes.acc.2, writes.acc.1, writes.draws⟩

/-! ## Extending a part of a register (R156, R157) -/

/-- The sign extension of the low `n + 1` bits: above them, copies of the last. -/
theorem signExtend_low_bit (x : Word) (n k : Nat) (hk : k < 32) :
    ((x.extractLsb' 0 (n + 1)).signExtend 32).getLsbD k = x.getLsbD (min k n) := by
  rw [BitVec.getLsbD_signExtend, decide_eq_true hk, Bool.true_and]
  split
  · next low =>
    rw [BitVec.getLsbD_extractLsb', decide_eq_true low, Bool.true_and, Nat.zero_add, Nat.min_eq_left (by omega)]
  · next high =>
    rw [BitVec.msb_eq_getLsbD_last, BitVec.getLsbD_extractLsb', Nat.min_eq_right (by omega)]
    simp

/-- Settles O31 (R156, R157). -/
theorem signExtendRegister : Obligations.SignExtendRegister := fun s rd rt =>
  ⟨completeReg_bits s rd (signExtend_low_bit (readReg s rt) 7),
   completeReg_bits s rd (signExtend_low_bit (readReg s rt) 15)⟩

/-! ## Comparing (R158 to R161) -/

theorem boolWord_decide (p : Prop) [Decidable p] : boolWord (decide p) = if p then 1#32 else 0#32 := by
  simp [boolWord]

/-- Settles O32: each comparison is the decision of an order on the signed or on the unsigned values (R158 to R161). -/
theorem setOnLessThan : Obligations.SetOnLessThan := by
  refine fun s d rs rt imm => ⟨completeReg_value s d ?slt, completeReg_value s d ?slti, completeReg_value s d ?sltu,
    completeReg_value s d ?sltiu⟩
  case slt | sltu => exact boolWord_decide _
  case slti => rw [ltSigned, boolWord_decide, sextImm_toInt]
  case sltiu => simp only [ltUnsigned, boolWord_decide, ← sextImm_toNat, Int.ofNat_lt]

/-- Settles O57 (R293, R294). -/
theorem moveToHiAndLo : Obligations.MoveToHiAndLo :=
  fun s rs => ⟨complete_hiLo_spec s (readReg s rs) s.lo, complete_hiLo_spec s s.hi (readReg s rs)⟩

end Sys2Proof.Machine
end

/-! # Branches and jumps (41_branch_jump.md R182 to R200) -/

section
namespace Sys2Proof.Machine

/-! ## The conditions -/

theorem geZero_iff (a : Word) : geZero a = true ↔ 0 ≤ a.toInt := decide_eq_true_iff

theorem gtZero_iff (a : Word) : gtZero a = true ↔ 0 < a.toInt := decide_eq_true_iff

theorem not_geZero_iff (a : Word) : (!geZero a) = true ↔ a.toInt < 0 := by simp [geZero]

theorem not_gtZero_iff (a : Word) : (!gtZero a) = true ↔ a.toInt ≤ 0 := by simp [gtZero]

/-- Outside a delay slot, in the words of R181. -/
theorem outside_slot {s : State} (h : ¬(s.params.delaySlots = true ∧ s.ds = true)) : inDelaySlot s = false :=
  eq_false_of_ne_true (mt (inDelaySlot_iff s).mp h)

/-- Settles O33: each is one conditional branch under its own condition (R185, R187, R188, R190 to R192, R194). -/
theorem conditionalBranches : Obligations.ConditionalBranches := by
  intro s rs rt off hslot
  have outside := outside_slot hslot
  exact ⟨branchIf_spec s true _ off outside (by simp), branchIf_spec s _ _ off outside beq_iff_eq,
    branchIf_spec s _ _ off outside bne_iff_ne, branchIf_spec s _ _ off outside (geZero_iff _),
    branchIf_spec s _ _ off outside (gtZero_iff _), branchIf_spec s _ _ off outside (not_gtZero_iff _),
    branchIf_spec s _ _ off outside (not_geZero_iff _)⟩

/-- Settles O34 (R184, R186, R189, R193). -/
theorem linkingBranches : Obligations.LinkingBranches := by
  intro s rs off hslot
  have outside := outside_slot hslot
  exact ⟨branchLinkIf_spec s true _ off outside (by simp),
    fun not31 => branchLinkOn_spec s rs _ _ off outside not31 (geZero_iff _),
    fun not31 => branchLinkOn_spec s rs _ _ off outside not31 (not_geZero_iff _)⟩

/-- Settles O37 (R197 to R200). -/
theorem jumpRegister : Obligations.JumpRegister := by
  intro s rd rs hslot
  have outside := outside_slot hslot
  exact ⟨jumpTo_spec s _ outside, jumpTo_spec s _ outside, jumpLinkReg_spec s rd rs outside,
    jumpLinkReg_spec s rd rs outside⟩

/-! ## The target of a branch (R182) -/

/-- The branch offset counts instructions of 4 bytes (R107). -/
theorem branchOffset_eq (off : Half) : branchOffset off = BitVec.ofInt 32 (4 * off.toInt) := by
  have wide : (off ++ 0b00#2).toInt = 4 * off.toInt := by
    have shifted : (off ++ 0b00#2).toNat = off.toNat * 4 := by
      rw [BitVec.toNat_append, ← Nat.shiftLeft_add_eq_or_of_lt (BitVec.isLt _), Nat.shiftLeft_eq]
      rfl
    have := off.isLt
    rw [BitVec.toInt_eq_toNat_cond, BitVec.toInt_eq_toNat_cond, shifted]
    split <;> split <;> omega
  rw [branchOffset, BitVec.signExtend, wide]

theorem branchTarget_eq (s : State) (off : Half) :
    branchTarget s off = BitVec.ofInt 32 ((s.pc.toNat : Int) + 4 + 4 * off.toInt) := by
  rw [BitVec.ofInt_add, BitVec.ofInt_add, ofInt_toNat, ← branchOffset_eq]
  rfl

/-- Settles O35: the target is a residue of the exact address, and 4 divides the offset and the space (R182). -/
theorem branchTarget_holds : Obligations.BranchTarget := by
  refine fun s off => ⟨branchTarget_eq s off, fun aligned => ?_, ?_, 4 * off.toInt, ?_, ?_, ?_⟩
  · rw [branchTarget_eq, BitVec.toNat_ofInt]
    omega
  · have back : branchOffset 0xFFFF#16 = -4#32 := by decide
    rw [branchTarget, back, BitVec.add_neg_eq_sub, BitVec.add_sub_cancel]
  · have := BitVec.le_toInt off
    omega
  · have := BitVec.toInt_lt (x := off)
    omega
  · rw [branchTarget, branchOffset_eq]

end Sys2Proof.Machine
end

/-! # The instructions that only advance (42_control.md, 43_load_store.md R229, R237, R238), and SD (R233) -/

section
namespace Sys2Proof.Machine

/-- Settles O41: none does anything but complete, and SYNCI looks for its byte first (R210 to R212, R229, R237, R238). -/
theorem noEffectInstructions : Obligations.NoEffectInstructions := by
  refine fun s stype hint off base => ⟨complete_spec s, complete_spec s, complete_spec s, complete_spec s,
    complete_spec s, fun listed => ?_, fun unlisted => ?_⟩
  · obtain ⟨t, run, only⟩ := complete_spec s
    exact ⟨t, (if_pos listed).trans run, only⟩
  · exact if_neg (ne_true_of_eq_false unlisted)

/-- Settles O53 (R233, R353(b)). -/
theorem sdIsRefused : Obligations.SdIsRefused := by
  intro s rt base off
  rw [← trapRecord_eq]
  rfl

end Sys2Proof.Machine
end

/-! # Bit fields (45_insert_extract.md R280 to R282) -/

section
namespace Sys2Proof.Machine

/-- The bits of a mask of the low `n` bits. -/
theorem lowMask_bit (n k : Nat) (hk : k < 32) : (lowMask n).getLsbD k = decide (k < n) := by
  rw [lowMask, BitVec.getLsbD_ofNat, Nat.testBit_two_pow_sub_one, decide_eq_true hk, Bool.true_and]

/-- EXT's value: the field from `l` up, and zeros above its `m + 1` bits (R280). -/
theorem ext_bit (x : Word) (m l k : Nat) (hk : k < 32) :
    ((x >>> l) &&& lowMask (m + 1)).getLsbD k = (decide (k ≤ m) && x.getLsbD (l + k)) := by
  rw [BitVec.getLsbD_and, BitVec.getLsbD_ushiftRight, lowMask_bit _ _ hk, Bool.and_comm]
  simp only [Nat.lt_succ_iff]

/-- INS's mask: the bits from `l` to `m` (R281). -/
theorem insMask_bit (m l k : Nat) (h : l ≤ m) (hk : k < 32) :
    (lowMask (m - l + 1) <<< l).getLsbD k = decide (l ≤ k ∧ k ≤ m) := by
  rw [BitVec.getLsbD_shiftLeft, lowMask_bit _ _ (by omega), decide_eq_true hk]
  by_cases low : k < l
  · have out : ¬(l ≤ k ∧ k ≤ m) := by omega
    simp [low, out]
  · have inside : k - l < m - l + 1 ↔ l ≤ k ∧ k ≤ m := by omega
    simp [low, inside]

/-- INS's value: the field from `rs`, the rest from `rt` (R281). -/
theorem ins_bit (x y : Word) (m l k : Nat) (h : l ≤ m) (hk : k < 32) :
    ((y &&& ~~~(lowMask (m - l + 1) <<< l)) ||| ((x <<< l) &&& (lowMask (m - l + 1) <<< l))).getLsbD k =
      if l ≤ k ∧ k ≤ m then x.getLsbD (k - l) else y.getLsbD k := by
  rw [BitVec.getLsbD_or, BitVec.getLsbD_and, BitVec.getLsbD_and, BitVec.getLsbD_not, insMask_bit m l k h hk,
    BitVec.getLsbD_shiftLeft]
  by_cases inside : l ≤ k ∧ k ≤ m
  · simp [inside, hk]
  · simp [inside, hk]

/-- The four bytes of four in a row. -/
theorem four_bytes (b3 b2 b1 b0 : Byte) :
    (b3 ++ b2 ++ b1 ++ b0).extractLsb' 24 8 = b3 ∧ (b3 ++ b2 ++ b1 ++ b0).extractLsb' 16 8 = b2 ∧
      (b3 ++ b2 ++ b1 ++ b0).extractLsb' 8 8 = b1 ∧ (b3 ++ b2 ++ b1 ++ b0).extractLsb' 0 8 = b0 := by
  have byte := append_four_byte fun j => if j = 3 then b3 else if j = 2 then b2 else if j = 1 then b1 else b0
  exact ⟨byte 3 (by decide), byte 2 (by decide), byte 1 (by decide), byte 0 (by decide)⟩

/-- Settles O55: within the range EXT and INS complete with their masked values, and WSBH puts four bytes in a row
(R280 to R282). -/
theorem bitFields : Obligations.BitFields := by
  refine fun s d rs rt m l => ⟨fun legal => ?_, fun legal => ?_, ?_⟩
  · obtain ⟨v, t, run, writes, bits⟩ := completeReg_bits s rt (ext_bit (readReg s rs) m.toNat l.toNat)
    exact ⟨v, t, (if_neg (by omega)).trans run, writes, bits⟩
  · obtain ⟨v, t, run, writes, bits⟩ := completeReg_bits s rt fun k hk =>
      ins_bit (readReg s rs) (readReg s rt) m.toNat l.toNat k legal hk
    exact ⟨v, t, (if_neg (by omega)).trans run, writes, bits⟩
  · obtain ⟨t, run, writes⟩ := completeReg_spec s d _
    exact ⟨_, t, run, writes, four_bytes _ _ _ _⟩

end Sys2Proof.Machine
end

/-! # RDHWR (46_move.md R295) -/

section
namespace Sys2Proof.Machine

/-- Settles O58: the mask is looked at first, then whether the register has a fixed value (R295, R353(d)). -/
theorem readHardwareRegister : Obligations.ReadHardwareRegister := by
  refine fun s rt n => ⟨fun enabled v fixed => ?_, fun enabled free => ?_, fun disabled => ?_⟩
  · obtain ⟨t, run, writes⟩ := completeReg_spec s rt v
    refine ⟨t, ?_, writes⟩
    simp only [exec, execRdhwr, enabled, if_true, readHwr, fixed, run]
  · obtain ⟨t, run, writes⟩ := completeReg_spec (drawWord s).2 rt (Config.drawWord s.draws)
    refine ⟨t, ?_, writes.atLeast_of rfl rfl rfl ⟨rfl, rfl, rfl⟩ rfl rfl, writes.acc, writes.reservation, writes.draws⟩
    rw [← run]
    simp only [exec, execRdhwr, enabled, if_true, readHwr, free]
    rfl
  · obtain ⟨t, run, traps⟩ := takeException_spec s .reservedInstruction (some .hwrDisabled) none
    exact ⟨t, (if_neg (ne_true_of_eq_false disabled)).trans run, traps⟩

end Sys2Proof.Machine
end

/-! # Shifts and rotates (47_shift.md R299 to R308) -/

section
namespace Sys2Proof.Machine

theorem shiftLeft_bit (x : Word) (n : BitVec 5) (k : Nat) (hk : k < 32) :
    (shiftLeft x n).getLsbD k = (decide (n.toNat ≤ k) && x.getLsbD (k - n.toNat)) := by
  rw [shiftLeft, BitVec.getLsbD_shiftLeft, decide_eq_true hk, Bool.true_and]
  simp only [← decide_not, Nat.not_lt]

theorem shiftRight_bit (x : Word) (n : BitVec 5) (k : Nat) :
    (shiftRight x n).getLsbD k = (decide (k + n.toNat < 32) && x.getLsbD (k + n.toNat)) := by
  rw [shiftRight, BitVec.getLsbD_ushiftRight, Nat.add_comm]
  by_cases inside : k + n.toNat < 32
  · simp [inside]
  · simp [inside, BitVec.getLsbD_of_ge x _ (Nat.le_of_not_lt inside)]

theorem shiftRightArith_bit (x : Word) (n : BitVec 5) (k : Nat) (hk : k < 32) :
    (shiftRightArith x n).getLsbD k = x.getLsbD (min (k + n.toNat) 31) := by
  rw [shiftRightArith, BitVec.getLsbD_sshiftRight, BitVec.msb_eq_getLsbD_last, Nat.add_comm]
  have notOut : ¬32 ≤ k := Nat.not_le.mpr hk
  by_cases inside : k + n.toNat < 32
  · simp [inside, notOut, Nat.min_eq_left (Nat.le_of_lt_succ inside)]
  · simp [inside, notOut, Nat.min_eq_right (Nat.le_of_lt (Nat.lt_of_succ_le (Nat.le_of_not_lt inside)))]

/-- A rotate: the bits that leave at bit 0 come in at bit 31 (R300). -/
theorem rotateRight_bit (x : Word) (n : BitVec 5) (k : Nat) (hk : k < 32) :
    (rotateRight x n).getLsbD k = x.getLsbD ((k + n.toNat) % 32) := by
  have amount := n.isLt
  rw [rotateRight, BitVec.getLsbD_or, BitVec.getLsbD_ushiftRight, BitVec.getLsbD_shiftLeft, Nat.add_comm n.toNat k]
  by_cases inside : k + n.toNat < 32
  · have below : k < 32 - n.toNat := by omega
    simp [below, Nat.mod_eq_of_lt inside]
  · have round : (k + n.toNat) % 32 = k - (32 - n.toNat) := by omega
    have notBelow : ¬k < 32 - n.toNat := by omega
    simp [hk, notBelow, round, BitVec.getLsbD_of_ge x _ (Nat.le_of_not_lt inside)]

/-- The amount of the variable forms (R299). -/
theorem variableAmount_toNat (s : State) (rs : Reg) : (variableAmount s rs).toNat = (readReg s rs).toNat % 32 := by
  rw [variableAmount, BitVec.extractLsb'_toNat, Nat.shiftRight_zero]

/-- The R bit of the fixed forms is the low bit of `rs`, that of the variable forms the low bit of `sa` (R106). -/
theorem bit21_eq (w : Word) : w.getLsbD 21 = (rsOf w).getLsbD 0 := by simp [rsOf]

theorem bit6_eq (w : Word) : w.getLsbD 6 = (saOf w).getLsbD 0 := by simp [saOf]

/-- Settles O59: each is one of four operations known bit by bit, by `sa` or by the low bits of `rs`, and its word holds
the function and the R bit of R308 (R299 to R307). -/
theorem shiftsAndRotates : Obligations.ShiftsAndRotates := by
  rintro s rd rt rs sa _ _ rfl rfl
  rw [← variableAmount_toNat]
  exact ⟨completeReg_bits s rd (shiftLeft_bit _ sa), completeReg_bits s rd fun k _ => shiftRight_bit _ sa k,
    completeReg_bits s rd (rotateRight_bit _ sa), completeReg_bits s rd (shiftRightArith_bit _ sa),
    completeReg_bits s rd (shiftLeft_bit _ _), completeReg_bits s rd fun k _ => shiftRight_bit _ _ k,
    completeReg_bits s rd (rotateRight_bit _ _), completeReg_bits s rd (shiftRightArith_bit _ _),
    by simp [encode], by simp only [encode, bit21_eq, bit6_eq, rsOf_encodeR, saOf_encodeR]; decide⟩

end Sys2Proof.Machine
end

/-! # Traps (48_trap.md R321 to R334) -/

section
namespace Sys2Proof.Machine

/-- A conditional trap under a condition in the words of its rule (R320(e), R350(d)). -/
theorem trapIf_on (s : State) {c : Bool} {p : Prop} (hc : c = true ↔ p) :
    (p → ∃ t, trapIf s c = .next t ∧ TrapsWith s t .trap none none) ∧
      (¬p → ∃ t, trapIf s c = .next t ∧ OnlyAdvances s t) := by
  obtain ⟨t, run, traps, only⟩ := trapIf_spec s c p hc
  exact ⟨fun holds => ⟨t, run, traps holds⟩, fun fails => ⟨t, run, only fails⟩⟩

theorem ltSigned_iff (a b : Word) : ltSigned a b = true ↔ a.toInt < b.toInt := decide_eq_true_iff

theorem ltUnsigned_iff (a b : Word) : ltUnsigned a b = true ↔ a.toNat < b.toNat := decide_eq_true_iff

theorem not_ltSigned_iff (a b : Word) : (!ltSigned a b) = true ↔ a.toInt ≥ b.toInt := by simp [ltSigned]

theorem not_ltUnsigned_iff (a b : Word) : (!ltUnsigned a b) = true ↔ a.toNat ≥ b.toNat := by simp [ltUnsigned]

/-- Comparing with a sign-extended immediate (R324, R326, R327, R330, R331). -/
theorem ltSigned_imm_iff (a : Word) (imm : Half) : ltSigned a (sextImm imm) = true ↔ a.toInt < imm.toInt := by
  rw [ltSigned_iff, sextImm_toInt]

theorem ltUnsigned_imm_iff (a : Word) (imm : Half) :
    ltUnsigned a (sextImm imm) = true ↔ (a.toNat : Int) < imm.toInt % 2 ^ 32 := by
  rw [ltUnsigned_iff, ← sextImm_toNat, Int.ofNat_lt]

theorem not_ltSigned_imm_iff (a : Word) (imm : Half) : (!ltSigned a (sextImm imm)) = true ↔ a.toInt ≥ imm.toInt := by
  rw [not_ltSigned_iff, sextImm_toInt]

theorem not_ltUnsigned_imm_iff (a : Word) (imm : Half) :
    (!ltUnsigned a (sextImm imm)) = true ↔ (a.toNat : Int) ≥ imm.toInt % 2 ^ 32 := by
  rw [not_ltUnsigned_iff, ← sextImm_toNat, ge_iff_le, ge_iff_le, Int.ofNat_le]

theorem beq_imm_iff (a : Word) (imm : Half) : (a == sextImm imm) = true ↔ a.toInt = imm.toInt := by
  rw [beq_iff_eq, ← BitVec.toInt_inj, sextImm_toInt]

/-- Settles O60: the eleven are one conditional trap under their own conditions, and the fields of their words are what
the encoder put there (R321 to R334). -/
theorem trapsRaiseOnTheirCondition : Obligations.TrapsRaiseOnTheirCondition := by
  rintro s rs rt imm c10 c20 _ _ _ rfl rfl rfl
  refine ⟨takeException_spec s .breakpoint none none, takeException_spec s .systemCall none none, ?_, by simp [encode],
    by simp [encode]⟩
  simp only [List.forall_mem_cons]
  exact ⟨trapIf_on s (not_ltSigned_iff _ _), trapIf_on s (not_ltUnsigned_iff _ _), trapIf_on s (ltSigned_iff _ _),
    trapIf_on s (ltUnsigned_iff _ _), trapIf_on s beq_iff_eq, trapIf_on s bne_iff_ne,
    trapIf_on s (not_ltSigned_imm_iff _ _), trapIf_on s (not_ltUnsigned_imm_iff _ _), trapIf_on s (ltSigned_imm_iff _ _),
    trapIf_on s (ltUnsigned_imm_iff _ _), trapIf_on s (beq_imm_iff _ _), List.forall_mem_nil _⟩

end Sys2Proof.Machine
end

/-! # Loads and stores (43_load_store.md R220 to R239; 20_memory.md R63, R64, R66) -/

section
namespace Sys2Proof.Machine

/-! ## Addresses -/

/-- The effective address as a residue (R220). -/
theorem effectiveAddr_eq (s : State) (off : Half) (base : Reg) :
    effectiveAddr s off base = BitVec.ofInt 32 ((readReg s base).toNat + off.toInt) := by
  rw [BitVec.ofInt_add, ofInt_toNat, ← sextImm_eq_ofInt]
  rfl

/-- An address is its aligned word's and its offset in it. -/
theorem wordAddr_add_offset (a : Word) : wordAddr a + BitVec.ofNat 32 (a.toNat % 4) = a := by
  apply BitVec.eq_of_toNat_eq
  rw [BitVec.toNat_add, BitVec.toNat_ofNat, wordAddr_toNat]
  have := a.isLt
  omega

/-- The address `j` above, counted from the aligned word. -/
theorem wordAddr_add_up (a : Word) (j : Nat) :
    wordAddr a + BitVec.ofNat 32 (a.toNat % 4 + j) = a + BitVec.ofNat 32 j := by
  rw [BitVec.ofNat_add, ← BitVec.add_assoc, wordAddr_add_offset]

/-- The address `d` below, counted from the aligned word. -/
theorem wordAddr_add_down (a : Word) (d : Nat) (h : d ≤ a.toNat % 4) :
    wordAddr a + BitVec.ofNat 32 (a.toNat % 4 - d) = a - BitVec.ofNat 32 d := by
  have up := wordAddr_add_offset a
  rw [← Nat.sub_add_cancel h, BitVec.ofNat_add, ← BitVec.add_assoc] at up
  exact BitVec.eq_sub_iff_add_eq.mpr up

/-- Every byte of an aligned word lies in it. -/
theorem wordAddr_in_word {a : Word} (h4 : a.toNat % 4 = 0) (k : Nat) (hk : k < 4) :
    (wordAddr (a + BitVec.ofNat 32 k)).toNat = a.toNat := by
  rw [wordAddr_toNat, BitVec.toNat_add, BitVec.toNat_ofNat]
  have := a.isLt
  omega

/-- Admission depends on the parameters alone (R66). -/
theorem admitsAll_congr {s t : State} (h : t.params = s.params) (k : Access) (a : Word) (n : Nat) :
    admitsAll t k a n = admitsAll s k a n := by
  induction n generalizing a with
  | zero => rfl
  | succ n ih => rw [admitsAll, admitsAll, ih, admits, admits, h]

/-! ## The checks before an access -/

/-- An aligned, admitted load does what its access does. -/
theorem checkedLoad_completes {s : State} {ea : Word} {n : Nat} {k : Result} {P : State → Prop}
    (ha : ea.toNat % n = 0) (hm : admitsAll s .read ea n = true) (hk : ∃ t, k = .next t ∧ P t) :
    ∃ t, checkedLoad s ea n k = .next t ∧ P t := by
  rwa [checkedLoad_run s ea n k ha hm]

/-- An aligned, admitted store does what its access does. -/
theorem checkedStore_completes {s : State} {ea : Word} {n : Nat} {k : Result} {P : State → Prop}
    (ha : ea.toNat % n = 0) (hm : admitsAll s .write ea n = true) (hk : ∃ t, k = .next t ∧ P t) :
    ∃ t, checkedStore s ea n k = .next t ∧ P t := by
  rwa [checkedStore_run s ea n k ha hm]

/-- SC checks the alignment first (R231, R355). -/
theorem execSc_misaligned {s : State} {rt base : Reg} {off : Half} (h : (effectiveAddr s off base).toNat % 4 ≠ 0) :
    ∃ t, execSc rt off base s = .next t ∧ TrapsWith s t .addressErrorStore none (some (effectiveAddr s off base)) := by
  obtain ⟨t, run, traps⟩ := takeException_spec s .addressErrorStore none (some (effectiveAddr s off base))
  exact ⟨t, (if_pos h).trans run, traps⟩

/-- Settles O49: the alignment is looked at before `MEMMAP` (R64, R352). -/
theorem misalignedAccessRaises : Obligations.MisalignedAccessRaises := by
  rintro s rt base off _ rfl
  exact ⟨fun odd => ⟨checkedLoad_misaligned s _ 2 _ odd, checkedLoad_misaligned s _ 2 _ odd,
      checkedStore_misaligned s _ 2 _ odd⟩,
    fun odd => ⟨checkedLoad_misaligned s _ 4 _ odd, checkedLoad_misaligned s _ 4 _ odd,
      checkedStore_misaligned s _ 4 _ odd, execSc_misaligned odd⟩⟩

/-- Settles O50: an access with no alignment to check, or that has passed it, asks `MEMMAP` (R66). -/
theorem inadmissibleAccessIsStuck : Obligations.InadmissibleAccessIsStuck := by
  rintro s rt base off _ rfl
  refine ⟨fun denied => ⟨checkedLoad_stuck s _ 1 _ (mod_one_word _) denied,
      checkedLoad_stuck s _ 1 _ (mod_one_word _) denied⟩,
    fun even denied => ⟨checkedLoad_stuck s _ 2 _ even denied, checkedLoad_stuck s _ 2 _ even denied⟩,
    fun even denied => ⟨checkedLoad_stuck s _ 4 _ even denied, checkedLoad_stuck s _ 4 _ even denied⟩,
    fun denied => ⟨checkedLoad_stuck s _ 4 _ (wordAddr_mod _) denied, checkedLoad_stuck s _ 4 _ (wordAddr_mod _) denied⟩,
    checkedStore_stuck s _ 1 _ (mod_one_word _), checkedStore_stuck s _ 2 _, checkedStore_stuck s _ 4 _,
    fun aligned denied own => ?sc,
    fun denied => ⟨checkedStore_stuck s _ 4 _ (wordAddr_mod _) denied,
      checkedStore_stuck s _ 4 _ (wordAddr_mod _) denied⟩⟩
  case sc =>
    have ours : ¬(s.llbit = true ∧ effectiveAddr s off base ≠ s.lladdr) := fun h => h.2 (own h.1)
    simp only [exec, execSc, aligned, ours, denied, ne_eq, not_true_eq_false, if_false, Bool.false_eq_true]

/-! ## Loads of a byte, a halfword and a word (R221 to R226) -/

/-- Settles O42: an access that is aligned and admitted completes with the extended value (R220 to R224). -/
theorem subwordLoads : Obligations.SubwordLoads := by
  rintro s rt base off ea hea
  rw [← effectiveAddr_eq] at hea
  subst hea
  have unsigned {n : Nat} (v : BitVec n) : v.setWidth 32 = BitVec.ofNat 32 v.toNat := (BitVec.ofNat_toNat 32 v).symm
  refine ⟨fun hm => ⟨?_, ?_⟩, fun even hm => ⟨?_, ?_⟩⟩
  · exact checkedLoad_completes (mod_one_word _) hm (completeReg_spec s rt _)
  · exact checkedLoad_completes (mod_one_word _) hm (completeReg_value s rt (unsigned _))
  · exact checkedLoad_completes even hm (completeReg_spec s rt _)
  · exact checkedLoad_completes even hm (completeReg_value s rt (unsigned _))

/-- Settles O43: LL writes the register from a state that already holds the reservation (R225, R226). -/
theorem wordLoads : Obligations.WordLoads := by
  rintro s rt base off _ _ rfl aligned hm rfl
  refine ⟨checkedLoad_completes aligned hm (completeReg_spec s rt _), checkedLoad_completes aligned hm ?_⟩
  obtain ⟨t, run, writes⟩ :=
    completeReg_spec { s with llbit := true, lladdr := effectiveAddr s off base } rt (memWord s (effectiveAddr s off base))
  exact ⟨t, run, writes.atLeast_of rfl rfl rfl ⟨rfl, rfl, rfl⟩ rfl rfl, writes.acc, writes.draws, writes.reservation⟩

/-! ## Stores of a byte, a halfword and a word (R230, R232, R234) -/

/-- Settles O46: the bytes of the value in the order of the machine (R61, R230, R232, R234). -/
theorem alignedStores : Obligations.AlignedStores := by
  rintro s rt base off _ _ hm rfl rfl
  refine ⟨fun admitted => ?_, fun even admitted => ?_, fun aligned admitted => ?_⟩
  · exact checkedStore_completes (mod_one_word _) admitted (complete_storeBytes_spec s _ [_] hm (by simp))
  · refine checkedStore_completes even admitted ?_
    have half : splitHalf s.params.endian ((readReg s rt).extractLsb' 0 16) =
        if s.params.endian = .big then [(readReg s rt).extractLsb' 8 8, (readReg s rt).extractLsb' 0 8]
        else [(readReg s rt).extractLsb' 0 8, (readReg s rt).extractLsb' 8 8] := by
      cases s.params.endian <;> simp [splitHalf, BitVec.extractLsb'_extractLsb'_of_le]
    rw [← half]
    exact complete_storeBytes_spec s _ _ hm (by simp)
  · refine checkedStore_completes aligned admitted ?_
    have word : splitWord s.params.endian (readReg s rt) =
        if s.params.endian = .big then
          [(readReg s rt).extractLsb' 24 8, (readReg s rt).extractLsb' 16 8, (readReg s rt).extractLsb' 8 8,
            (readReg s rt).extractLsb' 0 8]
        else
          [(readReg s rt).extractLsb' 0 8, (readReg s rt).extractLsb' 8 8, (readReg s rt).extractLsb' 16 8,
            (readReg s rt).extractLsb' 24 8] := by
      cases s.params.endian <;> rfl
    rw [← word]
    exact complete_storeBytes_spec s _ _ hm (by simp)

end Sys2Proof.Machine
end

/-! # What parts of a stored word read as (20_memory.md R63), and SC (43_load_store.md R231) -/

section
namespace Sys2Proof.Machine

/-- Two bytes of a word that lie side by side, joined in the order of the machine (R61). -/
theorem joinHalf_slices (e : Endian) (v : Word) (start : Nat) :
    joinHalf e (v.extractLsb' (start + if e = .big then 8 else 0) 8) (v.extractLsb' (start + if e = .big then 0 else 8) 8) =
      v.extractLsb' start 16 := by
  cases e <;> exact BitVec.extractLsb'_append_extractLsb'_eq_extractLsb' rfl

/-- Settles O52: a word is stored byte by byte, and a byte and a halfword are read byte by byte (R61, R63). -/
theorem mixedWidthReads : Obligations.MixedWidthReads := by
  rintro s t a v hm aligned ht
  have params : t.params = s.params := by rw [ht, storeBytes_params]
  have byte (k : Nat) (hk : k < 4) : memByte t (a + BitVec.ofNat 32 k) =
      if s.params.endian = .big then v.extractLsb' (24 - 8 * k) 8 else v.extractLsb' (8 * k) 8 := by
    rw [ht, memByte_storeWord s a s.params.endian v k hm hk]
    split
    · congr 1
      omega
    · rfl
  have byte0 := byte 0 (by decide)
  have byte1 := byte 1 (by decide)
  have byte2 := byte 2 (by decide)
  have byte3 := byte 3 (by decide)
  have third : a + 2#32 + 1#32 = a + 3#32 := by rw [BitVec.add_assoc]; rfl
  rw [BitVec.add_zero] at byte0
  refine ⟨byte, ?_, ?_⟩
  · rw [memHalf, params, byte0, byte1]
    cases s.params.endian
    · exact joinHalf_slices .big v 16
    · exact joinHalf_slices .little v 0
  · rw [memHalf, params, third, byte2, byte3]
    cases s.params.endian
    · exact joinHalf_slices .big v 0
    · exact joinHalf_slices .little v 16

/-! ## SC -/

/-- What the last part of SC does at an aligned address: the store when it succeeds, the indication, and the end of the
reservation (R231). -/
theorem finishSc_done (s : State) (rt : Reg) (ea : Word) (ok : Bool) (hm : Memory.wf s.mem = true)
    (aligned : ea.toNat % 4 = 0) :
    ∃ t, finishSc s rt ea (readReg s rt) ok = .next t ∧ ScDone s t rt ea ok ∧ t.draws = s.draws := by
  cases ok with
  | false =>
    obtain ⟨t, run, dest, others, acc, mem, ⟨bit, addr⟩, fixed, draws, pc⟩ :=
      completeReg_spec { s with llbit := false } rt (boolWord false)
    exact ⟨t, run, ⟨dest, others, nofun, fun _ => mem, bit, addr, acc, fixed, pc⟩, draws⟩
  | true =>
    obtain ⟨t, run, dest, others, ⟨hi, lo⟩, ⟨bytes, stale⟩, ⟨bit, addr⟩, ⟨cc, params, outcome⟩, draws, pc⟩ :=
      completeReg_spec { storeBytes s ea (splitWord s.params.endian (readReg s rt)) with llbit := false } rt (boolWord true)
    refine ⟨t, run, ⟨dest, fun r hr => ?_, fun _ => ⟨fun k hk => ?_, fun b outside => ?_, fun n => ?_⟩, nofun, bit, ?_,
      ⟨?_, ?_⟩, ⟨?_, ?_, ?_⟩, ?_⟩, ?_⟩
    · exact (others r hr).trans (readReg_storeBytes s _ _ r)
    · rw [bytes]
      exact memByte_storeBytes_same s ea _ hm (by simp) k (by simpa using hk)
    · rw [bytes]
      exact memByte_storeBytes_ne s ea b _ (by simpa using outside)
    · rw [stale]
      refine (mem_stale_storeBytes s ea _ n).trans (or_congr_right ?_)
      rw [splitWord_length]
      exact ⟨fun ⟨k, hk, hn⟩ => hn.trans (wordAddr_in_word aligned k hk),
        fun hn => ⟨0, by decide, hn.trans (wordAddr_in_word aligned 0 (by decide)).symm⟩⟩
    · exact addr.trans (storeBytes_lladdr s _ _)
    · exact hi.trans (storeBytes_hi s _ _)
    · exact lo.trans (storeBytes_lo s _ _)
    · exact cc.trans (storeBytes_cc s _ _)
    · exact params.trans (storeBytes_params s _ _)
    · exact outcome.trans (storeBytes_outcome s _ _)
    · simpa [Advanced] using pc
    · exact draws.trans (storeBytes_draws s _ _)

/-- SC at an aligned address with no reservation for another address, when the store is admitted (R231). -/
theorem execSc_run {s : State} {rt base : Reg} {off : Half} (aligned : (effectiveAddr s off base).toNat % 4 = 0)
    (own : s.llbit = true → effectiveAddr s off base = s.lladdr)
    (admitted : admitsAll s .write (effectiveAddr s off base) 4 = true) :
    execSc rt off base s =
      if s.llbit && s.params.scDraw then
        finishSc (drawBit s).2 rt (effectiveAddr s off base) (readReg s rt) (drawBit s).1
      else finishSc s rt (effectiveAddr s off base) (readReg s rt) s.llbit := by
  have ours : ¬(s.llbit = true ∧ effectiveAddr s off base ≠ s.lladdr) := fun h => h.2 (own h.1)
  rw [execSc]
  simp only [aligned, ours, admitted, ne_eq, not_true_eq_false, if_false, if_true]

/-- Settles O48: the reservation for another address is looked at before `MEMMAP`; whether SC succeeds is LLbit, or a free
bit with `SC_DRAW` (R231). -/
theorem storeConditional : Obligations.StoreConditional := by
  rintro s rt base off _ hm rfl aligned
  refine ⟨fun held other => ?_, fun clear admitted => ?_, fun held own admitted => ⟨fun certain => ?_, fun drawn => ?_⟩⟩
  · exact (if_neg (not_not_intro aligned)).trans (if_pos ⟨held, other⟩)
  · obtain ⟨t, run, done, draws⟩ := finishSc_done s rt _ false hm aligned
    refine ⟨t, (execSc_run aligned (fun h => by simp [clear] at h) admitted).trans ?_, done, draws⟩
    rw [clear]
    exact run
  · obtain ⟨t, run, done, draws⟩ := finishSc_done s rt _ true hm aligned
    refine ⟨t, (execSc_run aligned (fun _ => own) admitted).trans ?_, done, draws⟩
    rw [held, certain]
    exact run
  · obtain ⟨t, run, done, draws⟩ := finishSc_done (drawBit s).2 rt _ (Config.drawBit s.draws) hm aligned
    refine ⟨t, (execSc_run aligned (fun _ => own) admitted).trans ?_, ?_, draws⟩
    · rw [held, drawn]
      exact run
    · obtain ⟨dest, others, stored, kept, bit, addr, acc, fixed, pc⟩ := done
      exact ⟨dest, others, stored, kept, bit, addr, acc, fixed, pc⟩

end Sys2Proof.Machine
end

/-! # The unaligned loads and stores (43_load_store.md R227, R228, R235, R236, R239) -/

section
namespace Sys2Proof.Machine

/-! ## Bytes of a word by their place in memory -/

/-- The byte that stands `p` places above the lowest address of a word (R61). -/
def placeByte (e : Endian) (x : Word) (p : Nat) : Byte := x.extractLsb' (8 * (if e = .big then 3 - p else p)) 8

/-- Two words with the same byte at each place are the same. -/
theorem word_eq_of_placeBytes (e : Endian) {x y : Word} (h : ∀ p : Nat, p < 4 → placeByte e x p = placeByte e y p) :
    x = y := word_eq_of_ordered_bytes e h

theorem placeByte_memWord (s : State) (a : Word) (p : Nat) (hp : p < 4) :
    placeByte s.params.endian (memWord s a) p = memByte s (a + BitVec.ofNat 32 p) := memWord_byte s a p hp

theorem splitWord_placeByte (e : Endian) (v : Word) (p : Nat) (hp : p < 4) :
    (splitWord e v)[p]? = some (placeByte e v p) := splitWord_byte e v p hp

/-! ## Words put together from two (R227, R228, R235, R236) -/

/-- A word moved down by `n` bytes over another: its bytes from `n` up, and the other's above them. -/
theorem moved_down_byte (x y : Word) (n i : Nat) (hi : i < 4) :
    ((y &&& ~~~lowMask (8 * (4 - n))) ||| (x >>> (8 * n))).extractLsb' (8 * i) 8 =
      if i + n < 4 then x.extractLsb' (8 * (i + n)) 8 else y.extractLsb' (8 * i) 8 := by
  apply BitVec.eq_of_getLsbD_eq
  intro b hb
  have hk : 8 * i + b < 32 := by omega
  rw [BitVec.getLsbD_extractLsb', BitVec.getLsbD_or, BitVec.getLsbD_and, BitVec.getLsbD_not, lowMask_bit _ _ hk,
    BitVec.getLsbD_ushiftRight]
  split
  · next moved =>
    have under : 8 * i + b < 8 * (4 - n) := by omega
    have place : 8 * n + (8 * i + b) = 8 * (i + n) + b := by omega
    simp [hb, under, place]
  · next kept =>
    have above : ¬8 * i + b < 8 * (4 - n) := by omega
    have out : 32 ≤ 8 * n + (8 * i + b) := by omega
    simp [hb, hk, above, BitVec.getLsbD_of_ge x _ out]

/-- A word moved up by `n` bytes over another: the other's low `n` bytes, and its own above them. -/
theorem moved_up_byte (x y : Word) (n i : Nat) (hi : i < 4) :
    ((x <<< (8 * n)) ||| (y &&& lowMask (8 * n))).extractLsb' (8 * i) 8 =
      if n ≤ i then x.extractLsb' (8 * (i - n)) 8 else y.extractLsb' (8 * i) 8 := by
  apply BitVec.eq_of_getLsbD_eq
  intro b hb
  have hk : 8 * i + b < 32 := by omega
  rw [BitVec.getLsbD_extractLsb', BitVec.getLsbD_or, BitVec.getLsbD_and, lowMask_bit _ _ hk, BitVec.getLsbD_shiftLeft]
  split
  · next moved =>
    have above : ¬8 * i + b < 8 * n := by omega
    have place : 8 * i + b - 8 * n = 8 * (i - n) + b := by omega
    simp [hb, hk, above, place]
  · next kept =>
    have under : 8 * i + b < 8 * n := by omega
    simp [hb, under]

/-- The first load of an unaligned pair: LWL in big order, LWR in little (R239). -/
def mergeHead (e : Endian) (k : Nat) (w v : Word) : Word :=
  if e = .big then mergeLeft e k w v else mergeRight e k w v

/-- The second load of an unaligned pair: LWR in big order, LWL in little (R239). -/
def mergeTail (e : Endian) (k : Nat) (w v : Word) : Word :=
  if e = .big then mergeRight e k w v else mergeLeft e k w v

/-- The first load takes the bytes from offset `k` of the aligned word to its end. -/
theorem mergeHead_placeByte (e : Endian) (k : Nat) (w v : Word) (j : Nat) (hj : j < 4) :
    placeByte e (mergeHead e k w v) j = if k + j < 4 then placeByte e w (k + j) else placeByte e v j := by
  cases e with
  | big =>
    refine (moved_up_byte w v k (3 - j) (by omega)).trans ?_
    have cond : k ≤ 3 - j ↔ k + j < 4 := by omega
    have place : 3 - j - k = 3 - (k + j) := by omega
    simp only [cond, place]
    rfl
  | little =>
    refine (moved_down_byte w v k j hj).trans ?_
    simp only [Nat.add_comm j k]
    rfl

/-- The second load takes the bytes of the aligned word up to offset `k`. -/
theorem mergeTail_placeByte (e : Endian) (k : Nat) (w v : Word) (d : Nat) (hk : k < 4) (hd : d < 4) :
    placeByte e (mergeTail e k w v) (3 - d) = if d ≤ k then placeByte e w (k - d) else placeByte e v (3 - d) := by
  cases e with
  | big =>
    have shape : mergeRight .big k w v = (v &&& ~~~lowMask (8 * (4 - (3 - k)))) ||| (w >>> (8 * (3 - k))) := by
      rw [mergeRight, show 4 - (3 - k) = k + 1 by omega]
    have flip : 3 - (3 - d) = d := by omega
    have cond : d + (3 - k) < 4 ↔ d ≤ k := by omega
    have merged := moved_down_byte w v (3 - k) d hd
    rw [← shape] at merged
    simp only [placeByte, mergeTail, if_true, flip, merged, cond]
    split
    · congr 2
      omega
    · rfl
  | little =>
    refine (moved_up_byte w v (3 - k) (3 - d) (by omega)).trans ?_
    have cond : 3 - k ≤ 3 - d ↔ d ≤ k := by omega
    have place : 3 - d - (3 - k) = k - d := by omega
    simp only [cond, place]
    rfl

/-! ## Loads (R227, R228) -/

/-- LWL completes with its merged word (R227). -/
theorem execLwl_spec {s : State} {rt base : Reg} {off : Half} {ea : Word} (hea : ea = effectiveAddr s off base)
    (admitted : admitsAll s .read (wordAddr ea) 4 = true) :
    ∃ t, exec (.lwl rt off base) s = .next t ∧
      WritesReg s t rt (mergeLeft s.params.endian (ea.toNat % 4) (memWord s (wordAddr ea)) (readReg s rt)) := by
  subst hea
  exact checkedLoad_completes (wordAddr_mod _) admitted (completeReg_spec s rt _)

/-- LWR completes with its merged word (R228). -/
theorem execLwr_spec {s : State} {rt base : Reg} {off : Half} {ea : Word} (hea : ea = effectiveAddr s off base)
    (admitted : admitsAll s .read (wordAddr ea) 4 = true) :
    ∃ t, exec (.lwr rt off base) s = .next t ∧
      WritesReg s t rt (mergeRight s.params.endian (ea.toNat % 4) (memWord s (wordAddr ea)) (readReg s rt)) := by
  subst hea
  exact checkedLoad_completes (wordAddr_mod _) admitted (completeReg_spec s rt _)

/-- The first load, by the addresses of the bytes: from `ea` up to the end of the aligned word. -/
theorem mergeHead_memByte (s : State) (ea v : Word) (j : Nat) (hj : j < 4) :
    placeByte s.params.endian (mergeHead s.params.endian (ea.toNat % 4) (memWord s (wordAddr ea)) v) j =
      if ea.toNat % 4 + j < 4 then memByte s (ea + BitVec.ofNat 32 j) else placeByte s.params.endian v j := by
  rw [mergeHead_placeByte _ _ _ _ j hj]
  split
  · next inside => rw [placeByte_memWord s _ _ inside, wordAddr_add_up]
  · rfl

/-- The second load, by the addresses of the bytes: from `ea` down to the start of the aligned word. -/
theorem mergeTail_memByte (s : State) (ea v : Word) (d : Nat) (hd : d < 4) :
    placeByte s.params.endian (mergeTail s.params.endian (ea.toNat % 4) (memWord s (wordAddr ea)) v) (3 - d) =
      if d ≤ ea.toNat % 4 then memByte s (ea - BitVec.ofNat 32 d) else placeByte s.params.endian v (3 - d) := by
  rw [mergeTail_placeByte _ _ _ _ d (Nat.mod_lt _ (by decide)) hd]
  split
  · next inside => rw [placeByte_memWord s _ _ (by omega), wordAddr_add_down ea d inside]
  · rfl

/-- Settles O44: LWL is the first load of a pair in big order and the second in little, LWR the other (R227, R228). -/
theorem loadLeftAndRight : Obligations.LoadLeftAndRight := by
  intro s rt base off ea hea admitted
  obtain ⟨t, run, writes⟩ := execLwl_spec (rt := rt) hea admitted
  obtain ⟨t', run', writes'⟩ := execLwr_spec (rt := rt) hea admitted
  have head := mergeHead_memByte s ea (readReg s rt)
  have tail := mergeTail_memByte s ea (readReg s rt)
  refine ⟨⟨_, t, run, writes, fun j hj => ?_⟩, ⟨_, t', run', writes', fun j hj => ?_⟩⟩
  all_goals
    have flip : 3 - (3 - j) = j := by omega
    specialize head j hj
    specialize tail j hj
    cases order : s.params.endian <;> simp only [order, placeByte, mergeHead, mergeTail, reduceCtorEq, if_true, if_false,
      flip] at head tail ⊢
  · exact head
  · exact tail
  · exact tail
  · exact head

/-! ## Stores (R235, R236) -/

/-- Two offsets in a word make two addresses. -/
theorem add_offset_ne (a : Word) {p q : Nat} (hp : p < 4) (hq : q < 4) (h : p ≠ q) :
    a + BitVec.ofNat 32 p ≠ a + BitVec.ofNat 32 q := by
  intro same
  have same' := congrArg BitVec.toNat (BitVec.add_right_inj a |>.mp same)
  simp only [BitVec.toNat_ofNat] at same'
  omega

/-- SWL completes with its store (R235). -/
theorem execSwl_spec {s : State} {rt base : Reg} {off : Half} {ea : Word} (hea : ea = effectiveAddr s off base)
    (hm : Memory.wf s.mem = true) (admitted : admitsAll s .write (wordAddr ea) 4 = true) :
    ∃ t, exec (.swl rt off base) s = .next t ∧ StoresBytes s t (storeLeftAddr s.params.endian ea)
      (storeLeftBytes s.params.endian (ea.toNat % 4) (readReg s rt)) := by
  subst hea
  have short : (storeLeftBytes s.params.endian (byteInWord (effectiveAddr s off base)) (readReg s rt)).length ≤
      2 ^ 32 := by
    cases s.params.endian <;> simp [storeLeftBytes] <;> omega
  exact checkedStore_completes (wordAddr_mod _) admitted (complete_storeBytes_spec s _ _ hm short)

/-- SWR completes with its store (R236). -/
theorem execSwr_spec {s : State} {rt base : Reg} {off : Half} {ea : Word} (hea : ea = effectiveAddr s off base)
    (hm : Memory.wf s.mem = true) (admitted : admitsAll s .write (wordAddr ea) 4 = true) :
    ∃ t, exec (.swr rt off base) s = .next t ∧ StoresBytes s t (storeRightAddr s.params.endian ea)
      (storeRightBytes s.params.endian (ea.toNat % 4) (readReg s rt)) := by
  subst hea
  have short : (storeRightBytes s.params.endian (byteInWord (effectiveAddr s off base)) (readReg s rt)).length ≤
      2 ^ 32 := by
    cases s.params.endian <;> simp [storeRightBytes] <;> omega
  exact checkedStore_completes (wordAddr_mod _) admitted (complete_storeBytes_spec s _ _ hm short)

/-- The first store of an unaligned pair: SWL in big order, SWR in little (R239). -/
def StoresHead (s t : State) (ea v : Word) : Prop :=
  StoresBytes s t ea ((splitWord s.params.endian v).take (4 - ea.toNat % 4))

/-- The second store of an unaligned pair: SWR in big order, SWL in little (R239). -/
def StoresTail (s t : State) (ea v : Word) : Prop :=
  StoresBytes s t (wordAddr ea) ((splitWord s.params.endian v).drop (3 - ea.toNat % 4))

theorem StoresHead.stored {s t : State} {ea v : Word} (h : StoresHead s t ea v) (j : Nat) (hj : ea.toNat % 4 + j < 4) :
    memByte t (ea + BitVec.ofNat 32 j) = placeByte s.params.endian v j := by
  have read := StoresBytes.stored h j (by simp; omega)
  rw [List.getElem?_take_of_lt (by omega), splitWord_placeByte _ _ _ (by omega)] at read
  exact (Option.some.inj read).symm

theorem StoresHead.elsewhere {s t : State} {ea v b : Word} (h : StoresHead s t ea v)
    (outside : ∀ j : Nat, ea.toNat % 4 + j < 4 → b ≠ ea + BitVec.ofNat 32 j) : memByte t b = memByte s b := by
  refine StoresBytes.elsewhere h b fun j hj => outside j ?_
  simp only [List.length_take, splitWord_length] at hj
  omega

theorem StoresTail.stored {s t : State} {ea v : Word} (h : StoresTail s t ea v) (d : Nat) (hd : d ≤ ea.toNat % 4) :
    memByte t (ea - BitVec.ofNat 32 d) = placeByte s.params.endian v (3 - d) := by
  have read := StoresBytes.stored h (ea.toNat % 4 - d) (by simp; omega)
  have place : 3 - ea.toNat % 4 + (ea.toNat % 4 - d) = 3 - d := by omega
  rw [List.getElem?_drop, place, splitWord_placeByte _ _ _ (by omega), wordAddr_add_down ea d hd] at read
  exact (Option.some.inj read).symm

theorem StoresTail.elsewhere {s t : State} {ea v b : Word} (h : StoresTail s t ea v)
    (outside : ∀ d : Nat, d ≤ ea.toNat % 4 → b ≠ ea - BitVec.ofNat 32 d) : memByte t b = memByte s b := by
  refine StoresBytes.elsewhere h b fun m hm => ?_
  simp only [List.length_drop, splitWord_length] at hm
  have place : ea.toNat % 4 - (ea.toNat % 4 - m) = m := by omega
  have away := outside (ea.toNat % 4 - m) (by omega)
  rwa [← wordAddr_add_down ea _ (by omega), place] at away

/-- The aligned word after the first store, byte by byte. -/
theorem StoresHead.memWord_byte {s t : State} {ea v : Word} (h : StoresHead s t ea v) (p : Nat) (hp : p < 4) :
    placeByte s.params.endian (memWord t (wordAddr ea)) p =
      if ea.toNat % 4 ≤ p then placeByte s.params.endian v (p - ea.toNat % 4)
      else placeByte s.params.endian (memWord s (wordAddr ea)) p := by
  have params : t.params = s.params := (StoresBytes.fixed h).2.1
  have read := placeByte_memWord t (wordAddr ea) p hp
  rw [params] at read
  rw [read, placeByte_memWord s _ p hp]
  split
  · next inside =>
    have place := wordAddr_add_up ea (p - ea.toNat % 4)
    rw [Nat.add_sub_cancel' inside] at place
    rw [place]
    exact h.stored _ (by omega)
  · next below =>
    refine h.elsewhere fun j hj => ?_
    rw [← wordAddr_add_up ea j]
    exact add_offset_ne _ hp hj (by omega)

/-- The aligned word after the second store, byte by byte. -/
theorem StoresTail.memWord_byte {s t : State} {ea v : Word} (h : StoresTail s t ea v) (p : Nat) (hp : p < 4) :
    placeByte s.params.endian (memWord t (wordAddr ea)) p =
      if p ≤ ea.toNat % 4 then placeByte s.params.endian v (3 - (ea.toNat % 4 - p))
      else placeByte s.params.endian (memWord s (wordAddr ea)) p := by
  have params : t.params = s.params := (StoresBytes.fixed h).2.1
  have read := placeByte_memWord t (wordAddr ea) p hp
  rw [params] at read
  rw [read, placeByte_memWord s _ p hp]
  split
  · next inside =>
    have place := wordAddr_add_down ea (ea.toNat % 4 - p) (Nat.sub_le _ _)
    rw [Nat.sub_sub_self inside] at place
    rw [place]
    exact h.stored _ (Nat.sub_le _ _)
  · next above =>
    refine h.elsewhere fun d hd => ?_
    rw [← wordAddr_add_down ea d hd]
    exact add_offset_ne _ hp (by omega) (by omega)

/-- The mask of R235: ones below the top `n` bytes. -/
theorem ones_shiftRight (n : Nat) (hn : n < 4) : 0xFFFFFFFF#32 >>> (8 * n) = lowMask (8 * (4 - n)) := by
  interval_cases n <;> decide

/-- The word form of the first store (R235 in big order, R236 in little). -/
theorem StoresHead.word {s t : State} {ea v w : Word} {k : Nat} (h : StoresHead s t ea v) (hw : w = memWord s (wordAddr ea))
    (hk : k = ea.toNat % 4) :
    memWord t (wordAddr ea) =
      if s.params.endian = .big then (w &&& ~~~lowMask (8 * (4 - k))) ||| (v >>> (8 * k))
      else (v <<< (8 * k)) ||| (w &&& lowMask (8 * k)) := by
  subst hw hk
  refine word_eq_of_placeBytes s.params.endian fun p hp => (h.memWord_byte p hp).trans ?_
  cases s.params.endian with
  | big =>
    refine Eq.trans ?_ (moved_down_byte v _ _ (3 - p) (by omega)).symm
    have cond : 3 - p + ea.toNat % 4 < 4 ↔ ea.toNat % 4 ≤ p := by omega
    simp only [cond]
    split
    · have place : 3 - (p - ea.toNat % 4) = 3 - p + ea.toNat % 4 := by omega
      simp only [placeByte, if_true, place]
    · rfl
  | little => exact (moved_up_byte v _ _ p hp).symm

/-- The word form of the second store (R236 in big order, R235 in little). -/
theorem StoresTail.word {s t : State} {ea v w : Word} {k : Nat} (h : StoresTail s t ea v) (hw : w = memWord s (wordAddr ea))
    (hk : k = ea.toNat % 4) :
    memWord t (wordAddr ea) =
      if s.params.endian = .big then (v <<< (8 * (3 - k))) ||| (w &&& lowMask (8 * (3 - k)))
      else (w &&& ~~~lowMask (8 * (4 - (3 - k)))) ||| (v >>> (8 * (3 - k))) := by
  subst hw hk
  have bound : ea.toNat % 4 < 4 := Nat.mod_lt _ (by decide)
  refine word_eq_of_placeBytes s.params.endian fun p hp => (h.memWord_byte p hp).trans ?_
  cases s.params.endian with
  | big =>
    refine Eq.trans ?_ (moved_up_byte v _ _ (3 - p) (by omega)).symm
    have cond : 3 - ea.toNat % 4 ≤ 3 - p ↔ p ≤ ea.toNat % 4 := by omega
    simp only [cond]
    split
    · have place : 3 - (3 - (ea.toNat % 4 - p)) = 3 - p - (3 - ea.toNat % 4) := by omega
      simp only [placeByte, if_true, place]
    · rfl
  | little =>
    refine Eq.trans ?_ (moved_down_byte v _ _ p hp).symm
    have cond : p + (3 - ea.toNat % 4) < 4 ↔ p ≤ ea.toNat % 4 := by omega
    simp only [cond]
    split
    · have place : 3 - (ea.toNat % 4 - p) = p + (3 - ea.toNat % 4) := by omega
      simp only [placeByte, reduceCtorEq, if_false, place]
    · rfl

/-- In big order SWL is the first store (R235). -/
theorem StoresHead.of_left {s t : State} {ea v : Word} (big : s.params.endian = .big)
    (h : StoresBytes s t (storeLeftAddr s.params.endian ea) (storeLeftBytes s.params.endian (ea.toNat % 4) v)) :
    StoresHead s t ea v := by
  rw [big] at h
  rwa [StoresHead, big]

/-- In little order SWR is the first store (R236). -/
theorem StoresHead.of_right {s t : State} {ea v : Word} (little : s.params.endian = .little)
    (h : StoresBytes s t (storeRightAddr s.params.endian ea) (storeRightBytes s.params.endian (ea.toNat % 4) v)) :
    StoresHead s t ea v := by
  rw [little] at h
  rwa [StoresHead, little]

/-- In little order SWL is the second store (R235). -/
theorem StoresTail.of_left {s t : State} {ea v : Word} (little : s.params.endian = .little)
    (h : StoresBytes s t (storeLeftAddr s.params.endian ea) (storeLeftBytes s.params.endian (ea.toNat % 4) v)) :
    StoresTail s t ea v := by
  rw [little] at h
  rwa [StoresTail, little]

/-- In big order SWR is the second store (R236). -/
theorem StoresTail.of_right {s t : State} {ea v : Word} (big : s.params.endian = .big)
    (h : StoresBytes s t (storeRightAddr s.params.endian ea) (storeRightBytes s.params.endian (ea.toNat % 4) v)) :
    StoresTail s t ea v := by
  rw [big] at h
  rwa [StoresTail, big]

/-- Settles O47: SWL is the first store of a pair in big order and the second in little, SWR the other (R235, R236). -/
theorem storeLeftAndRight : Obligations.StoreLeftAndRight := by
  rintro s rt base off ea _ _ w k hm hea rfl hk rfl hw admitted
  have bound : k < 4 := hk ▸ Nat.mod_lt _ (by decide)
  obtain ⟨t, run, left⟩ := execSwl_spec (rt := rt) hea hm admitted
  obtain ⟨t', run', right⟩ := execSwr_spec (rt := rt) hea hm admitted
  refine ⟨⟨t, run, hk ▸ left, ?_⟩, ⟨t', run', hk ▸ right, ?_⟩⟩
  · cases order : s.params.endian with
    | big =>
      have word := (StoresHead.of_left order left).word hw hk
      rwa [if_pos order, ← ones_shiftRight k bound] at word
    | little =>
      have word := (StoresTail.of_left order left).word hw hk
      rwa [if_neg (by simp [order]), ← ones_shiftRight (3 - k) (by omega)] at word
  · cases order : s.params.endian with
    | big =>
      have word := (StoresTail.of_right order right).word hw hk
      rwa [if_pos order] at word
    | little =>
      have word := (StoresHead.of_right order right).word hw hk
      rwa [if_neg (by simp [order])] at word

/-! ## The pairs (R239) -/

/-- The first load of a pair, as the byte order selects it. -/
theorem loadHead_completes {s : State} {rt base : Reg} {off : Half} {ea : Word} (hea : ea = effectiveAddr s off base)
    (admitted : admitsAll s .read (wordAddr ea) 4 = true) :
    ∃ t, exec (if s.params.endian = .big then .lwl rt off base else .lwr rt off base) s = .next t ∧
      WritesReg s t rt (mergeHead s.params.endian (ea.toNat % 4) (memWord s (wordAddr ea)) (readReg s rt)) := by
  by_cases big : s.params.endian = .big
  · rw [if_pos big, mergeHead, if_pos big]
    exact execLwl_spec hea admitted
  · rw [if_neg big, mergeHead, if_neg big]
    exact execLwr_spec hea admitted

/-- The second load of a pair, as the byte order selects it. -/
theorem loadTail_completes {s : State} {rt base : Reg} {off : Half} {ea : Word} (hea : ea = effectiveAddr s off base)
    (admitted : admitsAll s .read (wordAddr ea) 4 = true) :
    ∃ t, exec (if s.params.endian = .big then .lwr rt off base else .lwl rt off base) s = .next t ∧
      WritesReg s t rt (mergeTail s.params.endian (ea.toNat % 4) (memWord s (wordAddr ea)) (readReg s rt)) := by
  by_cases big : s.params.endian = .big
  · rw [if_pos big, mergeTail, if_pos big]
    exact execLwr_spec hea admitted
  · rw [if_neg big, mergeTail, if_neg big]
    exact execLwl_spec hea admitted

theorem endian_little_of_ne_big {e : Endian} (h : e ≠ .big) : e = .little := by
  cases e with
  | big => exact absurd rfl h
  | little => rfl

/-- The first store of a pair, as the byte order selects it. -/
theorem storeHead_completes {s : State} {rt base : Reg} {off : Half} {ea : Word} (hea : ea = effectiveAddr s off base)
    (hm : Memory.wf s.mem = true) (admitted : admitsAll s .write (wordAddr ea) 4 = true) :
    ∃ t, exec (if s.params.endian = .big then .swl rt off base else .swr rt off base) s = .next t ∧
      StoresHead s t ea (readReg s rt) := by
  by_cases big : s.params.endian = .big
  · rw [if_pos big]
    obtain ⟨t, run, left⟩ := execSwl_spec hea hm admitted
    exact ⟨t, run, .of_left big left⟩
  · rw [if_neg big]
    obtain ⟨t, run, right⟩ := execSwr_spec hea hm admitted
    exact ⟨t, run, .of_right (endian_little_of_ne_big big) right⟩

/-- The second store of a pair, as the byte order selects it. -/
theorem storeTail_completes {s : State} {rt base : Reg} {off : Half} {ea : Word} (hea : ea = effectiveAddr s off base)
    (hm : Memory.wf s.mem = true) (admitted : admitsAll s .write (wordAddr ea) 4 = true) :
    ∃ t, exec (if s.params.endian = .big then .swr rt off base else .swl rt off base) s = .next t ∧
      StoresTail s t ea (readReg s rt) := by
  by_cases big : s.params.endian = .big
  · rw [if_pos big]
    obtain ⟨t, run, right⟩ := execSwr_spec hea hm admitted
    exact ⟨t, run, .of_right big right⟩
  · rw [if_neg big]
    obtain ⟨t, run, left⟩ := execSwl_spec hea hm admitted
    exact ⟨t, run, .of_left (endian_little_of_ne_big big) left⟩

/-- Any instruction that reaches a next state keeps the canonical form of memory. -/
theorem exec_keeps_memWf {i : Instr} {s t : State} (run : exec i s = .next t) (h : Memory.wf s.mem = true) :
    Memory.wf t.mem = true := by
  cases exec_effect i s t run with
  | raised c w b may why addr eq => exact eq ▸ h
  | advanced u seq changes eq => simpa [eq] using changes.keeps_memWf h
  | transferred u c target tr slot link changes eq => simpa [eq] using changes.keeps_memWf h

/-- The address three up, as the second instruction of a pair computes it. -/
theorem effectiveAddr_three {s t : State} {base : Reg} (h : readReg t base = readReg s base) :
    readReg s base + 3#32 = effectiveAddr t 3 base := by rw [effectiveAddr, h]; rfl

theorem effectiveAddr_zero (s : State) (base : Reg) : readReg s base = effectiveAddr s 0 base :=
  (BitVec.add_zero _).symm

/-- The byte `j` above an address is `3 - j` below the last byte of the unaligned word. -/
theorem add_three_sub (a : Word) {j d : Nat} (h : j + d = 3) : a + 3#32 - BitVec.ofNat 32 d = a + BitVec.ofNat 32 j := by
  rw [BitVec.sub_eq_iff_eq_add, BitVec.add_assoc, ← BitVec.ofNat_add, h]

/-- A byte of an unaligned word is reached from its last byte, or from its first. -/
theorem head_of_not_tail (a : Word) {j d : Nat} (h : j + d = 3) (out : ¬d ≤ (a + 3#32).toNat % 4) :
    a.toNat % 4 + j < 4 := by
  rw [BitVec.toNat_add] at out
  have := a.isLt
  simp only [BitVec.toNat_ofNat] at out
  omega

/-- A word is joined from the bytes at its places. -/
theorem joinWord_memByte (s : State) (a v : Word)
    (h : ∀ j : Nat, j < 4 → placeByte s.params.endian v j = memByte s (a + BitVec.ofNat 32 j)) : v = memWord s a :=
  word_eq_of_placeBytes s.params.endian fun j hj => (h j hj).trans (placeByte_memWord s a j hj).symm

/-- The two loads of a pair leave the unaligned word in the register. -/
theorem loadPair_value {s t : State} {a v : Word} {rt : Reg} (nonzero : rt ≠ 0#5)
    (first : WritesReg s t rt (mergeHead s.params.endian (a.toNat % 4) (memWord s (wordAddr a)) v)) :
    mergeTail t.params.endian ((a + 3#32).toNat % 4) (memWord t (wordAddr (a + 3#32))) (readReg t rt) = memWord s a := by
  have params : t.params = s.params := first.fixed.2.1
  refine joinWord_memByte s a _ fun j hj => ?_
  have back : 3 - (3 - j) = j := by omega
  have read := mergeTail_memByte t (a + 3#32) (readReg t rt) (3 - j) (by omega)
  rw [back, add_three_sub a (j := j) (by omega), first.mem.1, params] at read
  rw [params, read]
  split
  · rfl
  · next out =>
    rw [first.dest, if_neg nonzero, mergeHead_memByte s a v j hj, if_pos (head_of_not_tail a (by omega) out)]

/-- The two stores of a pair leave the value at the unaligned word. -/
theorem storePair_value {s t u : State} {a v : Word} (first : StoresHead s t a v) (second : StoresTail t u (a + 3#32) v) :
    v = memWord u a := by
  have params : t.params = s.params := (StoresBytes.fixed first).2.1
  have params' : u.params = t.params := (StoresBytes.fixed second).2.1
  refine joinWord_memByte u a v fun j hj => ?_
  have down := add_three_sub a (j := j) (d := 3 - j) (by omega)
  by_cases reached : 3 - j ≤ (a + 3#32).toNat % 4
  · have stored := second.stored _ reached
    rw [down] at stored
    rw [stored, params', show 3 - (3 - j) = j by omega]
  · have kept : memByte u (a + BitVec.ofNat 32 j) = memByte t (a + BitVec.ofNat 32 j) := by
      refine second.elsewhere fun d hd => ?_
      rw [add_three_sub a (j := 3 - d) (by omega)]
      exact add_offset_ne a hj (by omega) (by omega)
    rw [kept, first.stored j (head_of_not_tail a (by omega) reached), params', params]

/-- The two stores of a pair change no byte outside the unaligned word. -/
theorem storePair_elsewhere {s t u : State} {a v b : Word} (first : StoresHead s t a v)
    (second : StoresTail t u (a + 3#32) v) (outside : ∀ k : Nat, k < 4 → b ≠ a + BitVec.ofNat 32 k) :
    memByte u b = memByte s b := by
  have later : memByte u b = memByte t b := by
    refine second.elsewhere fun d hd => ?_
    rw [add_three_sub a (j := 3 - d) (by omega)]
    exact outside _ (by omega)
  exact later.trans (first.elsewhere fun j hj => outside j (by omega))

/-- Settles O45: the second instruction covers the bytes that the first leaves (R239). -/
theorem unalignedPair : Obligations.UnalignedPair := by
  rintro s rt base _ rfl
  refine ⟨fun nonzero other admitted admitted' => ?_, fun hm admitted admitted' => ?_⟩
  · obtain ⟨t, run, first⟩ := loadHead_completes (rt := rt) (effectiveAddr_zero s base) admitted
    have params : t.params = s.params := first.fixed.2.1
    rw [← admitsAll_congr params] at admitted'
    obtain ⟨u, run', second⟩ :=
      loadTail_completes (rt := rt) (effectiveAddr_three (first.others base (Ne.symm other))) admitted'
    refine ⟨t, u, run, params ▸ run', ?_⟩
    rw [second.dest, if_neg nonzero]
    exact loadPair_value nonzero first
  · obtain ⟨t, run, first⟩ := storeHead_completes (rt := rt) (effectiveAddr_zero s base) hm admitted
    have params : t.params = s.params := (StoresBytes.fixed first).2.1
    have regs : RegsSame s t := StoresBytes.regs first
    rw [← admitsAll_congr params] at admitted'
    obtain ⟨u, run', second⟩ :=
      storeTail_completes (rt := rt) (effectiveAddr_three (regs base)) (exec_keeps_memWf run hm) admitted'
    rw [regs rt] at second
    have params' : u.params = s.params := (StoresBytes.fixed second).2.1.trans params
    refine ⟨t, u, run, params ▸ run', ?_, fun b outside => storePair_elsewhere first second outside⟩
    rw [← params']
    exact storePair_value first second

end Sys2Proof.Machine
end
